-- ==== Sys2Proof/Word.lean ====
section
/-! DEFINITION. The byte and the widths of the block's words (00_scope.md R9: a byte is 8 bits, bit 0 least significant). -/

namespace Sys2Proof

/-- One cell, one wire byte: 8 bits (00_scope.md R5 table, "data width of every cell and every wire byte"). -/
abbrev Byte := BitVec 8

/-- The consumer port's 128-bit data path (10_state.md R30). -/
abbrev Lanes := BitVec 128

end Sys2Proof
end

