-- ==== Sys2Proof/Config.lean ====
section
/-! DEFINITION. Constants of the protocol, the OPEN parameters of the block as opaque constants, and the free values. -/

namespace Sys2Proof

/-- `MAX_PAYLOAD` (00_scope.md R6). -/
abbrev maxPayload : Nat := 16

/-- The longest response frame, `DATA` with `LEN = 16` (30_encoding.md R81). -/
def maxResponse : Nat := 19

/-- `CMD_READ` (30_encoding.md R80). -/
abbrev cmdRead : Byte := 0x01#8

/-- `CMD_WRITE` (30_encoding.md R80). -/
abbrev cmdWrite : Byte := 0x02#8

/-- `ST_OK` (30_encoding.md R76). -/
abbrev statusOk : Byte := 0x00#8

/-- `ST_CSUM_FAIL` (30_encoding.md R76). -/
abbrev statusCsumFail : Byte := 0xFF#8

/-- The two OPEN parameters that behaviour depends on (00_scope.md R5, R7). Operations take them as an argument; the
machine is run at `Config.params`. -/
structure Params where
  mapSize : Nat
  nCons : Nat
deriving DecidableEq, Repr

/-- The bounds 00_scope.md R5 puts on `MAP_SIZE`. -/
abbrev Params.Ok (P : Params) : Prop := 1 ≤ P.mapSize ∧ P.mapSize ≤ 256

/-- Access modes a schema may declare (10_state.md R14); nothing enforces them (60_exceptions.md R215). -/
inductive AccessMode where
  | readOnly
  | writeOnly
  | readWrite
deriving DecidableEq, Repr

/-- Declared field widths: 1, 2 or 4 bytes (10_state.md R14). -/
inductive FieldWidth where
  | one
  | two
  | four
deriving DecidableEq, Repr

/-- One named field of `SCHEMA` (00_scope.md R8). -/
structure SchemaField where
  name : String
  addr : Nat
  width : FieldWidth
  mode : AccessMode
deriving DecidableEq, Repr

/-- `MAP_SIZE - 1`, OPEN (00_scope.md R5): any value 0..255. Log 2. -/
opaque Config.lastAddress : Fin 256

/-- `MAP_SIZE`, OPEN in 1..256 (00_scope.md R5). Log 2. -/
def Config.mapSize : Nat := Config.lastAddress.val + 1

/-- `N_CONS`, OPEN, any natural number (00_scope.md R7). Log 3. -/
opaque Config.nCons : Nat

/-- `SCHEMA`, OPEN, documentation only: nothing reads it (00_scope.md R8). Log 4. -/
opaque Config.schema : List SchemaField

/-- FREE VALUE: `c_rdata` of a refused read is unspecified (45_consumer_port.md R181, R183; V1). Applied to the counter
`State.freeCount`. Log 9. -/
opaque Config.unspecifiedRdata : Nat → Lanes

/-- FREE VALUE: which agent has a turn, where nothing fixes who is next (20_memory.md R56; V4). Applied to the counter
`Turns.draws`; read modulo the number of agents. Log 1. -/
opaque Config.freeTurn : Nat → Nat

/-- FREE VALUE: how many such turns lie between two turns that fairness gives (20_memory.md R56). Applied to the counter
`Turns.round`. Log 1. -/
opaque Config.freeGap : Nat → Nat

/-- The machine's parameters. -/
def Config.params : Params := ⟨Config.mapSize, Config.nCons⟩

end Sys2Proof
end

