-- ==== Sys2Proof/Syntax.lean ====
section
/-! DEFINITION. The instructions: one constructor per row of spec/opcode_table.json (30_encoding.md R70 to R83). -/

namespace Sys2Proof

/-- The response kinds of register `rkind` (10_state.md R20). -/
inductive RKind where
  | data
  | ack
  | nack
deriving DecidableEq, Repr

/-- What follows the three header bytes of a WRITE request: nothing when `LEN > 16`, since the engine takes such a frame as
3 bytes (30_encoding.md R81; log 7); otherwise the payload and the checksum byte (R72). -/
inductive WriteTail where
  | overLength
  | complete (data : List Byte) (csum : Byte)
deriving DecidableEq, Repr

/-- The bytes of a WRITE request after its header. -/
def WriteTail.bytes : WriteTail → List Byte
  | .overLength => []
  | .complete data csum => data ++ [csum]

/-- A consumer-port request: the tuple (`c_op`, `c_addr`, `c_len`, `c_wdata`, `c_lock`) of 30_encoding.md R83. -/
structure PortReq where
  op : BitVec 1
  addr : Byte
  len : BitVec 5
  wdata : Lanes
  lock : Bool
deriving DecidableEq, Repr

/-- One constructor per row of spec/opcode_table.json. -/
inductive Instr where
  /-- READ (R71, R160). -/
  | read (addr len csum : Byte)
  /-- WRITE (R72, R170). -/
  | write (addr len : Byte) (tail : WriteTail)
  /-- UNKNOWN(0x00) (R80, R138). -/
  | unknown00 (addr len : Byte)
  /-- UNKNOWN(0x03) (R80, R138). -/
  | unknown03 (addr len : Byte)
  /-- UNKNOWN(0x04..0x07): `low` is bits 1..0 of the command byte. -/
  | unknown04 (low : BitVec 2) (addr len : Byte)
  /-- UNKNOWN(0x08..0x0F): `low` is bits 2..0 of the command byte. -/
  | unknown08 (low : BitVec 3) (addr len : Byte)
  /-- UNKNOWN(0x10..0x1F): `low` is bits 3..0 of the command byte. -/
  | unknown10 (low : BitVec 4) (addr len : Byte)
  /-- UNKNOWN(0x20..0x3F): `low` is bits 4..0 of the command byte. -/
  | unknown20 (low : BitVec 5) (addr len : Byte)
  /-- UNKNOWN(0x40..0x7F): `low` is bits 5..0 of the command byte. -/
  | unknown40 (low : BitVec 6) (addr len : Byte)
  /-- UNKNOWN(0x80..0xFF): `low` is bits 6..0 of the command byte. -/
  | unknown80 (low : BitVec 7) (addr len : Byte)
  /-- DATA, the read response (R73, R163). -/
  | data (addr len : Byte) (payload : List Byte) (csum : Byte)
  /-- ACK, the write acknowledgement (R74, R174). -/
  | ack (addr csum : Byte)
  /-- NACK, the write refusal (R75, R172). -/
  | nack (addr csum : Byte)
  /-- CONS_READ on port `port` (R83, R181). -/
  | consRead (port : Nat) (addr : Byte) (len : BitVec 5) (lock : Bool)
  /-- CONS_WRITE on port `port` (R83, R182). -/
  | consWrite (port : Nat) (addr : Byte) (len : BitVec 5) (wdata : Lanes) (lock : Bool)
deriving DecidableEq, Repr

end Sys2Proof
end

