-- ==== Sys2Proof/Machine/State.lean ====
section
/-! DEFINITION. The machine's state (10_state.md), all of it plain data, the reset state (R33), and the reasons a step can
stop, of which this block has none (60_exceptions.md R207). -/

namespace Sys2Proof.Machine

/-- The register map (10_state.md R10) as a list of (address, byte) pairs in canonical form (log 18). -/
abbrev Memory := List Host.Cell

/-- The phase register `st` (10_state.md R15). -/
inductive Phase where
  | hdr
  | rdCsum
  | wrPayload
  | wrCsum
  | skip
  | commitRd
  | commitWr
  | resp
deriving DecidableEq, Repr

/-- The guard's register (10_state.md R25). -/
inductive Owner where
  | free
  | cons (i : Nat)
deriving DecidableEq, Repr

/-- The diagnostic events, one per error class (60_exceptions.md R200, R205). -/
inductive Diag where
  | outOfRange
  | checksumMismatch
  | lengthTooLarge
  | unknownCommand
  | incompleteFrame
deriving DecidableEq, Repr

/-- A consumer port's inputs (10_state.md R30): `req` is `c_req`, the others are in the request tuple. -/
structure Port where
  req : Bool
  sig : PortReq
deriving DecidableEq, Repr

/-- A port that presents nothing. -/
def Port.idle : Port := ⟨false, ⟨0#1, 0#8, 0#5, 0#128, false⟩⟩

/-- One performed port request, that is one pulse of `c_gnt` (10_state.md R30, 45_consumer_port.md R181 to R183). `rdata` is
the whole of `c_rdata`, none for a write, of which the spec gives `c_rdata` no value (log 13). -/
structure PortResult where
  port : Nat
  op : BitVec 1
  err : Bool
  rdata : Option Lanes
deriving DecidableEq, Repr

/-- Who the guard picks at a clock edge (60_exceptions.md R210). -/
inductive Grantee where
  | engine
  | port (i : Nat)
deriving DecidableEq, Repr

/-- The inputs of one clock edge (10_state.md R27 to R30) with the guard's choice, which the spec leaves open (R56). -/
structure Pins where
  rst : Bool
  linkRst : Bool
  rxValid : Bool
  txReady : Bool
  grant : Option Grantee
deriving DecidableEq, Repr

/-- The steps of the agents (00_scope.md R4). `rxByte` hands over the byte at the head of the RX stream. -/
inductive AgentStep where
  | rxByte
  | commit
  | txByte
  | consAccess (i : Nat)
  | consAcquire (i : Nat)
  | consRelease (i : Nat)
  | reset
  | linkReset
deriving DecidableEq, Repr

/-- What happens next: a whole instruction by the engine or a port, one agent step, one clock edge, or an input of the
environment (log 1, 5, 16, 17). -/
inductive Event where
  /-- The engine fetches and runs one whole instruction, or, where it holds no whole one, moves on as far as it can. -/
  | engine
  /-- Port `i`'s presented request runs as one whole instruction. -/
  | port (i : Nat)
  /-- One step of one agent (R4). -/
  | agent (a : AgentStep)
  /-- One rising clock edge (R27, R210). -/
  | edge (p : Pins)
  /-- Port `i` presents a request (R180). -/
  | present (i : Nat) (r : PortReq)
  /-- Port `i` drives `c_lock` (R186). -/
  | driveLock (i : Nat) (b : Bool)
  /-- The host sends more bytes (R28). -/
  | hostSend (bytes : List Byte)
deriving DecidableEq, Repr

/-- The model's own: whose turn it is while the agenda is empty (log 1). Turn `round` is given to the agents in rotation;
before it `slack` turns are left whose agent is a free value, the `draws`-th. So every agent has a turn again and again, and
any order that does so is one of these (20_memory.md R56). -/
structure Turns where
  round : Nat
  slack : Nat
  draws : Nat
deriving DecidableEq, Repr

/-- The machine's state. The first eleven fields are the block's registers and cells (10_state.md R10 to R25); the next five
are what crosses its boundary (R28 to R31; log 13, 14); the last three are the model's own (log 1, 9). -/
structure State where
  /-- The register map (R10), as the canonical list of its nonzero cells (log 18). -/
  map : Memory
  /-- Phase (R15). -/
  st : Phase
  /-- Command byte (R16). -/
  cmd : Byte
  /-- Start address (R16). -/
  addr : Byte
  /-- Declared length (R16). -/
  len : Byte
  /-- Byte counter (R17). -/
  cnt : BitVec 5
  /-- Running checksum (R18). -/
  acc : Byte
  /-- Data buffer (R19). -/
  buf : Vector Byte 16
  /-- Response kind (R20). -/
  rkind : RKind
  /-- Response bytes already taken (R20). -/
  ridx : BitVec 5
  /-- The lock on the map (R25). -/
  owner : Owner
  /-- Bytes sent by the host and not yet taken, the next one first (R28). -/
  rx : List Byte
  /-- Bytes delivered on TX so far, oldest first (R4, R29). -/
  tx : List Byte
  /-- Diagnostic events so far, oldest first (R31, R205). -/
  diags : List Diag
  /-- The consumer ports' inputs, port 0 first; `N_CONS` of them (R30). -/
  ports : List Port
  /-- Port requests performed so far, oldest first (R30). -/
  results : List PortResult
  /-- The model's own: how many unspecified `c_rdata` have been given out (log 9). -/
  freeCount : Nat
  /-- The model's own: what happens next, in order (log 1). -/
  agenda : List Event
  /-- The model's own: whose turn it is once the agenda is empty (log 1). -/
  turns : Turns
deriving DecidableEq, Repr

/-- Why the machine stops with a fault: never. No step of the spec leads to a fault or halts the block (60_exceptions.md
R207), so the type has no constructor and no step can raise one (safe). -/
inductive Fault where
deriving DecidableEq, Repr

/-- Why an instruction is refused. -/
inductive Refusal where
  /-- Raised by an arm of `exec` whose instruction has no meaning yet; no arm is in that case (safe). -/
  | notModelled (mnemonic : String)
deriving DecidableEq, Repr

/-- The machine right after `Reset` (10_state.md R33, 70_reset_and_hazards.md R240, R241), with an idle environment: nothing
sent, presented or observed (log 14). -/
def State.reset : State where
  map := []
  st := .hdr
  cmd := 0#8
  addr := 0#8
  len := 0#8
  cnt := 0#5
  acc := 0#8
  buf := Vector.replicate 16 0#8
  rkind := .ack
  ridx := 0#5
  owner := .free
  rx := []
  tx := []
  diags := []
  ports := List.replicate Config.nCons Port.idle
  results := []
  freeCount := 0
  agenda := []
  turns := ⟨0, 0, 0⟩

end Sys2Proof.Machine
end

