-- ==== Sys2Proof/Machine/Flags.lean ====
section
/-! DEFINITION. The block has no flags (10_state.md R24). What it computes in their place: the checksum (41_checksum.md), the
header condition (42_framing.md R133) and the codes of the diagnostic events (60_exceptions.md R205). -/

namespace Sys2Proof.Machine

/-- `xor(s)`: the exclusive-or fold, 0 for the empty sequence (41_checksum.md R120). -/
def xorFold (s : List Byte) : Byte := s.foldl (· ^^^ ·) 0#8

/-- `hdr_ok(a, l)`, over the natural numbers (42_framing.md R133, 20_memory.md R44). -/
def hdrOk (P : Params) (a l : Byte) : Bool :=
  decide (a.toNat < P.mapSize) && decide (a.toNat + l.toNat ≤ P.mapSize) && decide (l.toNat ≤ maxPayload)

/-- The name of a failed header of a known command: by `LEN` alone (60_exceptions.md R203, R209). -/
def headerError (l : Byte) : Diag := if maxPayload < l.toNat then .lengthTooLarge else .outOfRange

/-- `diag_code` (60_exceptions.md R205). -/
def Diag.code : Diag → BitVec 3
  | .outOfRange => 1#3
  | .checksumMismatch => 2#3
  | .lengthTooLarge => 3#3
  | .unknownCommand => 4#3
  | .incompleteFrame => 5#3

end Sys2Proof.Machine
end

