-- ==== Sys2Proof/Machine/Operands.lean ====
section
/-! DEFINITION. Operand forms: byte lanes of the consumer port (10_state.md R30), little-endian fields (20_memory.md R43), the
bytes of the response frames (30_encoding.md R73 to R75) and the signals computed from the state (10_state.md R28, R29). -/

namespace Sys2Proof.Machine

/-- Byte `k` of a list in bits `[8k+7 : 8k]`, every other bit 0 (10_state.md R30, 45_consumer_port.md R181). -/
def packLanes : List Byte → Lanes
  | [] => 0#128
  | b :: bs => b.setWidth 128 ||| (packLanes bs <<< 8)

/-- Byte `k` of a lane word (10_state.md R30). -/
def laneByte (w : Lanes) (k : Nat) : Byte := w.extractLsb' (8 * k) 8

/-- The low `n` bytes of a lane word; the bits above are ignored (45_consumer_port.md R180, R182). -/
def unpackLanes (w : Lanes) (n : Nat) : List Byte := (List.range n).map (laneByte w)

/-- A 16-bit value as bytes at ascending addresses (20_memory.md R43). -/
def bytes16 (v : BitVec 16) : List Byte := [v.extractLsb' 0 8, v.extractLsb' 8 8]

/-- A 32-bit value as bytes at ascending addresses (20_memory.md R43). -/
def bytes32 (v : BitVec 32) : List Byte :=
  [v.extractLsb' 0 8, v.extractLsb' 8 8, v.extractLsb' 16 8, v.extractLsb' 24 8]

/-- A 16-bit value from its bytes, least significant first (20_memory.md R43). -/
def value16 (b0 b1 : Byte) : BitVec 16 := b1 ++ b0

/-- A 32-bit value from its bytes, least significant first (20_memory.md R43). -/
def value32 (b0 b1 b2 b3 : Byte) : BitVec 32 := b3 ++ b2 ++ b1 ++ b0

/-- Format RDRESP (30_encoding.md R73, 42_framing.md R140). -/
def dataFrame (a l : Byte) (d : List Byte) : List Byte := [a, l] ++ d ++ [a ^^^ l ^^^ xorFold d]

/-- Format WRACK (30_encoding.md R74, 42_framing.md R140). -/
def ackFrame (a : Byte) : List Byte := [a, statusOk, a ^^^ statusOk]

/-- Format WRNACK (30_encoding.md R75, 42_framing.md R140). -/
def nackFrame (a : Byte) : List Byte := [a, statusCsumFail, a ^^^ statusCsumFail]

/-- The payload bytes `buf[0 .. len)` (10_state.md R19). -/
def State.payload (s : State) : List Byte := s.buf.toList.take s.len.toNat

/-- `resp`: the response frame `rkind` selects (42_framing.md R140). -/
def State.respFrame (s : State) : List Byte :=
  match s.rkind with
  | .data => dataFrame s.addr s.len s.payload
  | .ack => ackFrame s.addr
  | .nack => nackFrame s.addr

/-- `rx_ready` (10_state.md R28, 42_framing.md R130, R139). -/
def State.rxReady (s : State) : Bool :=
  match s.st with
  | .hdr | .rdCsum | .wrPayload | .wrCsum | .skip => true
  | .commitRd | .commitWr | .resp => false

/-- `rx_valid`: a byte waits at the RX port (10_state.md R28). -/
def State.rxValid (s : State) : Bool := !s.rx.isEmpty

/-- `tx_valid` (10_state.md R29). -/
def State.txValid (s : State) : Bool := decide (s.st = .resp)

/-- `tx_data`, when `tx_valid` (10_state.md R29). None stands for an index past the frame, which no run reaches (log 12). -/
def State.txData (s : State) : Option Byte := s.respFrame[s.ridx.toNat]?

/-- The engine holds no byte of a frame: `st = HDR` and `cnt = 0` (10_state.md R24). -/
def State.atBoundary (s : State) : Bool := decide (s.st = .hdr) && decide (s.cnt = 0#5)

/-- Port `i` may access the map (20_memory.md R53, 45_consumer_port.md R181). -/
def State.mayAccess (s : State) (i : Nat) : Bool := decide (s.owner = .free) || decide (s.owner = .cons i)

/-- `c_lock[i]`, 0 where there is no port `i` (45_consumer_port.md R186). -/
def State.lockLine (s : State) (i : Nat) : Bool :=
  match s.ports[i]? with
  | some p => p.sig.lock
  | none => false

end Sys2Proof.Machine
end

