-- ==== Sys2Proof/Machine/Ops.lean ====
section
/-! DEFINITION. The named operations over the register map (20_memory.md, 40_register_map_accessors.md) and over the engine's
registers, among them recording an error and resuming after it (60_exceptions.md R211, R212), the block's counterpart of
taking an exception and returning from one. -/

namespace Sys2Proof.Machine

/-! ### The register map -/

/-- Read one cell; an unlisted address reads 0x00, the reset value of every cell (10_state.md R11; log 18). -/
def Memory.read : Memory → Nat → Byte
  | [], _ => 0#8
  | (k, v) :: m, a => if a = k then v else Memory.read m a

/-- Write one cell, keeping the list in its canonical form: addresses rising, no cell of value 0x00. -/
def Memory.write : Memory → Nat → Byte → Memory
  | [], a, b => if b = 0#8 then [] else [(a, b)]
  | (k, v) :: m, a, b =>
    if a < k then (if b = 0#8 then (k, v) :: m else (a, b) :: (k, v) :: m)
    else if a = k then (if b = 0#8 then m else (a, b) :: m)
    else (k, v) :: Memory.write m a b

/-- The bytes of `map[a .. a+n)` (00_scope.md R9). -/
def Memory.readList (m : Memory) : Nat → Nat → List Byte
  | _, 0 => []
  | a, n + 1 => Memory.read m a :: Memory.readList m (a + 1) n

/-- The map with a byte sequence at ascending addresses from `a` (00_scope.md R9 `MemWrite`). -/
def Memory.writeList (m : Memory) : Nat → List Byte → Memory
  | _, [] => m
  | a, b :: bs => Memory.writeList (Memory.write m a b) (a + 1) bs

/-- Every address of the list is at least `lo`, addresses strictly rise and no value is 0x00. -/
def Memory.canonicalFrom : Nat → Memory → Bool
  | _, [] => true
  | lo, (k, v) :: m => decide (lo ≤ k) && decide (v ≠ 0#8) && Memory.canonicalFrom (k + 1) m

/-- The canonical form of a map, with every cell below `MAP_SIZE` (10_state.md R10; log 18). -/
def Memory.wf (P : Params) (m : Memory) : Bool :=
  Memory.canonicalFrom 0 m && m.all (fun c => decide (c.1 < P.mapSize))

/-! ### The accessors (40_register_map_accessors.md) -/

/-- What an accessor returns: a result, or `OutOfRange` with nothing touched (R107). -/
inductive Access (α : Type) where
  | ok (v : α)
  | outOfRange
deriving DecidableEq, Repr

/-- `read_bytes(addr, len)` (R100). -/
def readBytes (P : Params) (m : Memory) (a n : Nat) : Access (List Byte) :=
  if P.mapSize < a + n then .outOfRange else .ok (Memory.readList m a n)

/-- `write_bytes(addr, len, data)`, answering the new map (R101). -/
def writeBytes (P : Params) (m : Memory) (a n : Nat) (d : List Byte) : Access (Memory) :=
  if P.mapSize < a + n then .outOfRange else .ok (Memory.writeList m a (d.take n))

/-- `read_u16(addr)` (R102). -/
def readU16 (P : Params) (m : Memory) (a : Nat) : Access (BitVec 16) :=
  match readBytes P m a 2 with
  | .ok b => .ok (value16 (b.getD 0 0#8) (b.getD 1 0#8))
  | .outOfRange => .outOfRange

/-- `read_u32(addr)` (R103). -/
def readU32 (P : Params) (m : Memory) (a : Nat) : Access (BitVec 32) :=
  match readBytes P m a 4 with
  | .ok b => .ok (value32 (b.getD 0 0#8) (b.getD 1 0#8) (b.getD 2 0#8) (b.getD 3 0#8))
  | .outOfRange => .outOfRange

/-- `write_u16(addr, v)` (R104). -/
def writeU16 (P : Params) (m : Memory) (a : Nat) (v : BitVec 16) : Access (Memory) :=
  writeBytes P m a 2 (bytes16 v)

/-- `write_u32(addr, v)` (R105). -/
def writeU32 (P : Params) (m : Memory) (a : Nat) (v : BitVec 32) : Access (Memory) :=
  writeBytes P m a 4 (bytes32 v)

/-! ### The engine's registers -/

/-- Replace the register map. -/
def State.withMap (s : State) (m : Memory) : State := { s with map := m }

/-- `st <- ph` (00_scope.md R9). -/
def State.goto (s : State) (ph : Phase) : State := { s with st := ph }

/-- `st <- HDR; cnt <- 0`: ready for a command byte. This is how the engine resumes after an error (60_exceptions.md R212),
after a response (42_framing.md R141) and at a link reset (R144). -/
def State.toHeader (s : State) : State := { s with st := .hdr, cnt := 0#5 }

/-- `st <- SKIP; cnt <- n`: discard the next `n` bytes (42_framing.md R135, R136). -/
def State.skipBytes (s : State) (n : Nat) : State := { s with st := .skip, cnt := BitVec.ofNat 5 n }

/-- `diag(code)`: record an error as a diagnostic event, which changes nothing else (00_scope.md R9 `raise`, 60_exceptions.md
R205, R211). The error's stated action is the engine operation it is combined with: `toHeader`, `skipBytes` or `emit .nack`. -/
def State.raise (s : State) (d : Diag) : State := { s with diags := s.diags ++ [d] }

/-- `emit(kind)`: make a response pending (42_framing.md R140). -/
def State.emit (s : State) (k : RKind) : State := { s with rkind := k, ridx := 0#5, st := .resp }

/-- `buf[k .. k + len d) <- d`, the other cells kept. -/
def bufWrite (v : Vector Byte 16) : Nat → List Byte → Vector Byte 16
  | _, [] => v
  | k, b :: bs => bufWrite (v.setIfInBounds k b) (k + 1) bs

/-- The snapshot of a READ commit: `buf[0 .. len d) <- d` (43_read_command.md R162). -/
def State.loadBuf (s : State) (d : List Byte) : State := { s with buf := bufWrite s.buf 0 d }

/-- Every register and cell at its reset value; what is outside the block stays: bytes not yet taken, the ports' inputs, what
was observed, and the agenda (70_reset_and_hazards.md R240, R244; log 14). -/
def State.resetBlock (s : State) : State :=
  { s with
    map := [], st := .hdr, cmd := 0#8, addr := 0#8, len := 0#8, cnt := 0#5, acc := 0#8,
    buf := Vector.replicate 16 0#8, rkind := .ack, ridx := 0#5, owner := .free }

end Sys2Proof.Machine
end

