-- ==== Sys2Proof/Machine/Framing.lean ====
section
/-! DEFINITION. Framing: reception of header bytes, the header decision, skipping, unknown commands, emission of responses,
link reset (42_framing.md). -/

namespace Sys2Proof.Machine

/-- First header byte (R131). -/
def takeCommand (b : Byte) (s : State) : State := { s with cmd := b, acc := b, cnt := 1#5 }

/-- Second header byte (R132). -/
def takeAddress (b : Byte) (s : State) : State := { s with addr := b, acc := s.acc ^^^ b, cnt := 2#5 }

/-- The registers after the third header byte (R133). -/
def takeLength (b : Byte) (s : State) : State := { s with len := b, acc := s.acc ^^^ b, cnt := 0#5 }

/-- The header decision for a READ (R134, R135). -/
def decideRead (P : Params) (a l : Byte) (s : State) : State :=
  if hdrOk P a l then s.goto .rdCsum else (s.skipBytes 1).raise (headerError l)

/-- The header decision for a WRITE (R134, R136). -/
def decideWrite (P : Params) (a l : Byte) (s : State) : State :=
  if hdrOk P a l then s.goto (if l = 0#8 then .wrCsum else .wrPayload)
  else if l.toNat ≤ maxPayload then (s.skipBytes (l.toNat + 1)).raise .outOfRange
  else s.toHeader.raise .lengthTooLarge

/-- The header decision for an unknown command (R138). -/
def decideUnknownCommand (s : State) : State := s.toHeader.raise .unknownCommand

/-- Third header byte with the header decision (R133 to R138): the command is classified first (R209). -/
def takeLengthAndDecide (P : Params) (b : Byte) (s : State) : State :=
  let t := takeLength b s
  if s.cmd = cmdRead then decideRead P s.addr b t
  else if s.cmd = cmdWrite then decideWrite P s.addr b t
  else decideUnknownCommand t

/-- A header byte, by the number already held. A count above 2, which no run reaches, takes nothing (log 12). -/
def rxHeader (P : Params) (b : Byte) (s : State) : State :=
  if s.cnt = 0#5 then takeCommand b s
  else if s.cnt = 1#5 then takeAddress b s
  else if s.cnt = 2#5 then takeLengthAndDecide P b s
  else s

/-- A discarded byte (R137). -/
def rxSkip (s : State) : State := if s.cnt = 1#5 then s.toHeader else { s with cnt := s.cnt - 1#5 }

/-- `TxByte`: the host receiver takes the next response byte (R141); not enabled outside `RESP`. -/
def txByte (s : State) : State :=
  if s.st = .resp then
    let t := { s with tx := s.tx ++ s.txData.toList }
    if s.ridx.toNat + 1 = s.respFrame.length then t.toHeader else { t with ridx := s.ridx + 1#5 }
  else s

/-- `n` times `TxByte`. -/
def txBytes : Nat → State → State
  | 0, s => s
  | n + 1, s => txBytes n (txByte s)

/-- `LinkReset` (R144). -/
def linkReset (s : State) : State :=
  if s.atBoundary then s else s.toHeader.raise .incompleteFrame

end Sys2Proof.Machine
end

