-- ==== Sys2Proof/Machine/ReadCommand.lean ====
section
/-! DEFINITION. The engine's steps of the READ command (43_read_command.md). -/

namespace Sys2Proof.Machine

/-- The checksum byte of a READ (R161): a mismatch drops the transaction silently. -/
def rxReadChecksum (b : Byte) (s : State) : State :=
  if b = s.acc then s.goto .commitRd else s.toHeader.raise .checksumMismatch

/-- `Commit` in `COMMIT_RD` (R162): snapshot the bytes, then a DATA response. A range violation cannot happen here in any
reachable state (R107); elsewhere the buffer is left as it is (log 12). -/
def commitRead (P : Params) (s : State) : State :=
  match readBytes P s.map s.addr.toNat s.len.toNat with
  | .ok d => (s.loadBuf d).emit .data
  | .outOfRange => s.emit .data

end Sys2Proof.Machine
end

