-- ==== Sys2Proof/Machine/WriteCommand.lean ====
section
/-! DEFINITION. The engine's steps of the WRITE command (44_write_command.md). -/

namespace Sys2Proof.Machine

/-- A payload byte (R171): into the buffer, not the map. -/
def rxPayload (b : Byte) (s : State) : State :=
  let t := { s with buf := s.buf.setIfInBounds s.cnt.toNat b, acc := s.acc ^^^ b }
  if s.cnt.toNat + 1 = s.len.toNat then t.goto .wrCsum else { t with cnt := s.cnt + 1#5 }

/-- The checksum byte of a WRITE (R172): a mismatch answers NACK without consulting the guard. -/
def rxWriteChecksum (b : Byte) (s : State) : State :=
  if b = s.acc then s.goto .commitWr else (s.emit .nack).raise .checksumMismatch

/-- `Commit` in `COMMIT_WR` (R173): the whole payload into the map at once, then an ACK. A range violation cannot happen here
in any reachable state (R107); elsewhere the map is left as it is (log 12). -/
def commitWrite (P : Params) (s : State) : State :=
  match writeBytes P s.map s.addr.toNat s.len.toNat s.payload with
  | .ok m => (s.withMap m).emit .ack
  | .outOfRange => s.emit .ack

end Sys2Proof.Machine
end

