-- ==== Sys2Proof/Machine/Engine.lean ====
section
/-! DEFINITION. The engine's steps put together: `RxByte` by phase (42_framing.md R130), `Commit` (20_memory.md R52), and the
run of a whole frame, which the instructions of spec/opcode_table.json use (log 5). -/

namespace Sys2Proof.Machine

/-- `RxByte(b)` (R130): exactly one rule applies in each phase; in the other phases the step is not enabled (R139). -/
def rxByte (P : Params) (b : Byte) (s : State) : State :=
  match s.st with
  | .hdr => rxHeader P b s
  | .rdCsum => rxReadChecksum b s
  | .wrPayload => rxPayload b s
  | .wrCsum => rxWriteChecksum b s
  | .skip => rxSkip s
  | .commitRd => s
  | .commitWr => s
  | .resp => s

/-- `RxByte` of the byte that waits at the RX port (10_state.md R28): not enabled, and no byte lost, while `rx_ready` is 0. -/
def rxStep (P : Params) (s : State) : State :=
  match s.rx with
  | [] => s
  | b :: bs => if s.rxReady then rxByte P b { s with rx := bs } else s

/-- `Commit` (R162, R173): enabled only while the guard is free (20_memory.md R52). -/
def commit (P : Params) (s : State) : State :=
  if s.owner = .free then
    match s.st with
    | .commitRd => commitRead P s
    | .commitWr => commitWrite P s
    | .hdr | .rdCsum | .wrPayload | .wrCsum | .skip | .resp => s
  else s

/-- The engine commits if it can and the host receiver takes the whole response: at most 19 bytes (30_encoding.md R81). -/
def settle (P : Params) (s : State) : State := txBytes maxResponse (commit P s)

/-- One received byte, then whatever the engine and the host receiver can do at once. -/
def engineByte (P : Params) (s : State) (b : Byte) : State := settle P (rxByte P b s)

/-- The engine fed with a byte sequence, committing as soon as it can, the receiver always ready (the schedule of 42_framing.md
R145). -/
def feed (P : Params) (bytes : List Byte) (s : State) : State := bytes.foldl (engineByte P) s

/-- A whole request frame. It is taken only at a frame boundary; elsewhere it waits (42_framing.md R139; log 6). With the lock
held by a port it ends waiting in `COMMIT_RD` or `COMMIT_WR` (20_memory.md R52). -/
def runFrame (P : Params) (bytes : List Byte) (s : State) : State :=
  if s.atBoundary then feed P bytes s else s

/-- A whole response frame leaves on TX, when it is the one pending; otherwise the receiver waits (42_framing.md R140, R141;
log 6). -/
def deliver (k : RKind) (bytes : List Byte) (s : State) : State :=
  if s.st = .resp ∧ s.rkind = k ∧ s.respFrame = bytes then txBytes maxResponse s else s

end Sys2Proof.Machine
end

