-- ==== Sys2Proof/Machine/HostFrames.lean ====
section
/-! DEFINITION. The meanings of the request rows: READ (43_read_command.md), WRITE (44_write_command.md) and the eight rows of
unknown commands (42_framing.md R138). Each is the run of its frame's bytes through the engine's steps: all header checks,
skips, checksum outcomes, the commit and the response come from those steps. -/

namespace Sys2Proof.Machine

/-- READ (R160 to R165). -/
def execRead (addr len csum : Byte) (s : State) : Host.Outcome State Fault Refusal :=
  .next (runFrame Config.params [cmdRead, addr, len, csum] s)

/-- WRITE (R170 to R176). -/
def execWrite (addr len : Byte) (tail : WriteTail) (s : State) : Host.Outcome State Fault Refusal :=
  .next (runFrame Config.params ([cmdWrite, addr, len] ++ tail.bytes) s)

/-- UNKNOWN(0x00) (R138). -/
def execUnknown00 (addr len : Byte) (s : State) : Host.Outcome State Fault Refusal :=
  .next (runFrame Config.params [0x00#8, addr, len] s)

/-- UNKNOWN(0x03) (R138). -/
def execUnknown03 (addr len : Byte) (s : State) : Host.Outcome State Fault Refusal :=
  .next (runFrame Config.params [0x03#8, addr, len] s)

/-- UNKNOWN(0x04..0x07) (R138). -/
def execUnknown04 (low : BitVec 2) (addr len : Byte) (s : State) : Host.Outcome State Fault Refusal :=
  .next (runFrame Config.params [1#6 ++ low, addr, len] s)

/-- UNKNOWN(0x08..0x0F) (R138). -/
def execUnknown08 (low : BitVec 3) (addr len : Byte) (s : State) : Host.Outcome State Fault Refusal :=
  .next (runFrame Config.params [1#5 ++ low, addr, len] s)

/-- UNKNOWN(0x10..0x1F) (R138). -/
def execUnknown10 (low : BitVec 4) (addr len : Byte) (s : State) : Host.Outcome State Fault Refusal :=
  .next (runFrame Config.params [1#4 ++ low, addr, len] s)

/-- UNKNOWN(0x20..0x3F) (R138). -/
def execUnknown20 (low : BitVec 5) (addr len : Byte) (s : State) : Host.Outcome State Fault Refusal :=
  .next (runFrame Config.params [1#3 ++ low, addr, len] s)

/-- UNKNOWN(0x40..0x7F) (R138). -/
def execUnknown40 (low : BitVec 6) (addr len : Byte) (s : State) : Host.Outcome State Fault Refusal :=
  .next (runFrame Config.params [1#2 ++ low, addr, len] s)

/-- UNKNOWN(0x80..0xFF) (R138). -/
def execUnknown80 (low : BitVec 7) (addr len : Byte) (s : State) : Host.Outcome State Fault Refusal :=
  .next (runFrame Config.params [1#1 ++ low, addr, len] s)

end Sys2Proof.Machine
end

