-- ==== Sys2Proof/Machine/Consumer.lean ====
section
/-! DEFINITION. The consumer ports' steps and the lock (45_consumer_port.md). -/

namespace Sys2Proof.Machine

/-- Port `i`'s inputs replaced; nothing where there is no port `i`. -/
def State.setPort (s : State) (i : Nat) (p : Port) : State := { s with ports := s.ports.set i p }

/-- Port `i`'s request is performed: its result is output and the request is done (10_state.md R30, `c_gnt`). -/
def State.grant (s : State) (i : Nat) (p : Port) (err : Bool) (rdata : Option Lanes) : State :=
  { s with
    ports := s.ports.set i { p with req := false }
    results := s.results ++ [⟨i, p.sig.op, err, rdata⟩] }

/-- A refused read: `c_err = 1` and `c_rdata` unspecified, a free value (R181, R183; log 9). -/
def State.refuseRead (s : State) (i : Nat) (p : Port) : State :=
  { s.grant i p true (some (Config.unspecifiedRdata s.freeCount)) with freeCount := s.freeCount + 1 }

/-- `ConsAccess(i, read)` once enabled (R181, R183). -/
def performRead (P : Params) (i : Nat) (p : Port) (s : State) : State :=
  if maxPayload < p.sig.len.toNat then s.refuseRead i p
  else
    match readBytes P s.map p.sig.addr.toNat p.sig.len.toNat with
    | .ok d => s.grant i p false (some (packLanes d))
    | .outOfRange => s.refuseRead i p

/-- `ConsAccess(i, write)` once enabled (R182, R183). -/
def performWrite (P : Params) (i : Nat) (p : Port) (s : State) : State :=
  if maxPayload < p.sig.len.toNat then s.grant i p true none
  else
    match writeBytes P s.map p.sig.addr.toNat p.sig.len.toNat (unpackLanes p.sig.wdata p.sig.len.toNat) with
    | .ok m => (s.withMap m).grant i p false none
    | .outOfRange => s.grant i p true none

/-- `ConsAccess(i, op)` (R180 to R183): enabled when port `i` presents a request and the guard is free or its own. -/
def consAccess (P : Params) (i : Nat) (s : State) : State :=
  match s.ports[i]? with
  | none => s
  | some p =>
    if p.req && s.mayAccess i then
      (if p.sig.op = 0#1 then performRead P i p s else performWrite P i p s)
    else s

/-- `ConsAcquire(i)` (R184), for an existing port. -/
def consAcquire (i : Nat) (s : State) : State :=
  if s.owner = .free ∧ i < s.ports.length then { s with owner := .cons i } else s

/-- `ConsRelease(i)` (R185). -/
def consRelease (i : Nat) (s : State) : State :=
  if s.owner = .cons i then { s with owner := .free } else s

/-- A whole transaction of port `i` as its `c_lock` line says (R186; log 8): with `c_lock = 1` the port takes the lock first if
it is free; with `c_lock = 0` a lock it holds is released at the same edge. -/
def portTransaction (P : Params) (i : Nat) (s : State) : State :=
  if s.lockLine i then consAccess P i (consAcquire i s) else consRelease i (consAccess P i s)

/-- Port `i` presents a request and keeps it until it is performed: a second one waits (R180; log 16). -/
def presentRequest (i : Nat) (r : PortReq) (s : State) : State :=
  match s.ports[i]? with
  | none => s
  | some p => if p.req then s else s.setPort i ⟨true, r⟩

/-- Port `i` drives `c_lock` (R186). -/
def driveLock (i : Nat) (b : Bool) (s : State) : State :=
  match s.ports[i]? with
  | none => s
  | some p => s.setPort i { p with sig := { p.sig with lock := b } }

end Sys2Proof.Machine
end

