-- ==== Sys2Proof/Machine/PortAccess.lean ====
section
/-! DEFINITION. The meanings of the consumer-port rows: port `i` presents the request and its transaction is performed, or
waits while another port holds the lock (45_consumer_port.md R180 to R186; log 8). -/

namespace Sys2Proof.Machine

/-- The request as port `i` presents it; `wdata` keeps its value under a read, which ignores it (R180). DESIGN CHOICE (log 16):
at a port that already presents a different request, which R180 forbids, the instruction's request takes its place. `step`
never does this: it gives `exec` the presented request itself. -/
def State.presentAs (s : State) (i : Nat) (f : PortReq → PortReq) : State :=
  match s.ports[i]? with
  | none => s
  | some p => s.setPort i ⟨true, f p.sig⟩

/-- CONS_READ (R181, R183). -/
def execConsRead (port : Nat) (addr : Byte) (len : BitVec 5) (lock : Bool) (s : State) :
    Host.Outcome State Fault Refusal :=
  .next (portTransaction Config.params port
    (s.presentAs port fun r => { r with op := 0#1, addr := addr, len := len, lock := lock }))

/-- CONS_WRITE (R182, R183). -/
def execConsWrite (port : Nat) (addr : Byte) (len : BitVec 5) (wdata : Lanes) (lock : Bool) (s : State) :
    Host.Outcome State Fault Refusal :=
  .next (portTransaction Config.params port (s.presentAs port fun _ => ⟨1#1, addr, len, wdata, lock⟩))

end Sys2Proof.Machine
end

