-- ==== Sys2Proof/Machine/Responses.lean ====
section
/-! DEFINITION. The meanings of the response rows: the frame that is pending leaves on TX, byte by byte, and the engine returns
to `HDR` (42_framing.md R140, R141; 43_read_command.md R163; 44_write_command.md R174). -/

namespace Sys2Proof.Machine

/-- DATA (R163). -/
def execData (addr len : Byte) (payload : List Byte) (csum : Byte) (s : State) : Host.Outcome State Fault Refusal :=
  .next (deliver .data ([addr, len] ++ payload ++ [csum]) s)

/-- ACK (R174). -/
def execAck (addr csum : Byte) (s : State) : Host.Outcome State Fault Refusal :=
  .next (deliver .ack [addr, statusOk, csum] s)

/-- NACK (R172, R174). -/
def execNack (addr csum : Byte) (s : State) : Host.Outcome State Fault Refusal :=
  .next (deliver .nack [addr, statusCsumFail, csum] s)

end Sys2Proof.Machine
end

