-- ==== Sys2Proof/Machine/Dispatch.lean ====
section
/-! DEFINITION. One arm per row of spec/opcode_table.json. -/

namespace Sys2Proof.Machine

def exec (i : Instr) (s : State) : Host.Outcome State Fault Refusal :=
  match i with
  | .read addr len csum => Sys2Proof.Machine.execRead addr len csum s
  | .write addr len tail => Sys2Proof.Machine.execWrite addr len tail s
  | .unknown00 addr len => Sys2Proof.Machine.execUnknown00 addr len s
  | .unknown03 addr len => Sys2Proof.Machine.execUnknown03 addr len s
  | .unknown04 low addr len => Sys2Proof.Machine.execUnknown04 low addr len s
  | .unknown08 low addr len => Sys2Proof.Machine.execUnknown08 low addr len s
  | .unknown10 low addr len => Sys2Proof.Machine.execUnknown10 low addr len s
  | .unknown20 low addr len => Sys2Proof.Machine.execUnknown20 low addr len s
  | .unknown40 low addr len => Sys2Proof.Machine.execUnknown40 low addr len s
  | .unknown80 low addr len => Sys2Proof.Machine.execUnknown80 low addr len s
  | .data addr len payload csum => Sys2Proof.Machine.execData addr len payload csum s
  | .ack addr csum => Sys2Proof.Machine.execAck addr csum s
  | .nack addr csum => Sys2Proof.Machine.execNack addr csum s
  | .consRead port addr len lock => Sys2Proof.Machine.execConsRead port addr len lock s
  | .consWrite port addr len wdata lock => Sys2Proof.Machine.execConsWrite port addr len wdata lock s

end Sys2Proof.Machine
end

