-- ==== Sys2Proof/Decode.lean ====
section
/-! DEFINITION. The decoder, total on any bytes and refusing by name; the encoder; the table's numbering of words
(30_encoding.md). Requests, responses and port operations travel on three separate channels (R80): a frame carries nothing
that tells its channel, and a response nothing that tells its kind (R82), so the channel is part of the encoding. -/

namespace Sys2Proof

/-- An encoded instruction, with the channel it travels on. -/
inductive Encoded where
  /-- Bytes on RX. -/
  | request (bytes : List Byte)
  /-- Bytes on TX, at a position where a response of this kind is due (R82). -/
  | response (kind : RKind) (bytes : List Byte)
  /-- A request presented at a consumer port (R83). -/
  | port (i : Nat) (req : PortReq)
deriving DecidableEq, Repr

/-- Why bytes are not an instruction. -/
inductive DecodeError where
  /-- Fewer bytes than the frame needs (the condition `IncompleteFrame`, R206). -/
  | incomplete
  /-- A response whose LEN exceeds 16: never emitted (R73). -/
  | responseTooLong
  /-- A STATUS byte other than the kind's (R76). -/
  | badStatus
deriving DecidableEq, Repr

/-- What the decoder answers: an instruction with the bytes left over, or a named error. -/
inductive Decoded where
  | ok (i : Instr) (rest : List Byte)
  | error (e : DecodeError)
deriving DecidableEq, Repr

/-- The row of the opcode table an unknown command byte falls under (30_encoding.md R80: eight rows that, with READ and
WRITE, partition the 256 values). The last arm is reached for 0x01 and 0x02 never: the decoder takes those before. -/
def decodeUnknown (c addr len : Byte) : Instr :=
  if c = 0x00#8 then .unknown00 addr len
  else if c = 0x03#8 then .unknown03 addr len
  else if c.extractLsb' 2 6 = 1#6 then .unknown04 (c.extractLsb' 0 2) addr len
  else if c.extractLsb' 3 5 = 1#5 then .unknown08 (c.extractLsb' 0 3) addr len
  else if c.extractLsb' 4 4 = 1#4 then .unknown10 (c.extractLsb' 0 4) addr len
  else if c.extractLsb' 5 3 = 1#3 then .unknown20 (c.extractLsb' 0 5) addr len
  else if c.extractLsb' 6 2 = 1#2 then .unknown40 (c.extractLsb' 0 6) addr len
  else .unknown80 (c.extractLsb' 0 7) addr len

/-- The request frame at the head of a byte stream (30_encoding.md R71, R72, R80, R81). -/
def decodeRequest : List Byte → Decoded
  | c :: a :: l :: t =>
    if c = cmdRead then
      match t with
      | k :: rest => .ok (.read a l k) rest
      | [] => .error .incomplete
    else if c = cmdWrite then
      if maxPayload < l.toNat then .ok (.write a l .overLength) t
      else
        match t.drop l.toNat with
        | k :: rest => .ok (.write a l (.complete (t.take l.toNat) k)) rest
        | [] => .error .incomplete
    else .ok (decodeUnknown c a l) t
  | _ => .error .incomplete

/-- A response frame of a known kind (30_encoding.md R73 to R76). -/
def decodeResponse : RKind → List Byte → Decoded
  | .data, a :: l :: t =>
    if maxPayload < l.toNat then .error .responseTooLong
    else
      match t.drop l.toNat with
      | k :: rest => .ok (.data a l (t.take l.toNat) k) rest
      | [] => .error .incomplete
  | .ack, a :: st :: k :: rest => if st = statusOk then .ok (.ack a k) rest else .error .badStatus
  | .nack, a :: st :: k :: rest => if st = statusCsumFail then .ok (.nack a k) rest else .error .badStatus
  | _, _ => .error .incomplete

/-- A port request (30_encoding.md R83): `c_op = 0` reads, `c_op = 1` writes. -/
def decodePort (i : Nat) (r : PortReq) : Instr :=
  if r.op = 0#1 then .consRead i r.addr r.len r.lock else .consWrite i r.addr r.len r.wdata r.lock

/-- The decoder: total. -/
def decode : Encoded → Decoded
  | .request bs => decodeRequest bs
  | .response k bs => decodeResponse k bs
  | .port i r => .ok (decodePort i r) []

/-- The encoder, written from the formats of 30_encoding.md R71 to R75 and R83. -/
def encode : Instr → Encoded
  | .read a l k => .request [cmdRead, a, l, k]
  | .write a l tail => .request ([cmdWrite, a, l] ++ tail.bytes)
  | .unknown00 a l => .request [0x00#8, a, l]
  | .unknown03 a l => .request [0x03#8, a, l]
  | .unknown04 low a l => .request [1#6 ++ low, a, l]
  | .unknown08 low a l => .request [1#5 ++ low, a, l]
  | .unknown10 low a l => .request [1#4 ++ low, a, l]
  | .unknown20 low a l => .request [1#3 ++ low, a, l]
  | .unknown40 low a l => .request [1#2 ++ low, a, l]
  | .unknown80 low a l => .request [1#1 ++ low, a, l]
  | .data a l payload k => .response .data ([a, l] ++ payload ++ [k])
  | .ack a k => .response .ack [a, statusOk, k]
  | .nack a k => .response .nack [a, statusCsumFail, k]
  | .consRead i a n lock => .port i ⟨0#1, a, n, 0#128, lock⟩
  | .consWrite i a n w lock => .port i ⟨1#1, a, n, w, lock⟩

/-- The bytes of an encoded instruction; none for a port request, which is no frame. -/
def Encoded.bytes : Encoded → List Byte
  | .request bs => bs
  | .response _ bs => bs
  | .port _ _ => []

/-- The first `n` bytes of a number, bit 0 the least significant bit of the first byte. -/
def bytesLE : Nat → Nat → List Byte
  | 0, _ => []
  | n + 1, w => BitVec.ofNat 8 w :: bytesLE n (w / 256)

/-- The longest instruction, a 20-byte WRITE request (30_encoding.md R81). -/
def maxFrame : Nat := 20

/-- The bits of a table word as the hardware lays them out, on the channel of the row that has `nbits` bits in
spec/opcode_table.json (log 10). Request rows have 8 bits, and bit 0 is the least significant bit of the first byte. The
response rows are numbered by the table with byte 0 most significant: DATA has 16 bits (ADDR 15..8, LEN 7..0), ACK and NACK
24 (ADDR 23..16, STATUS 15..8, CHECKSUM 7..0). Fewer than 8 bits is a port operation: bit 0 is `c_op`. -/
def tableEncoding (nbits w : Nat) : Encoded :=
  if nbits < 8 then .port 0 ⟨BitVec.ofNat 1 w, 0#8, 0#5, 0#128, false⟩
  else if nbits = 16 then .response .data ([BitVec.ofNat 8 (w / 256), BitVec.ofNat 8 w] ++ List.replicate 17 0#8)
  else if nbits = 24 then
    .response (if BitVec.ofNat 8 (w / 256) = statusOk then .ack else .nack)
      [BitVec.ofNat 8 (w / 65536), BitVec.ofNat 8 (w / 256), BitVec.ofNat 8 w]
  else .request (bytesLE maxFrame w)

/-- The instruction the decoder reads from a table word. -/
def decodeTableWord (nbits w : Nat) : Option Instr :=
  match decode (tableEncoding nbits w) with
  | .ok i _ => some i
  | .error _ => none

/-! The frame notation of 30_encoding.md R84 and R85, as instructions with the right checksum. -/

/-- `RD a, n`. -/
def asmRead (a n : Byte) : Instr := .read a n (cmdRead ^^^ a ^^^ n)

/-- `WR a, [d0, ...]`, for at most 16 data bytes. -/
def asmWrite (a : Byte) (d : List Byte) : Instr :=
  .write a (BitVec.ofNat 8 d.length)
    (.complete d (d.foldl (· ^^^ ·) (cmdWrite ^^^ a ^^^ BitVec.ofNat 8 d.length)))

/-- `WR16 a, v`. -/
def asmWrite16 (a : Byte) (v : BitVec 16) : Instr := asmWrite a [v.extractLsb' 0 8, v.extractLsb' 8 8]

/-- `WR32 a, v`. -/
def asmWrite32 (a : Byte) (v : BitVec 32) : Instr :=
  asmWrite a [v.extractLsb' 0 8, v.extractLsb' 8 8, v.extractLsb' 16 8, v.extractLsb' 24 8]

end Sys2Proof
end

