-- ==== Sys2Proof/Machine/Agents.lean ====
section
/-! DEFINITION. The agents' steps by name (00_scope.md R4), and a clock edge with several inputs active as the steps it
amounts to (60_exceptions.md R210). A step that is not enabled does not happen (R9): the state stays as it is. -/

namespace Sys2Proof.Machine

/-- One step of one agent. -/
def performStep (P : Params) (s : State) : AgentStep → State
  | .rxByte => rxStep P s
  | .commit => commit P s
  | .txByte => txByte s
  | .consAccess i => consAccess P i s
  | .consAcquire i => consAcquire i s
  | .consRelease i => consRelease i s
  | .reset => s.resetBlock
  | .linkReset => linkReset s

/-- Steps one after another. -/
def performSteps (P : Params) (steps : List AgentStep) (s : State) : State := steps.foldl (performStep P) s

/-- The engine's part of a clock edge, from the state before it: `link_rst` wins over the engine's own steps (R210). -/
def edgeEngineSteps (p : Pins) (s : State) : List AgentStep :=
  if p.linkRst then [.linkReset]
  else
    match s.st with
    | .commitRd | .commitWr => if p.grant = some .engine then [.commit] else []
    | .resp => if p.txReady then [.txByte] else []
    | .hdr | .rdCsum | .wrPayload | .wrCsum | .skip => if p.rxValid then [.rxByte] else []

/-- The guard's part of a clock edge: at most one port is picked; it takes the lock first if it asks for it and the lock is
free (R186, R210). -/
def edgePortSteps (p : Pins) (s : State) : List AgentStep :=
  match p.grant with
  | some (.port i) =>
    if s.lockLine i && decide (s.owner = .free) then [.consAcquire i, .consAccess i] else [.consAccess i]
  | _ => []

/-- The release at a clock edge: the owner's `c_lock` is 0 (R186). -/
def edgeReleaseSteps (s : State) : List AgentStep :=
  match s.owner with
  | .cons i => if s.lockLine i then [] else [.consRelease i]
  | .free => []

/-- The steps that happen at one rising clock edge; `rst` wins over everything (60_exceptions.md R210, 70_reset_and_hazards.md
R243; log 17). -/
def edgeSteps (p : Pins) (s : State) : List AgentStep :=
  if p.rst then [.reset] else edgeEngineSteps p s ++ edgePortSteps p s ++ edgeReleaseSteps s

/-- One rising clock edge. -/
def clockEdge (P : Params) (p : Pins) (s : State) : State := performSteps P (edgeSteps p s) s

end Sys2Proof.Machine
end

