-- ==== Sys2Proof/Machine/Fetch.lean ====
section
/-! DEFINITION. Fetching: which whole instruction is next for the engine or for a port, and placing one there (log 10, 11). -/

namespace Sys2Proof.Machine

/-- The engine's next whole instruction, with the state from which it runs. At a frame boundary it is the request frame at the
head of the RX stream, whose bytes are then taken (10_state.md R23); in `RESP` it is the pending response (42_framing.md R140). -/
def engineFetch (s : State) : Option (Instr × State) :=
  if s.atBoundary then
    match decode (.request s.rx) with
    | .ok i rest => some (i, { s with rx := rest })
    | .error _ => none
  else if s.st = .resp then
    match decode (.response s.rkind s.respFrame) with
    | .ok i _ => some (i, s)
    | .error _ => none
  else none

/-- With no whole instruction to run, the engine goes on as far as it can: it takes one byte if one waits (42_framing.md R143),
commits if the guard is free, and otherwise waits. -/
def engineAdvance (P : Params) (s : State) : State := settle P (rxStep P s)

/-- Port `i`'s presented request as an instruction (30_encoding.md R83). -/
def portFetch (i : Nat) (s : State) : Option Instr :=
  match s.ports[i]? with
  | some p => if p.req then some (decodePort i p.sig) else none
  | none => none

/-- The turn of agent number `k`: 0 is the engine, `i + 1` is port `i`, and the numbers repeat (log 1). -/
def turnEvent (nPorts k : Nat) : Event :=
  match k % (nPorts + 1) with
  | 0 => .engine
  | i + 1 => .port i

/-- The number of the agent whose turn it is: the free one, or, with no free turn left, the next in rotation (log 1). -/
def Turns.agent (t : Turns) : Nat := if t.slack = 0 then t.round else Config.freeTurn t.draws

/-- The turns after this one. -/
def Turns.pass (t : Turns) : Turns :=
  if t.slack = 0 then ⟨t.round + 1, Config.freeGap t.round, t.draws⟩ else ⟨t.round, t.slack - 1, t.draws + 1⟩

/-- What the agenda says happens next; where it says nothing, a turn of the engine or of a port, in any weakly fair order
(20_memory.md R56; log 1, 5). -/
def State.nextEvent (s : State) : Event :=
  match s.agenda with
  | e :: _ => e
  | [] => turnEvent s.ports.length s.turns.agent

/-- The state with the next event taken off the agenda, or the turn passed on. -/
def State.popEvent (s : State) : State :=
  match s.agenda with
  | _ :: rest => { s with agenda := rest }
  | [] => { s with turns := s.turns.pass }

/-- The host sends bytes: they queue behind those not yet taken, in order (10_state.md R28). -/
def hostSend (bytes : List Byte) (s : State) : State := { s with rx := s.rx ++ bytes }

/-- The bytes of the whole instruction at the head of a byte list; all of them where there is none. -/
def instrBytes (bytes : List Byte) : List Byte :=
  match decode (.request bytes) with
  | .ok _ rest => bytes.take (bytes.length - rest.length)
  | .error _ => bytes

/-- Put a request at position `i` of a list of ports, with idle ports before it where there are none. -/
def placePort (p : Port) : Nat → List Port → List Port
  | 0, ps => p :: ps.tail
  | n + 1, ps => ps.headD Port.idle :: placePort p n ps.tail

/-- Place an encoded instruction where the next step fetches it (log 11). A request: its bytes at the head of the RX stream,
the engine at a frame boundary. A response: pending in the engine's registers. A port request: presented at the port. -/
def placeEncoded (e : Encoded) (s : State) : State :=
  match e with
  | .request bytes =>
    { s with rx := instrBytes bytes ++ s.rx, st := .hdr, cnt := 0#5, agenda := .engine :: s.agenda }
  | .response .data bytes =>
    { s with
      st := .resp, rkind := .data, ridx := 0#5, addr := bytes.getD 0 0#8, len := bytes.getD 1 0#8
      buf := bufWrite s.buf 0 (bytes.drop 2), agenda := .engine :: s.agenda }
  | .response k bytes =>
    { s with st := .resp, rkind := k, ridx := 0#5, addr := bytes.getD 0 0#8, agenda := .engine :: s.agenda }
  | .port i r =>
    { s with
      ports := placePort ⟨true, r⟩ i s.ports, owner := .free, agenda := .port i :: s.agenda }

end Sys2Proof.Machine
end

