-- ==== Sys2Proof/Machine/Turns.lean ====
section
/-! DEFINITION. What each event of the agenda does: the turns in which a whole instruction runs (log 5), the agents' single
steps, a clock edge, and the environment's inputs. -/

namespace Sys2Proof.Machine

/-- The engine's turn: its next whole instruction, or, where there is none, as far as it can go. -/
def engineTurn (s : State) : Host.Outcome State Fault Refusal :=
  match engineFetch s with
  | some (i, t) => exec i t
  | none => .next (engineAdvance Config.params s)

/-- Port `i`'s turn: its presented request; where it presents none, what its `c_lock` line asks for, taking the lock if it is
free or giving it back (45_consumer_port.md R186). -/
def portTurn (i : Nat) (s : State) : Host.Outcome State Fault Refusal :=
  match portFetch i s with
  | some instr => exec instr s
  | none => .next (if s.lockLine i then consAcquire i s else consRelease i s)

/-- One event. -/
def runEvent (e : Event) (s : State) : Host.Outcome State Fault Refusal :=
  match e with
  | .engine => engineTurn s
  | .port i => portTurn i s
  | .agent a => .next (performStep Config.params s a)
  | .edge p => .next (clockEdge Config.params p s)
  | .present i r => .next (presentRequest i r s)
  | .driveLock i b => .next (driveLock i b s)
  | .hostSend bytes => .next (hostSend bytes s)

end Sys2Proof.Machine
end

