-- ==== Sys2Proof/Machine/Step.lean ====
section
/-! DEFINITION. One step: the next event of the agenda; an instruction it runs is given to `exec`. -/

namespace Sys2Proof.Machine

/-- One step. With an empty agenda it is a turn of the engine or of a port, in a weakly fair order that is otherwise free
(20_memory.md R56; log 1, 5). -/
def step (s : State) : Host.Outcome State Fault Refusal := runEvent s.nextEvent s.popEvent

/-- The state with a table word placed where `step` fetches its next instruction (log 10, 11). -/
def State.withFetchWord (s : State) (nbits w : Nat) : State := placeEncoded (tableEncoding nbits w) s

end Sys2Proof.Machine
end

