-- ==== Sys2Proof/Machine/Runs.lean ====
section
/-! DEFINITION. Infinite runs of the agents, any step next, and the assumptions under which the block makes progress
(20_memory.md R56, 45_consumer_port.md R187, 70_reset_and_hazards.md R256; log 20). The block enforces none of them: they are
premises of claims that something eventually happens. -/

namespace Sys2Proof.Machine

/-- One move of a run: an agent's step (00_scope.md R4), or an input of the environment (log 16). -/
inductive Move where
  | agent (a : AgentStep)
  | present (i : Nat) (r : PortReq)
  | driveLock (i : Nat) (b : Bool)
  | hostSend (bytes : List Byte)
deriving DecidableEq, Repr

/-- The agenda event that is this move. -/
def Move.event : Move → Event
  | .agent a => .agent a
  | .present i r => .present i r
  | .driveLock i b => .driveLock i b
  | .hostSend bytes => .hostSend bytes

/-- The state after a move; a step that is not enabled passes with no effect (00_scope.md R9). -/
def Move.perform (P : Params) (s : State) : Move → State
  | .agent a => performStep P s a
  | .present i r => Sys2Proof.Machine.presentRequest i r s
  | .driveLock i b => Sys2Proof.Machine.driveLock i b s
  | .hostSend bytes => Sys2Proof.Machine.hostSend bytes s

/-- The `n`-th state of the run that a schedule makes from `s`. -/
def runAt (P : Params) (sched : Nat → Move) (s : State) : Nat → State
  | 0 => s
  | n + 1 => (sched n).perform P (runAt P sched s n)

/-- When a step is enabled: the enabling conditions of 42_framing.md R130, R141, R144, 20_memory.md R52, R53 and
70_reset_and_hazards.md R240. -/
def AgentStep.enabled (s : State) : AgentStep → Bool
  | .rxByte => s.rxReady && s.rxValid
  | .commit => decide (s.owner = .free) && (decide (s.st = .commitRd) || decide (s.st = .commitWr))
  | .txByte => decide (s.st = .resp)
  | .consAccess i =>
    match s.ports[i]? with
    | some p => p.req && s.mayAccess i
    | none => false
  | .consAcquire i => decide (s.owner = .free) && decide (i < s.ports.length)
  | .consRelease i => decide (s.owner = .cons i)
  | .reset => true
  | .linkReset => true

/-- Weak fairness towards one step: enabled from some point on forever, it is eventually taken (70_reset_and_hazards.md
R256). -/
def WeaklyFair (P : Params) (sched : Nat → Move) (s : State) (a : AgentStep) : Prop :=
  ∀ n, (∀ m, n ≤ m → a.enabled (runAt P sched s m) = true) → ∃ m, n ≤ m ∧ sched m = .agent a

/-- The assumptions of 70_reset_and_hazards.md R256. -/
structure FairRun (P : Params) (sched : Nat → Move) (s : State) : Prop where
  /-- The host transmitter eventually delivers every byte it has sent. -/
  transmitter : WeaklyFair P sched s .rxByte
  /-- The host receiver eventually takes every response byte. -/
  receiver : WeaklyFair P sched s .txByte
  /-- The guard is weakly fair to the engine. -/
  guardCommit : WeaklyFair P sched s .commit
  /-- The guard is weakly fair to every port's request. -/
  guardAccess : ∀ i, WeaklyFair P sched s (.consAccess i)
  /-- The guard is weakly fair to every port that keeps asking for a lock that stays free (45_consumer_port.md R186). -/
  guardAcquire : ∀ i n,
    (∀ m, n ≤ m → (runAt P sched s m).lockLine i = true ∧ (runAt P sched s m).owner = .free ∧
      i < (runAt P sched s m).ports.length) → ∃ m, n ≤ m ∧ sched m = .agent (.consAcquire i)
  /-- Every consumer that holds the lock releases it. -/
  release : ∀ i n, (runAt P sched s n).owner = .cons i → ∃ m, n ≤ m ∧ (runAt P sched s m).owner ≠ .cons i

/-- From move `n` on neither `Reset` nor `LinkReset` happens. -/
def NoResetFrom (sched : Nat → Move) (n : Nat) : Prop :=
  ∀ m, n ≤ m → sched m ≠ .agent .reset ∧ sched m ≠ .agent .linkReset

/-- From some point on the lock stays free. The release of each single lock does not give this: ports that take turns at
locking keep `Commit` from ever being enabled for good (log 20). -/
def LockComesToRest (P : Params) (sched : Nat → Move) (s : State) : Prop :=
  ∃ n, ∀ m, n ≤ m → (runAt P sched s m).owner = .free

end Sys2Proof.Machine
end

