-- ==== Sys2Proof/Machine/Stream.lean ====
section
/-! DEFINITION. The engine as a function of the byte stream (42_framing.md R145): a second description of the same behaviour,
written from the rule's own listing and independent of the step rules. -/

namespace Sys2Proof.Machine

/-- What `run` answers: the map afterwards, all response bytes in order, and the incomplete tail still held. -/
structure StreamResult where
  map : Memory
  out : List Byte
  rest : List Byte
deriving DecidableEq, Repr

/-- A response in front of what the rest of the stream gives. -/
def StreamResult.after (resp : List Byte) (r : StreamResult) : StreamResult := { r with out := resp ++ r.out }

/-- `run(map, s)` (R145), with a bound on the number of frames; the length of `s` is always enough. -/
def runStreamFuel (P : Params) : Nat → Memory → List Byte → StreamResult
  | 0, m, s => ⟨m, [], s⟩
  | fuel + 1, m, s =>
    match s with
    | c :: a :: l :: t =>
      if c = 0x01#8 then
        match t with
        | [] => ⟨m, [], s⟩
        | k :: t' =>
          if !hdrOk P a l then runStreamFuel P fuel m t'
          else if k ≠ c ^^^ a ^^^ l then runStreamFuel P fuel m t'
          else
            let d := Memory.readList m a.toNat l.toNat
            (runStreamFuel P fuel m t').after ([a, l] ++ d ++ [a ^^^ l ^^^ xorFold d])
      else if c = 0x02#8 then
        if 16 < l.toNat then runStreamFuel P fuel m t
        else if t.length < l.toNat + 1 then ⟨m, [], s⟩
        else
          let p := t.take l.toNat
          let k := t.getD l.toNat 0#8
          let t' := t.drop (l.toNat + 1)
          if !hdrOk P a l then runStreamFuel P fuel m t'
          else if k ≠ c ^^^ a ^^^ l ^^^ xorFold p then (runStreamFuel P fuel m t').after [a, 0xFF#8, a ^^^ 0xFF#8]
          else (runStreamFuel P fuel (Memory.writeList m a.toNat p) t').after [a, 0x00#8, a]
      else runStreamFuel P fuel m t
    | _ => ⟨m, [], s⟩

/-- `run(map, s)` (R145). -/
def runStream (P : Params) (m : Memory) (s : List Byte) : StreamResult := runStreamFuel P s.length m s

end Sys2Proof.Machine
end

