-- ==== Sys2Proof/Safety.lean ====
section
/-! DEFINITION. What a well-formed state is (10_state.md R21, with the map's form and the guard's range) and what a run that
never stops is (60_exceptions.md R207). -/

namespace Sys2Proof.Machine

/-- The engine's invariant in each phase, the table of 10_state.md R21. In `HDR` with `cnt = 0` the accumulator is dead and
nothing is said of it (log 15). -/
def State.PhaseInv (P : Params) (s : State) : Prop :=
  match s.st with
  | .hdr => s.cnt.toNat ≤ 2 ∧ (s.cnt = 1#5 → s.acc = s.cmd) ∧ (s.cnt = 2#5 → s.acc = s.cmd ^^^ s.addr)
  | .rdCsum => s.cmd = cmdRead ∧ hdrOk P s.addr s.len = true ∧ s.acc = s.cmd ^^^ s.addr ^^^ s.len
  | .wrPayload =>
    s.cmd = cmdWrite ∧ hdrOk P s.addr s.len = true ∧ 1 ≤ s.len.toNat ∧ s.cnt.toNat < s.len.toNat ∧
      s.acc = s.cmd ^^^ s.addr ^^^ s.len ^^^ xorFold (s.buf.toList.take s.cnt.toNat)
  | .wrCsum =>
    s.cmd = cmdWrite ∧ hdrOk P s.addr s.len = true ∧ s.acc = s.cmd ^^^ s.addr ^^^ s.len ^^^ xorFold s.payload
  | .skip => 1 ≤ s.cnt.toNat ∧ s.cnt.toNat ≤ 17
  | .commitRd => s.cmd = cmdRead ∧ hdrOk P s.addr s.len = true
  | .commitWr =>
    s.cmd = cmdWrite ∧ hdrOk P s.addr s.len = true ∧ s.acc = s.cmd ^^^ s.addr ^^^ s.len ^^^ xorFold s.payload
  | .resp =>
    match s.rkind with
    | .data => s.cmd = cmdRead ∧ hdrOk P s.addr s.len = true ∧ s.ridx.toNat < s.len.toNat + 3
    | .ack => s.cmd = cmdWrite ∧ s.ridx.toNat < 3
    | .nack => s.cmd = cmdWrite ∧ s.ridx.toNat < 3

/-- The guard's register names an existing port or none (10_state.md R25). -/
def State.OwnerInv (P : Params) (s : State) : Prop :=
  match s.owner with
  | .free => True
  | .cons i => i < P.nCons

/-- A well-formed state: the map canonical and inside `MAP_SIZE`, the engine as R21 says, an existing lock owner, `N_CONS`
ports. -/
structure State.Inv (P : Params) (s : State) : Prop where
  map : Memory.wf P s.map = true
  phase : s.PhaseInv P
  owner : s.OwnerInv P
  ports : s.ports.length = P.nCons

/-- Who holds the lock after a whole transaction of port `i` that was not kept out (45_consumer_port.md R186; log 8). -/
def lockAfter (lock : Bool) (i : Nat) : Owner := if lock then .cons i else .free

/-- Everything an observer of the block or one of its agents can see, with the guard and the sequencing state: all of the
state but the engine's working registers (00_scope.md R4, 10_state.md R22). -/
structure Observation where
  map : Memory
  st : Phase
  owner : Owner
  rx : List Byte
  tx : List Byte
  diags : List Diag
  ports : List Port
  results : List PortResult
deriving DecidableEq, Repr

/-- The observable part of a state. -/
def State.observe (s : State) : Observation := ⟨s.map, s.st, s.owner, s.rx, s.tx, s.diags, s.ports, s.results⟩

/-- The state after `k` steps, each the next one's start; `none` if a step stops. -/
def stepsFrom : Nat → State → Option State
  | 0, s => some s
  | k + 1, s =>
    match step s with
    | .next t => stepsFrom k t
    | .fault _ => none
    | .refused _ => none

end Sys2Proof.Machine
end

