-- ==== Sys2Proof/WellFormed.lean ====
section
/-! DEFINITION. Which instruction terms are encodable (30_encoding.md R71 to R75, R83). A request with a wrong checksum or
an invalid header is well formed: the engine takes it and answers as the spec says. A response is well formed only with the
checksum the block computes, since the block emits no other. -/

namespace Sys2Proof

/-- A WRITE tail fits its LEN byte: `LEN` data bytes and a checksum, or nothing when `LEN > 16` (R72, R81). -/
def WriteTail.fits (len : Byte) : WriteTail → Bool
  | .overLength => decide (maxPayload < len.toNat)
  | .complete data _ => decide (len.toNat ≤ maxPayload) && decide (data.length = len.toNat)

/-- Well-formedness at given parameters: ports exist only below `N_CONS` (R7). -/
def Instr.wfAt (P : Params) : Instr → Bool
  | .read _ _ _ => true
  | .write _ l tail => tail.fits l
  | .unknown00 _ _ => true
  | .unknown03 _ _ => true
  | .unknown04 _ _ _ => true
  | .unknown08 _ _ _ => true
  | .unknown10 _ _ _ => true
  | .unknown20 _ _ _ => true
  | .unknown40 _ _ _ => true
  | .unknown80 _ _ _ => true
  | .data a l d k =>
    decide (l.toNat ≤ maxPayload) && decide (d.length = l.toNat) && decide (k = d.foldl (· ^^^ ·) (a ^^^ l))
  | .ack a k => decide (k = a ^^^ statusOk)
  | .nack a k => decide (k = a ^^^ statusCsumFail)
  | .consRead i _ _ _ => decide (i < P.nCons)
  | .consWrite i _ _ _ _ => decide (i < P.nCons)

/-- Well-formedness in this machine. -/
def Instr.wf (i : Instr) : Bool := i.wfAt Config.params

end Sys2Proof
end

