-- ==== Sys2Proof/Certificates/Slice0/Obligations.lean ====
section
/-! DEFINITION. What is claimed of the model, for the provers: one proposition each, listed in OBLIGATIONS.json. Each cites the
rule of spec/ it formalises; where a clause rests on the model's own choice its docstring names the log entry. -/

open Sys2Proof Sys2Proof.Machine

/-! ### Encoding -/

/-- Words written out from the formats of 30_encoding.md R71 to R75 and R83 decode to the instructions they stand for. -/
def Obligations.SpecWordsDecode : Prop :=
  decode (.request [0x01#8, 0x11#8, 0x04#8, 0x14#8]) = .ok (.read 0x11#8 0x04#8 0x14#8) [] ∧
  decode (.request [0x02#8, 0x11#8, 0x04#8, 0x64#8, 0x00#8, 0x00#8, 0x00#8, 0x73#8, 0x01#8]) =
    .ok (.write 0x11#8 0x04#8 (.complete [0x64#8, 0x00#8, 0x00#8, 0x00#8] 0x73#8)) [0x01#8] ∧
  decode (.request [0x02#8, 0x00#8, 0x11#8, 0x01#8]) = .ok (.write 0x00#8 0x11#8 .overLength) [0x01#8] ∧
  decode (.request [0x07#8, 0x55#8, 0xAA#8]) = .ok (.unknown04 3#2 0x55#8 0xAA#8) [] ∧
  decode (.response .data [0x3F#8, 0x01#8, 0x00#8, 0x3E#8]) = .ok (.data 0x3F#8 0x01#8 [0x00#8] 0x3E#8) [] ∧
  decode (.response .ack [0x11#8, 0x00#8, 0x11#8]) = .ok (.ack 0x11#8 0x11#8) [] ∧
  decode (.response .nack [0x11#8, 0xFF#8, 0xEE#8]) = .ok (.nack 0x11#8 0xEE#8) [] ∧
  decode (.port 1 ⟨0#1, 0x15#8, 4#5, 0#128, true⟩) = .ok (.consRead 1 0x15#8 4#5 true) []

/-- Decode and encode agree on every well-formed instruction, at any parameters, every operand at every value the encoding
admits, whatever bytes follow the frame. -/
def Obligations.DecodeOfEncodeIsTheInstruction : Prop :=
  ∀ (P : Params) (i : Instr), i.wfAt P = true →
    match encode i with
    | .request bs => ∀ rest, decode (.request (bs ++ rest)) = .ok i rest
    | .response k bs => ∀ rest, decode (.response k (bs ++ rest)) = .ok i rest
    | .port p r => decode (.port p r) = .ok i []

/-- The other direction on the RX stream: an instruction read from bytes is well formed, its encoding is exactly the bytes
taken, and the rest is what follows them. No byte string has two readings (30_encoding.md R80, R81). -/
def Obligations.DecodedRequestReencodesToItsBytes : Prop :=
  ∀ (bs rest : List Byte) (i : Instr), decode (.request bs) = .ok i rest →
    i.wf = true ∧ ∃ taken, encode i = .request taken ∧ bs = taken ++ rest

/-- How many bytes a request takes: READ 4 whatever `LEN` says; WRITE `4 + LEN`, or 3 when `LEN > 16`; an unknown command 3
(30_encoding.md R81). -/
def Obligations.RequestLengthFollowsItsHeader : Prop :=
  ∀ (c a l : Byte) (t rest : List Byte) (i : Instr), decode (.request (c :: a :: l :: t)) = .ok i rest →
    (c :: a :: l :: t).length = rest.length +
      (if c = 0x01#8 then 4 else if c = 0x02#8 ∧ l.toNat ≤ 16 then 4 + l.toNat else 3)

/-! ### The step -/

/-- A step runs the decoded instruction: a request at a frame boundary (its bytes leave the RX stream), the pending response
in `RESP`, a presented port request. Around `exec` the step takes the event off the agenda, or passes the turn on (log 1). -/
def Obligations.StepRunsTheDecodedInstruction : Prop :=
  ∀ s : State,
    (∀ i rest, s.nextEvent = .engine → s.atBoundary = true → decode (.request s.rx) = .ok i rest →
      step s = exec i { s.popEvent with rx := rest }) ∧
    (∀ i rest, s.nextEvent = .engine → s.st = .resp → decode (.response s.rkind s.respFrame) = .ok i rest →
      step s = exec i s.popEvent) ∧
    (∀ n p, s.nextEvent = .port n → s.ports[n]? = some p → p.req = true →
      step s = exec (decodePort n p.sig) s.popEvent)

/-- A step whose event is one agent's step, or a clock edge, performs exactly that (00_scope.md R4). -/
def Obligations.StepPerformsTheAgentStep : Prop :=
  ∀ (s : State) (rest : List Event),
    (∀ a, s.agenda = .agent a :: rest → step s = .next (performStep Config.params { s with agenda := rest } a)) ∧
    (∀ p, s.agenda = .edge p :: rest → step s = .next (clockEdge Config.params p { s with agenda := rest }))

/-- A table word of a request row placed by `withFetchWord` is the instruction the next step runs, from a frame boundary, with
the stream that waited before still waiting behind it (log 10, 11: the model's own placing). -/
def Obligations.PlacedRequestWordRunsNext : Prop :=
  ∀ (s : State) (nbits w : Nat) (i : Instr), 8 ≤ nbits → nbits ≠ 16 → nbits ≠ 24 → decodeTableWord nbits w = some i →
    step (s.withFetchWord nbits w) = exec i { s with st := .hdr, cnt := 0#5 }

/-- No run stops: from every state any number of steps can be taken (60_exceptions.md R207: no step leads to a fault state or
halts the block). -/
def Obligations.NoRunEverStops : Prop := ∀ (k : Nat) (s : State), ∃ t, stepsFrom k s = some t

/-- Every step keeps the invariant: the map canonical and inside `MAP_SIZE`, the engine's registers as the table of
10_state.md R21 (an inference the spec draws from its step rules), the lock with an existing port or free, `N_CONS` ports. (The `HDR` row says nothing of `acc` with no byte
held: log 15.) -/
def Obligations.EveryStepKeepsTheInvariant : Prop :=
  ∀ s t : State, s.Inv Config.params → step s = .next t → t.Inv Config.params

/-- The reset state meets the invariant. -/
def Obligations.ResetMeetsTheInvariant : Prop := State.reset.Inv Config.params

/-- The machine starts as after `Reset`: every cell 0 (10_state.md R11), the engine in `HDR` with no byte held and the guard
free (70_reset_and_hazards.md R241), and the other values of the table of 10_state.md R33. -/
def Obligations.ResetStateHasTheSpecValues : Prop :=
  (∀ a, Memory.read State.reset.map a = 0x00#8) ∧ State.reset.st = .hdr ∧ State.reset.cnt = 0#5 ∧
  State.reset.cmd = 0x00#8 ∧ State.reset.addr = 0x00#8 ∧ State.reset.len = 0x00#8 ∧ State.reset.acc = 0x00#8 ∧
  (∀ k (h : k < 16), State.reset.buf[k] = 0x00#8) ∧ State.reset.rkind = .ack ∧ State.reset.ridx = 0#5 ∧
  State.reset.owner = .free ∧ State.reset.txValid = false ∧ State.reset.rxReady = true

/-! ### READ -/

/-- READ with a valid header and checksum and the guard free: the DATA response is on TX, the map and everything else are as
before but for the engine's registers (43_read_command.md R160, R162, R163). -/
def Obligations.ReadAnswersWithTheCells : Prop :=
  ∀ (a l : Byte) (s : State), s.atBoundary = true → s.owner = .free → hdrOk Config.params a l = true →
    exec (.read a l (0x01#8 ^^^ a ^^^ l)) s = .next
      { s with
        cmd := 0x01#8, addr := a, len := l, acc := 0x01#8 ^^^ a ^^^ l
        buf := bufWrite s.buf 0 (Memory.readList s.map a.toNat l.toNat)
        rkind := .data, ridx := BitVec.ofNat 5 (l.toNat + 2)
        tx := s.tx ++ ([a, l] ++ Memory.readList s.map a.toNat l.toNat ++
          [a ^^^ l ^^^ xorFold (Memory.readList s.map a.toNat l.toNat)]) }

/-- READ with a valid header and checksum while a port holds the lock: received, and waiting in `COMMIT_RD` (20_memory.md
R52). -/
def Obligations.ReadWaitsForTheLock : Prop :=
  ∀ (a l : Byte) (s : State) (j : Nat), s.atBoundary = true → s.owner = .cons j → hdrOk Config.params a l = true →
    exec (.read a l (0x01#8 ^^^ a ^^^ l)) s = .next
      { s with cmd := 0x01#8, addr := a, len := l, acc := 0x01#8 ^^^ a ^^^ l, st := .commitRd }

/-- READ with a wrong checksum: dropped silently, no response, only the diagnostic (43_read_command.md R161). -/
def Obligations.ReadWithBadChecksumIsSilent : Prop :=
  ∀ (a l k : Byte) (s : State), s.atBoundary = true → hdrOk Config.params a l = true → k ≠ 0x01#8 ^^^ a ^^^ l →
    exec (.read a l k) s = .next
      { s with
        cmd := 0x01#8, addr := a, len := l, acc := 0x01#8 ^^^ a ^^^ l, diags := s.diags ++ [.checksumMismatch] }

/-- READ with an invalid header: the trailing byte is discarded unexamined, no response; the diagnostic is `LengthTooLarge` if
`LEN > 16`, else `OutOfRange` (42_framing.md R135, R137). -/
def Obligations.ReadWithInvalidHeaderIsSkipped : Prop :=
  ∀ (a l k : Byte) (s : State), s.atBoundary = true → hdrOk Config.params a l = false →
    exec (.read a l k) s = .next
      { s with
        cmd := 0x01#8, addr := a, len := l, acc := 0x01#8 ^^^ a ^^^ l
        diags := s.diags ++ [if 16 < l.toNat then .lengthTooLarge else .outOfRange] }

/-! ### WRITE -/

/-- WRITE with a valid header and checksum and the guard free: the payload is in the map, whole, and the ACK is on TX
(44_write_command.md R170, R173, R174). -/
def Obligations.WriteStoresThePayloadAndAcks : Prop :=
  ∀ (a l : Byte) (d : List Byte) (s : State), s.atBoundary = true → s.owner = .free →
    hdrOk Config.params a l = true → d.length = l.toNat →
    exec (.write a l (.complete d (0x02#8 ^^^ a ^^^ l ^^^ xorFold d))) s = .next
      { s with
        map := Memory.writeList s.map a.toNat d
        cmd := 0x02#8, addr := a, len := l, acc := 0x02#8 ^^^ a ^^^ l ^^^ xorFold d, buf := bufWrite s.buf 0 d
        rkind := .ack, ridx := 2#5, tx := s.tx ++ [a, 0x00#8, a] }

/-- What that map holds: the payload in the range, every other cell as before (44_write_command.md R173). -/
def Obligations.WrittenMapHoldsThePayloadAndNothingElse : Prop :=
  ∀ (m : Memory) (a : Nat) (d : List Byte), Memory.wf Config.params m = true → a + d.length ≤ Config.mapSize →
    Memory.wf Config.params (Memory.writeList m a d) = true ∧
    (∀ k (h : k < d.length), Memory.read (Memory.writeList m a d) (a + k) = d[k]) ∧
    (∀ x, x < a ∨ a + d.length ≤ x → Memory.read (Memory.writeList m a d) x = Memory.read m x) ∧
    Memory.readList (Memory.writeList m a d) a d.length = d

/-- WRITE with a valid header and checksum while a port holds the lock: received, and waiting in `COMMIT_WR` with the map
untouched (20_memory.md R52). -/
def Obligations.WriteWaitsForTheLock : Prop :=
  ∀ (a l : Byte) (d : List Byte) (s : State) (j : Nat), s.atBoundary = true → s.owner = .cons j →
    hdrOk Config.params a l = true → d.length = l.toNat →
    exec (.write a l (.complete d (0x02#8 ^^^ a ^^^ l ^^^ xorFold d))) s = .next
      { s with
        cmd := 0x02#8, addr := a, len := l, acc := 0x02#8 ^^^ a ^^^ l ^^^ xorFold d, buf := bufWrite s.buf 0 d
        st := .commitWr, cnt := BitVec.ofNat 5 (l.toNat - 1) }

/-- WRITE with a valid header and a wrong checksum: NACK on TX whoever holds the lock, the map untouched (44_write_command.md
R172). -/
def Obligations.WriteWithBadChecksumIsNacked : Prop :=
  ∀ (a l k : Byte) (d : List Byte) (s : State), s.atBoundary = true → hdrOk Config.params a l = true →
    d.length = l.toNat → k ≠ 0x02#8 ^^^ a ^^^ l ^^^ xorFold d →
    exec (.write a l (.complete d k)) s = .next
      { s with
        cmd := 0x02#8, addr := a, len := l, acc := 0x02#8 ^^^ a ^^^ l ^^^ xorFold d, buf := bufWrite s.buf 0 d
        rkind := .nack, ridx := 2#5, tx := s.tx ++ [a, 0xFF#8, a ^^^ 0xFF#8], diags := s.diags ++ [.checksumMismatch] }

/-- WRITE with `LEN <= 16` and a range outside the map: payload and checksum are discarded unexamined, no response, the map and
the buffer untouched (42_framing.md R136, R137). -/
def Obligations.WriteOutOfRangeIsSkipped : Prop :=
  ∀ (a l k : Byte) (d : List Byte) (s : State), s.atBoundary = true → hdrOk Config.params a l = false →
    l.toNat ≤ 16 → d.length = l.toNat →
    exec (.write a l (.complete d k)) s = .next
      { s with
        cmd := 0x02#8, addr := a, len := l, acc := 0x02#8 ^^^ a ^^^ l, diags := s.diags ++ [.outOfRange] }

/-- WRITE with `LEN > 16`: three bytes taken, no response, the next byte is a command byte (42_framing.md R136). -/
def Obligations.WriteTooLongIsAbandoned : Prop :=
  ∀ (a l : Byte) (s : State), s.atBoundary = true → 16 < l.toNat →
    exec (.write a l .overLength) s = .next
      { s with
        cmd := 0x02#8, addr := a, len := l, acc := 0x02#8 ^^^ a ^^^ l, diags := s.diags ++ [.lengthTooLarge] }

/-- The round-trip law: a WRITE answered with ACK, then a READ of the same range, returns exactly the written bytes
(44_write_command.md R176, which the spec derives from R170 to R175). -/
def Obligations.ReadAfterWriteReturnsTheWrittenBytes : Prop :=
  ∀ (a l : Byte) (d : List Byte) (s : State), s.Inv Config.params → s.atBoundary = true → s.owner = .free →
    hdrOk Config.params a l = true → d.length = l.toNat →
    ∃ t u, exec (.write a l (.complete d (0x02#8 ^^^ a ^^^ l ^^^ xorFold d))) s = .next t ∧
      exec (.read a l (0x01#8 ^^^ a ^^^ l)) t = .next u ∧ u.map = t.map ∧
      u.tx = s.tx ++ [a, 0x00#8, a] ++ ([a, l] ++ d ++ [a ^^^ l ^^^ xorFold d])

/-! ### Unknown commands -/

/-- Each of the eight unknown rows: three bytes taken, the diagnostic, no response, the map untouched; `ADDR` and `LEN` are not
interpreted (42_framing.md R138). -/
def Obligations.UnknownCommandsTakeThreeBytes : Prop :=
  ∀ (a l : Byte) (s : State), s.atBoundary = true →
    let dropped (c : Byte) : Host.Outcome State Fault Refusal := .next
      { s with cmd := c, addr := a, len := l, acc := c ^^^ a ^^^ l, diags := s.diags ++ [.unknownCommand] }
    exec (.unknown00 a l) s = dropped 0x00#8 ∧ exec (.unknown03 a l) s = dropped 0x03#8 ∧
    (∀ low : BitVec 2, exec (.unknown04 low a l) s = dropped (0x04#8 ||| low.setWidth 8)) ∧
    (∀ low : BitVec 3, exec (.unknown08 low a l) s = dropped (0x08#8 ||| low.setWidth 8)) ∧
    (∀ low : BitVec 4, exec (.unknown10 low a l) s = dropped (0x10#8 ||| low.setWidth 8)) ∧
    (∀ low : BitVec 5, exec (.unknown20 low a l) s = dropped (0x20#8 ||| low.setWidth 8)) ∧
    (∀ low : BitVec 6, exec (.unknown40 low a l) s = dropped (0x40#8 ||| low.setWidth 8)) ∧
    (∀ low : BitVec 7, exec (.unknown80 low a l) s = dropped (0x80#8 ||| low.setWidth 8))

/-- A request off a frame boundary, and a response that is not the one pending, wait: nothing changes. This is the model's
choice of what `exec` answers there (log 6), not a rule: off a frame boundary the spec takes single bytes as the continuation
of the held frame (42_framing.md R130, R143), holds them back (R139) or sends the response that is pending (R141), and `step`
does so without giving `exec` such an instruction. -/
def Obligations.FramesOutOfTurnWait : Prop :=
  ∀ (i : Instr) (s : State),
    (∀ bs, encode i = .request bs → s.atBoundary = false → exec i s = .next s) ∧
    (∀ k bs, encode i = .response k bs → ¬(s.st = .resp ∧ s.rkind = k ∧ s.respFrame = bs) → exec i s = .next s)

/-! ### Responses -/

/-- The pending ACK or NACK leaves on TX from wherever its emission stands, and the engine returns to `HDR` (42_framing.md
R140, R141). -/
def Obligations.PendingAckOrNackIsDelivered : Prop :=
  ∀ (a : Byte) (s : State), s.st = .resp → s.addr = a → s.ridx.toNat < 3 →
    (s.rkind = .ack → exec (.ack a a) s = .next
      { s with st := .hdr, cnt := 0#5, ridx := 2#5, tx := s.tx ++ [a, 0x00#8, a].drop s.ridx.toNat }) ∧
    (s.rkind = .nack → exec (.nack a (a ^^^ 0xFF#8)) s = .next
      { s with st := .hdr, cnt := 0#5, ridx := 2#5, tx := s.tx ++ [a, 0xFF#8, a ^^^ 0xFF#8].drop s.ridx.toNat })

/-- The pending DATA response leaves on TX from wherever its emission stands (42_framing.md R140, R141, 43_read_command.md
R163). -/
def Obligations.PendingDataIsDelivered : Prop :=
  ∀ (a l : Byte) (d : List Byte) (s : State), s.st = .resp → s.rkind = .data → s.addr = a → s.len = l →
    l.toNat ≤ 16 → s.payload = d → s.ridx.toNat < l.toNat + 3 →
    exec (.data a l d (a ^^^ l ^^^ xorFold d)) s = .next
      { s with
        st := .hdr, cnt := 0#5, ridx := BitVec.ofNat 5 (l.toNat + 2)
        tx := s.tx ++ ([a, l] ++ d ++ [a ^^^ l ^^^ xorFold d]).drop s.ridx.toNat }

/-! ### Consumer ports -/

/-- CONS_READ inside the map: the cells on the low lanes, `c_err = 0`; besides the port only the lock can change
(45_consumer_port.md R181). Who holds the lock afterwards is the model's reading of R186 (log 8).
A port that already presents a different request is covered too, though 45_consumer_port.md R180 forbids
it: that this request is lost is the model's choice (log 16, unsafe for a claim about `exec` alone). -/
def Obligations.ConsReadReturnsTheCells : Prop :=
  ∀ (i : Nat) (a : Byte) (n : BitVec 5) (lock : Bool) (s : State) (p : Port), s.ports[i]? = some p →
    s.owner = .free ∨ s.owner = .cons i → n.toNat ≤ 16 → a.toNat + n.toNat ≤ Config.mapSize →
    exec (.consRead i a n lock) s = .next
      { s with
        owner := lockAfter lock i
        ports := s.ports.set i ⟨false, ⟨0#1, a, n, p.sig.wdata, lock⟩⟩
        results := s.results ++ [⟨i, 0#1, false, some (packLanes (Memory.readList s.map a.toNat n.toNat))⟩] }

/-- CONS_READ out of range or longer than 16: `c_err = 1`, nothing read, `c_rdata` unspecified whatever the free value is
(45_consumer_port.md R181, R183; the free value by log 9). Who holds the lock afterwards is the model's reading of R186
(log 8). A port that already presents a different request is covered too, though 45_consumer_port.md R180 forbids
it: that this request is lost is the model's choice (log 16, unsafe for a claim about `exec` alone). -/
def Obligations.ConsReadOutOfRangeIsRefused : Prop :=
  ∀ (i : Nat) (a : Byte) (n : BitVec 5) (lock : Bool) (s : State) (p : Port), s.ports[i]? = some p →
    s.owner = .free ∨ s.owner = .cons i → 16 < n.toNat ∨ Config.mapSize < a.toNat + n.toNat →
    exec (.consRead i a n lock) s = .next
      { s with
        owner := lockAfter lock i
        ports := s.ports.set i ⟨false, ⟨0#1, a, n, p.sig.wdata, lock⟩⟩
        results := s.results ++ [⟨i, 0#1, true, some (Config.unspecifiedRdata s.freeCount)⟩]
        freeCount := s.freeCount + 1 }

/-- CONS_WRITE inside the map: exactly the cells of the range take the low lanes, `c_err = 0` (45_consumer_port.md R182). Who
holds the lock afterwards is the model's reading of R186 (log 8).
A port that already presents a different request is covered too, though 45_consumer_port.md R180 forbids
it: that this request is lost is the model's choice (log 16, unsafe for a claim about `exec` alone). -/
def Obligations.ConsWriteStoresTheLanes : Prop :=
  ∀ (i : Nat) (a : Byte) (n : BitVec 5) (w : Lanes) (lock : Bool) (s : State) (p : Port), s.ports[i]? = some p →
    s.owner = .free ∨ s.owner = .cons i → n.toNat ≤ 16 → a.toNat + n.toNat ≤ Config.mapSize →
    exec (.consWrite i a n w lock) s = .next
      { s with
        map := Memory.writeList s.map a.toNat (unpackLanes w n.toNat)
        owner := lockAfter lock i
        ports := s.ports.set i ⟨false, ⟨1#1, a, n, w, lock⟩⟩
        results := s.results ++ [⟨i, 1#1, false, none⟩] }

/-- CONS_WRITE out of range or longer than 16: `c_err = 1` and no cell changes (45_consumer_port.md R182, R183). Who holds the
lock afterwards is the model's reading of R186 (log 8).
A port that already presents a different request is covered too, though 45_consumer_port.md R180 forbids
it: that this request is lost is the model's choice (log 16, unsafe for a claim about `exec` alone). -/
def Obligations.ConsWriteOutOfRangeIsRefused : Prop :=
  ∀ (i : Nat) (a : Byte) (n : BitVec 5) (w : Lanes) (lock : Bool) (s : State) (p : Port), s.ports[i]? = some p →
    s.owner = .free ∨ s.owner = .cons i → 16 < n.toNat ∨ Config.mapSize < a.toNat + n.toNat →
    exec (.consWrite i a n w lock) s = .next
      { s with
        owner := lockAfter lock i
        ports := s.ports.set i ⟨false, ⟨1#1, a, n, w, lock⟩⟩
        results := s.results ++ [⟨i, 1#1, true, none⟩] }

/-- While another port holds the lock an access is not enabled, and nothing of the block changes (20_memory.md R53). That `exec`
then leaves the instruction's request presented is the model's rendering (log 8). A port that already presents a different
request is covered too, though 45_consumer_port.md R180 forbids it: that the instruction's request takes its place is the
model's choice (log 16, unsafe for a claim about `exec` alone). -/
def Obligations.ConsAccessWaitsForTheLock : Prop :=
  ∀ (i j : Nat) (a : Byte) (n : BitVec 5) (w : Lanes) (lock : Bool) (s : State) (p : Port), s.ports[i]? = some p →
    s.owner = .cons j → j ≠ i →
    exec (.consRead i a n lock) s = .next
      { s with ports := s.ports.set i ⟨true, ⟨0#1, a, n, p.sig.wdata, lock⟩⟩ } ∧
    exec (.consWrite i a n w lock) s = .next
      { s with ports := s.ports.set i ⟨true, ⟨1#1, a, n, w, lock⟩⟩ }

/-- The byte lanes: byte `k` of an access in bits `[8k+7 : 8k]`, the other bits of `c_rdata` 0, as many bytes written as
`c_len` says, and a 2- or 4-byte access is the little-endian field, read or written (10_state.md R30, 45_consumer_port.md R181,
R182, 40_register_map_accessors.md R104, R105). -/
def Obligations.LanesCarryTheBytesInOrder : Prop :=
  (∀ (d : List Byte) (k : Nat), d.length ≤ 16 → k < 16 → laneByte (packLanes d) k = d.getD k 0x00#8) ∧
  (∀ (w : Lanes) (n : Nat), (unpackLanes w n).length = n) ∧
  (∀ (w : Lanes) (n k : Nat), n ≤ 16 → k < n → (unpackLanes w n).getD k 0x00#8 = laneByte w k) ∧
  (∀ (P : Params) (m : Memory) (a : Nat) (v : BitVec 16), readU16 P m a = .ok v →
    packLanes (Memory.readList m a 2) = v.setWidth 128) ∧
  (∀ (P : Params) (m : Memory) (a : Nat) (v : BitVec 32), readU32 P m a = .ok v →
    packLanes (Memory.readList m a 4) = v.setWidth 128) ∧
  (∀ (P : Params) (m : Memory) (a : Nat) (v : BitVec 16),
    unpackLanes (v.setWidth 128) 2 = bytes16 v ∧
    writeBytes P m a 2 (unpackLanes (v.setWidth 128) 2) = writeU16 P m a v) ∧
  (∀ (P : Params) (m : Memory) (a : Nat) (v : BitVec 32),
    unpackLanes (v.setWidth 128) 4 = bytes32 v ∧
    writeBytes P m a 4 (unpackLanes (v.setWidth 128) 4) = writeU32 P m a v)

/-- A presented request stays as it is until it is performed: no step but the port's own access touches it, and a second one
cannot replace it (45_consumer_port.md R180). -/
def Obligations.PresentedRequestStaysUntilPerformed : Prop :=
  ∀ (P : Params) (s : State) (i : Nat) (p : Port), s.ports[i]? = some p → p.req = true →
    (∀ a, a ≠ .consAccess i → (performStep P s a).ports[i]? = some p) ∧
    (∀ r, (presentRequest i r s).ports[i]? = some p)

/-! ### The guard -/

/-- `ConsAcquire(i)`: enabled only while the guard is free; it sets the owner and nothing else; while port `i` owns the lock no
commit and no other port's access or acquire is enabled, port `i`'s accesses are, and it cannot acquire again
(45_consumer_port.md R184). -/
def Obligations.AcquireTakesTheLockAlone : Prop :=
  ∀ (P : Params) (s : State) (i : Nat), i < s.ports.length →
    (s.owner = .free → consAcquire i s = { s with owner := .cons i }) ∧
    (s.owner ≠ .free → consAcquire i s = s) ∧
    (s.owner = .cons i → commit P s = s ∧ s.mayAccess i = true ∧
      ∀ j, j ≠ i → consAccess P j s = s ∧ consAcquire j s = s)

/-- `ConsRelease(i)`: enabled only while port `i` owns the lock; it frees it and nothing else. `Reset` frees the lock too,
`LinkReset` does not (45_consumer_port.md R185). -/
def Obligations.ReleaseFreesTheLock : Prop :=
  ∀ (s : State) (i : Nat),
    (s.owner = .cons i → consRelease i s = { s with owner := .free }) ∧
    (s.owner ≠ .cons i → consRelease i s = s) ∧ s.resetBlock.owner = .free ∧ (linkReset s).owner = s.owner

/-- While port `i` holds the lock, every other agent's step leaves the map, the lock and the port results alone (20_memory.md
R53). -/
def Obligations.HeldLockKeepsOthersOffTheMap : Prop :=
  ∀ (P : Params) (s : State) (i : Nat) (a : AgentStep), s.owner = .cons i → a ≠ .reset → a ≠ .consRelease i →
    a ≠ .consAccess i →
    (performStep P s a).map = s.map ∧ (performStep P s a).owner = .cons i ∧ (performStep P s a).results = s.results

/-- A held lock stalls a validated frame and with it the link: nothing but a release, a reset or a link reset moves the engine
on, and no byte enters or leaves (70_reset_and_hazards.md R252, which the spec derives from R52 and R139). -/
def Obligations.HeldLockStallsTheLink : Prop :=
  ∀ (P : Params) (s : State) (i : Nat) (a : AgentStep), s.owner = .cons i → s.st = .commitRd ∨ s.st = .commitWr →
    a ≠ .reset → a ≠ .linkReset → a ≠ .consRelease i →
    (performStep P s a).st = s.st ∧ (performStep P s a).rx = s.rx ∧ (performStep P s a).tx = s.tx ∧
    (performStep P s a).owner = .cons i

/-! ### The engine's steps -/

/-- The first two header bytes: `cmd <- b; acc <- b; cnt <- 1`, then `addr <- b; acc <- acc ^ b; cnt <- 2`, nothing else,
whatever `b` is (42_framing.md R131, R132). -/
def Obligations.FirstTwoHeaderBytesAreHeld : Prop :=
  ∀ (P : Params) (b : Byte) (s : State), s.st = .hdr →
    (s.cnt = 0#5 → rxByte P b s = { s with cmd := b, acc := b, cnt := 1#5 }) ∧
    (s.cnt = 1#5 → rxByte P b s = { s with addr := b, acc := s.acc ^^^ b, cnt := 2#5 })

/-- The third header byte decides the frame: unknown command, then too long, then out of range, each with its one diagnostic
and phase; nothing but `len`, `acc`, `cnt`, `st` and the diagnostics changes (42_framing.md R133 to R136, R138). -/
def Obligations.HeaderIsDecidedInTheStatedOrder : Prop :=
  ∀ (P : Params) (l : Byte) (s : State), s.st = .hdr → s.cnt = 2#5 →
    let inRange := s.addr.toNat < P.mapSize ∧ s.addr.toNat + l.toNat ≤ P.mapSize
    let next (ph : Phase) (n : BitVec 5) (events : List Diag) : State :=
      { s with len := l, acc := s.acc ^^^ l, st := ph, cnt := n, diags := s.diags ++ events }
    rxByte P l s =
      if s.cmd = 0x01#8 then
        (if 16 < l.toNat then next .skip 1#5 [.lengthTooLarge]
         else if inRange then next .rdCsum 0#5 [] else next .skip 1#5 [.outOfRange])
      else if s.cmd = 0x02#8 then
        (if 16 < l.toNat then next .hdr 0#5 [.lengthTooLarge]
         else if inRange then next (if l = 0x00#8 then .wrCsum else .wrPayload) 0#5 []
         else next .skip (BitVec.ofNat 5 (l.toNat + 1)) [.outOfRange])
      else next .hdr 0#5 [.unknownCommand]

/-- The bytes after a valid header: a READ checksum byte (43_read_command.md R161), a payload byte and a WRITE checksum byte
(44_write_command.md R171, R172). A wrong READ checksum drops the frame silently, a wrong WRITE checksum answers NACK without
consulting the guard, and a payload byte goes to the buffer, not to the map. -/
def Obligations.PayloadAndChecksumBytesAreTaken : Prop :=
  ∀ (P : Params) (b : Byte) (s : State),
    (s.st = .rdCsum → rxByte P b s =
      if b = s.acc then { s with st := .commitRd }
      else { s with st := .hdr, cnt := 0#5, diags := s.diags ++ [.checksumMismatch] }) ∧
    (s.st = .wrPayload → s.cnt.toNat < s.len.toNat → s.len.toNat ≤ 16 → ∃ v : Vector Byte 16,
      (∀ k (h : k < 16), v[k] = if k = s.cnt.toNat then b else s.buf[k]) ∧
      rxByte P b s =
        if s.cnt.toNat + 1 = s.len.toNat then { s with buf := v, acc := s.acc ^^^ b, st := .wrCsum }
        else { s with buf := v, acc := s.acc ^^^ b, cnt := s.cnt + 1#5 }) ∧
    (s.st = .wrCsum → rxByte P b s =
      if b = s.acc then { s with st := .commitWr }
      else { s with rkind := .nack, ridx := 0#5, st := .resp, diags := s.diags ++ [.checksumMismatch] })

/-- A skipped byte is discarded unexamined (42_framing.md R137). -/
def Obligations.SkippedByteIsDiscarded : Prop :=
  ∀ (P : Params) (b : Byte) (s : State), s.st = .skip →
    rxByte P b s = if s.cnt = 1#5 then { s with st := .hdr, cnt := 0#5 } else { s with cnt := s.cnt - 1#5 }

/-- No byte is taken and none is lost while a transaction is being committed or answered (42_framing.md R139). -/
def Obligations.NoByteIsTakenDuringATransaction : Prop :=
  ∀ (P : Params) (s : State), s.st = .commitRd ∨ s.st = .commitWr ∨ s.st = .resp →
    s.rxReady = false ∧ rxStep P s = s

/-- `Commit` of a READ: enabled only while the guard is free; `buf[0 .. len)` is the map's content in that one step, the other
buffer cells and the map unchanged, a DATA response pending (43_read_command.md R162). -/
def Obligations.ReadCommitSnapshotsTheCells : Prop :=
  ∀ (P : Params) (s : State), s.st = .commitRd → hdrOk P s.addr s.len = true →
    (s.owner ≠ .free → commit P s = s) ∧
    (s.owner = .free → ∃ b : Vector Byte 16,
      commit P s = { s with buf := b, rkind := .data, ridx := 0#5, st := .resp } ∧
      ∀ k (h : k < 16), b[k] = if k < s.len.toNat then Memory.read s.map (s.addr.toNat + k) else s.buf[k])

/-- `Commit` of a WRITE: enabled only while the guard is free; the cells of the range take the payload in that one step, every
other cell and register unchanged, an ACK pending (44_write_command.md R173). -/
def Obligations.WriteCommitStoresTheBuffer : Prop :=
  ∀ (P : Params) (s : State), s.st = .commitWr → hdrOk P s.addr s.len = true → Memory.wf P s.map = true →
    (s.owner ≠ .free → commit P s = s) ∧
    (s.owner = .free → ∃ m, commit P s = { s with map := m, rkind := .ack, ridx := 0#5, st := .resp } ∧
      (∀ k (h : k < 16), k < s.len.toNat → Memory.read m (s.addr.toNat + k) = s.buf[k]) ∧
      ∀ x, x < s.addr.toNat ∨ s.addr.toNat + s.len.toNat ≤ x → Memory.read m x = Memory.read s.map x)

/-- `LinkReset`: back to `HDR` with no byte held, the diagnostic only if something was in progress, every other register, the
map and the lock kept; `Reset` wins at the same edge (42_framing.md R144). -/
def Obligations.LinkResetAbandonsTheTransaction : Prop :=
  ∀ (P : Params) (s : State),
    performStep P s .linkReset =
      { s with
        st := .hdr, cnt := 0#5
        diags := if s.st = .hdr ∧ s.cnt = 0#5 then s.diags else s.diags ++ [.incompleteFrame] } ∧
    ∀ p : Pins, p.rst = true → p.linkRst = true → clockEdge P p s = performStep P s .reset

/-- `Reset` from any state: every cell 0, every register at its reset value, the lock free (70_reset_and_hazards.md R240);
nothing put out, taken or cleared outside the block (R244); and at a clock edge `rst` wins over everything (R243). -/
def Obligations.ResetClearsTheBlock : Prop :=
  ∀ (P : Params) (s : State),
    (∀ p : Pins, p.rst = true → clockEdge P p s = performStep P s .reset) ∧
    let t := performStep P s .reset
    (∀ a, Memory.read t.map a = 0x00#8) ∧ t.st = .hdr ∧ t.cnt = 0#5 ∧ t.owner = .free ∧ t.cmd = 0x00#8 ∧
    t.addr = 0x00#8 ∧ t.len = 0x00#8 ∧ t.acc = 0x00#8 ∧ t.buf = Vector.replicate 16 0x00#8 ∧ t.ridx = 0#5 ∧
    t.rkind = .ack ∧ t.tx = s.tx ∧ t.diags = s.diags ∧ t.results = s.results ∧ t.rx = s.rx

/-- `link_rst` at a clock edge: the engine goes to `HDR`, takes, commits and sends nothing, even where the guard picks it; the
consumer ports and the lock do what they would have done (60_exceptions.md R210, 42_framing.md R144). -/
def Obligations.LinkResetSparesThePortsAtAClockEdge : Prop :=
  ∀ (P : Params) (p : Pins) (s : State), p.rst = false → p.linkRst = true →
    let t := clockEdge P p s
    let u := clockEdge P { p with linkRst := false } s
    t.st = .hdr ∧ t.cnt = 0#5 ∧ t.rx = s.rx ∧ t.tx = s.tx ∧
    t.owner = u.owner ∧ t.ports = u.ports ∧ t.results = u.results ∧
    (p.grant = some .engine → t.map = s.map) ∧ (p.grant ≠ some .engine → t.map = u.map)

/-! ### The whole machine -/

/-- The complete list of steps that change a cell, with what each leaves (10_state.md R12): `Reset`, which clears the map; the
WRITE commit, which writes the frame's payload at the frame's address; an in-range write of an admitted port, which writes the
request's lanes at the request's address. Either write is one whole write of at most 16 bytes inside the map, so no step leaves
a range half written. -/
def Obligations.CellsChangeOnlyByWholeWrites : Prop :=
  ∀ (P : Params) (s : State) (a : AgentStep), (performStep P s a).map ≠ s.map →
    (a = .reset ∧ (performStep P s a).map = []) ∨
    (a = .commit ∧ s.st = .commitWr ∧ s.owner = .free ∧
      s.payload.length ≤ 16 ∧ s.addr.toNat + s.payload.length ≤ P.mapSize ∧
      (performStep P s a).map = Memory.writeList s.map s.addr.toNat s.payload) ∨
    (∃ i p, a = .consAccess i ∧ s.ports[i]? = some p ∧ p.req = true ∧ p.sig.op = 1#1 ∧
      (s.owner = .free ∨ s.owner = .cons i) ∧
      p.sig.len.toNat ≤ 16 ∧ p.sig.addr.toNat + p.sig.len.toNat ≤ P.mapSize ∧
      (performStep P s a).map =
        Memory.writeList s.map p.sig.addr.toNat (unpackLanes p.sig.wdata p.sig.len.toNat))

/-- No response before the checksum of a complete frame is decided: `RESP` is entered only by a commit or by a mismatching
WRITE checksum byte, a commit phase only by a matching checksum byte, and TX carries a byte only in `RESP`; the
engine changes the map only in the WRITE commit (42_framing.md R142, which the spec marks as its own inference). -/
def Obligations.ResponsesFollowADecidedChecksum : Prop :=
  ∀ (P : Params) (s : State) (a : AgentStep),
    let t := performStep P s a
    (t.st = .resp → s.st = .resp ∨ (a = .commit ∧ s.owner = .free ∧ (s.st = .commitRd ∨ s.st = .commitWr)) ∨
      (a = .rxByte ∧ s.st = .wrCsum ∧ ∃ b bs, s.rx = b :: bs ∧ b ≠ s.acc)) ∧
    (t.st = .commitRd → s.st = .commitRd ∨ (a = .rxByte ∧ s.st = .rdCsum ∧ ∃ bs, s.rx = s.acc :: bs)) ∧
    (t.st = .commitWr → s.st = .commitWr ∨ (a = .rxByte ∧ s.st = .wrCsum ∧ ∃ bs, s.rx = s.acc :: bs)) ∧
    (t.tx ≠ s.tx → a = .txByte ∧ s.st = .resp) ∧
    (t.map ≠ s.map → (a = .commit ∧ s.st = .commitWr) ∨ (∃ i, a = .consAccess i) ∨ a = .reset)

/-- `TxByte` delivers `resp[ridx]`, the last one returning the engine to `HDR`; it is not enabled outside `RESP`; and while a
response is pending no step but a reset changes the frame, whatever happens to the map (42_framing.md R141). -/
def Obligations.PendingResponseLeavesByteByByte : Prop :=
  ∀ (P : Params) (s : State),
    (s.st ≠ .resp → performStep P s .txByte = s) ∧
    (s.st = .resp → ∀ b, s.respFrame[s.ridx.toNat]? = some b → performStep P s .txByte =
      if s.ridx.toNat + 1 = s.respFrame.length then { s with tx := s.tx ++ [b], st := .hdr, cnt := 0#5 }
      else { s with tx := s.tx ++ [b], ridx := s.ridx + 1#5 }) ∧
    (s.st = .resp → ∀ a, a ≠ .reset →
      (performStep P s a).respFrame = s.respFrame ∧ (performStep P s a).addr = s.addr ∧
      (performStep P s a).len = s.len ∧ (performStep P s a).buf = s.buf ∧
      (a ≠ .txByte → a ≠ .linkReset → (performStep P s a).st = .resp ∧ (performStep P s a).ridx = s.ridx))

/-- Parsing does not depend on the map: a received byte does the same whatever the cells hold (20_memory.md R63, which the spec derives from
42_framing.md R131 to R138). -/
def Obligations.ParsingIgnoresTheMap : Prop :=
  ∀ (P : Params) (b : Byte) (s : State) (m : Memory),
    rxByte P b { s with map := m } = { rxByte P b s with map := m }

/-- Stateless per frame: from a frame boundary, nothing observable ever depends on what earlier frames left in `cmd`, `addr`,
`len`, `acc`, `buf`, `rkind` and `ridx`, whatever steps follow in whatever order (10_state.md R24). -/
def Obligations.EarlierFramesLeaveNoTrace : Prop :=
  ∀ (P : Params) (steps : List AgentStep) (s : State) (cmd addr len acc : Byte) (buf : Vector Byte 16) (rkind : RKind)
    (ridx : BitVec 5), s.atBoundary = true →
    (performSteps P steps
      { s with cmd := cmd, addr := addr, len := len, acc := acc, buf := buf, rkind := rkind, ridx := ridx }).observe =
    (performSteps P steps s).observe

/-- The engine is the stream function: fed with any bytes from a frame boundary with the guard free, it leaves the map `run`
gives, has emitted the responses `run` gives, and holds exactly `run`'s incomplete tail (42_framing.md R145, which the spec
derives from the step rules). -/
def Obligations.EngineIsTheStreamFunction : Prop :=
  ∀ (P : Params) (bytes : List Byte) (s : State), s.atBoundary = true → s.owner = .free →
    let r := runStream P s.map bytes
    (feed P bytes s).map = r.map ∧ (feed P bytes s).tx = s.tx ++ r.out ∧
    ∃ u : State, u.atBoundary = true ∧ u.map = r.map ∧ u.tx = s.tx ++ r.out ∧ feed P bytes s = feed P r.rest u

/-- A request run as one instruction is the run of the agents' steps: its bytes by `RxByte`, then `Commit`, then `TxByte` until
the response is out, each as often as it is enabled, with whatever waits on RX behind it left there (00_scope.md R4, log 5). -/
def Obligations.RequestIsARunOfAgentSteps : Prop :=
  ∀ (i : Instr) (bs : List Byte) (s : State), i.wf = true → encode i = .request bs → s.atBoundary = true →
    exec i s = .next (performSteps Config.params
      (List.replicate bs.length .rxByte ++ [.commit] ++ List.replicate 19 .txByte) { s with rx := bs ++ s.rx })

/-- Progress under the assumptions of 70_reset_and_hazards.md R256 (log 20), in every order of the agents' steps: with no reset
and a lock that comes to rest, a complete READ waiting at a frame boundary is eventually committed and answered with the cells
of the commit's instant, a complete WRITE is eventually stored whole and acknowledged, and a presented port request is
eventually performed (45_consumer_port.md R187). That the lock comes to rest is a premise of the model's: without it R256's own
assumptions do not suffice (log 20). -/
def Obligations.FairRunsServeEveryRequest : Prop :=
  ∀ (P : Params) (sched : Nat → Move) (s : State) (n : Nat),
    FairRun P sched s → NoResetFrom sched n → LockComesToRest P sched s →
    let u := runAt P sched s n
    (∀ (a l : Byte) (rest : List Byte), u.atBoundary = true → hdrOk P a l = true →
      u.rx = [0x01#8, a, l, 0x01#8 ^^^ a ^^^ l] ++ rest →
      ∃ k m, n ≤ k ∧ k < m ∧ sched k = .agent .commit ∧ (runAt P sched s k).st = .commitRd ∧
        (runAt P sched s k).owner = .free ∧ (runAt P sched s m).atBoundary = true ∧
        (∃ sent, (runAt P sched s m).rx = rest ++ sent) ∧
        (runAt P sched s m).tx = u.tx ++ dataFrame a l (Memory.readList (runAt P sched s k).map a.toNat l.toNat)) ∧
    (∀ (a l : Byte) (d rest : List Byte), u.atBoundary = true → hdrOk P a l = true → d.length = l.toNat →
      u.rx = [0x02#8, a, l] ++ d ++ [0x02#8 ^^^ a ^^^ l ^^^ xorFold d] ++ rest →
      ∃ k m, n ≤ k ∧ k < m ∧ sched k = .agent .commit ∧ (runAt P sched s k).st = .commitWr ∧
        (runAt P sched s k).owner = .free ∧ (runAt P sched s m).atBoundary = true ∧
        (∃ sent, (runAt P sched s m).rx = rest ++ sent) ∧
        (runAt P sched s (k + 1)).map = Memory.writeList (runAt P sched s k).map a.toNat d ∧
        (runAt P sched s m).tx = u.tx ++ [a, 0x00#8, a]) ∧
    (∀ (i : Nat) (p : Port), u.ports[i]? = some p → p.req = true →
      ∃ k q r, n ≤ k ∧ sched k = .agent (.consAccess i) ∧ (runAt P sched s k).ports[i]? = some q ∧
        { q.sig with lock := p.sig.lock } = p.sig ∧ r.port = i ∧ r.op = p.sig.op ∧
        (runAt P sched s (k + 1)).results = (runAt P sched s k).results ++ [r])

/-! ### Checksum and accessors -/

/-- `checksum(a ++ b) == checksum(a) XOR checksum(b)` (41_checksum.md R121). -/
def Obligations.ChecksumOfAConcatenation : Prop := ∀ a b : List Byte, xorFold (a ++ b) = xorFold a ^^^ xorFold b

/-- The checksum does not depend on the order of the bytes, and the same bits flipped in two bytes go unseen (41_checksum.md
R122). -/
def Obligations.ChecksumIgnoresOrder : Prop :=
  (∀ s t : List Byte, s.Perm t → xorFold s = xorFold t) ∧
  ∀ (s : List Byte) (i j : Nat) (x y m : Byte), i ≠ j → s[i]? = some x → s[j]? = some y →
    xorFold ((s.set i (x ^^^ m)).set j (y ^^^ m)) = xorFold s

/-- Changing bits of one byte always changes the checksum (41_checksum.md R125). -/
def Obligations.ChecksumSeesOneChangedByte : Prop :=
  ∀ (s : List Byte) (i : Nat) (x m : Byte), s[i]? = some x → m ≠ 0x00#8 →
    xorFold (s.set i (x ^^^ m)) ≠ xorFold s

/-- The codecs are inverse to each other and agree with the byte operations, at every legal address, aligned or not
(40_register_map_accessors.md R106, which the spec derives from R100 to R105). -/
def Obligations.FieldCodecsAreInverse : Prop :=
  ∀ (P : Params) (m : Memory) (a : Nat), Memory.wf P m = true →
    (∀ v : BitVec 16, a + 2 ≤ P.mapSize → ∃ m', writeU16 P m a v = .ok m' ∧ readU16 P m' a = .ok v) ∧
    (∀ v : BitVec 32, a + 4 ≤ P.mapSize → ∃ m', writeU32 P m a v = .ok m' ∧ readU32 P m' a = .ok v ∧
      readBytes P m' a 4 =
        .ok [v.extractLsb' 0 8, v.extractLsb' 8 8, v.extractLsb' 16 8, v.extractLsb' 24 8])

/-- The accessors check the sum alone, over the naturals, and refuse whole: out of range nothing is read or written
(40_register_map_accessors.md R100 to R105, R107). -/
def Obligations.AccessorsRefuseExactlyOutOfRange : Prop :=
  ∀ (P : Params) (m : Memory) (a n : Nat) (d : List Byte) (v : BitVec 16) (w : BitVec 32),
    (readBytes P m a n = .outOfRange ↔ P.mapSize < a + n) ∧ (writeBytes P m a n d = .outOfRange ↔ P.mapSize < a + n) ∧
    (readU16 P m a = .outOfRange ↔ P.mapSize < a + 2) ∧ (readU32 P m a = .outOfRange ↔ P.mapSize < a + 4) ∧
    (writeU16 P m a v = .outOfRange ↔ P.mapSize < a + 2) ∧ (writeU32 P m a w = .outOfRange ↔ P.mapSize < a + 4)
end

