-- ==== Sys2Proof/Laws/Map.lean ====
section
/-! SUPPORT. Laws of the register map: read after write, the canonical form and its uniqueness, and what the accessors can
answer (40_register_map_accessors.md). -/

namespace Sys2Proof.Machine

@[simp] theorem Memory.read_nil (a : Nat) : Memory.read [] a = 0#8 := rfl

theorem Memory.canonicalFrom_mono {lo lo' : Nat} {m : Memory} (h : lo' ≤ lo)
    (hm : Memory.canonicalFrom lo m = true) : Memory.canonicalFrom lo' m = true := by
  cases m with
  | nil => rfl
  | cons c m =>
    simp only [Memory.canonicalFrom, Bool.and_eq_true, decide_eq_true_eq] at hm ⊢
    exact ⟨⟨by omega, hm.1.2⟩, hm.2⟩

/-- Below the lower bound of a canonical list every cell reads 0. -/
theorem Memory.read_of_lt {lo a : Nat} {m : Memory} (hm : Memory.canonicalFrom lo m = true) (h : a < lo) :
    Memory.read m a = 0#8 := by
  induction m generalizing lo with
  | nil => rfl
  | cons c m ih =>
    simp only [Memory.canonicalFrom, Bool.and_eq_true, decide_eq_true_eq] at hm
    have hne : a ≠ c.1 := by omega
    simp only [Memory.read, hne, if_false]
    exact ih hm.2 (by omega)

theorem Memory.write_canonicalFrom {lo a : Nat} {m : Memory} (b : Byte) (hm : Memory.canonicalFrom lo m = true)
    (h : lo ≤ a) : Memory.canonicalFrom lo (Memory.write m a b) = true := by
  induction m generalizing lo with
  | nil => by_cases hb : b = 0#8 <;> simp [Memory.write, Memory.canonicalFrom, hb, h]
  | cons c m ih =>
    have hm' := hm
    simp only [Memory.canonicalFrom, Bool.and_eq_true, decide_eq_true_eq] at hm
    by_cases hlt : a < c.1
    · by_cases hb : b = 0#8
      · simpa [Memory.write, hlt, hb] using hm'
      · simp only [Memory.write, hlt, hb, if_true, if_false, Memory.canonicalFrom, Bool.and_eq_true, decide_eq_true_eq]
        exact ⟨⟨h, hb⟩, ⟨⟨by omega, hm.1.2⟩, hm.2⟩⟩
    · by_cases heq : a = c.1
      · by_cases hb : b = 0#8
        · simp only [Memory.write, heq, hb, if_true, if_false, lt_irrefl]
          exact Memory.canonicalFrom_mono (by omega) hm.2
        · simp only [Memory.write, heq, hb, if_true, if_false, lt_irrefl, Memory.canonicalFrom, Bool.and_eq_true,
            decide_eq_true_eq]
          exact ⟨⟨hm.1.1, hb⟩, hm.2⟩
      · simp only [Memory.write, hlt, heq, if_false, Memory.canonicalFrom, Bool.and_eq_true, decide_eq_true_eq]
        exact ⟨hm.1, ih hm.2 (by omega)⟩

/-- Reading the written cell of a canonical map. -/
theorem Memory.read_write_same {lo a : Nat} {m : Memory} (b : Byte) (hm : Memory.canonicalFrom lo m = true) :
    Memory.read (Memory.write m a b) a = b := by
  induction m generalizing lo with
  | nil => by_cases hb : b = 0#8 <;> simp [Memory.write, Memory.read, hb]
  | cons c m ih =>
    have hm' := hm
    simp only [Memory.canonicalFrom, Bool.and_eq_true, decide_eq_true_eq] at hm
    by_cases hlt : a < c.1
    · have hne : a ≠ c.1 := by omega
      by_cases hb : b = 0#8
      · simp only [Memory.write, hlt, hb, if_true, Memory.read, hne, if_false]
        exact Memory.read_of_lt hm.2 (by omega)
      · simp [Memory.write, hlt, hb, Memory.read]
    · by_cases heq : a = c.1
      · by_cases hb : b = 0#8
        · simp only [Memory.write, heq, hb, if_true, if_false, lt_irrefl]
          exact Memory.read_of_lt hm.2 (by omega)
        · simp [Memory.write, heq, hb, Memory.read]
      · simp only [Memory.write, hlt, heq, if_false, Memory.read]
        exact ih hm.2

/-- A write leaves every other cell alone, in any list. -/
theorem Memory.read_write_other {a x : Nat} (m : Memory) (b : Byte) (h : x ≠ a) :
    Memory.read (Memory.write m a b) x = Memory.read m x := by
  induction m with
  | nil => by_cases hb : b = 0#8 <;> simp [Memory.write, Memory.read, hb, h]
  | cons c m ih =>
    by_cases hlt : a < c.1
    · by_cases hb : b = 0#8 <;> simp [Memory.write, hlt, hb, Memory.read, h]
    · by_cases heq : a = c.1
      · have hx : x ≠ c.1 := fun hc => h (hc.trans heq.symm)
        by_cases hb : b = 0#8 <;> simp [Memory.write, heq, hb, Memory.read, hx]
      · by_cases hx : x = c.1 <;> simp [Memory.write, hlt, heq, Memory.read, hx, ih]

/-- Two canonical maps that read alike everywhere are equal. -/
theorem Memory.ext_of_canonicalFrom {lo : Nat} {m n : Memory} (hm : Memory.canonicalFrom lo m = true)
    (hn : Memory.canonicalFrom lo n = true) (h : ∀ a, Memory.read m a = Memory.read n a) : m = n := by
  induction m generalizing lo n with
  | nil =>
    cases n with
    | nil => rfl
    | cons d n =>
      simp only [Memory.canonicalFrom, Bool.and_eq_true, decide_eq_true_eq] at hn
      have := h d.1
      simp only [Memory.read, if_true] at this
      exact absurd this.symm hn.1.2
  | cons c m ih =>
    have hm0 := hm
    simp only [Memory.canonicalFrom, Bool.and_eq_true, decide_eq_true_eq] at hm
    cases n with
    | nil =>
      have := h c.1
      simp only [Memory.read, if_true] at this
      exact absurd this hm.1.2
    | cons d n =>
      have hn0 := hn
      simp only [Memory.canonicalFrom, Bool.and_eq_true, decide_eq_true_eq] at hn
      have key : c.1 = d.1 := by
        rcases lt_trichotomy c.1 d.1 with hlt | heq | hgt
        · have h1 := h c.1
          have hne : c.1 ≠ d.1 := by omega
          simp only [Memory.read, if_true, hne, if_false] at h1
          rw [Memory.read_of_lt hn.2 (by omega)] at h1
          exact absurd h1 hm.1.2
        · exact heq
        · have h1 := h d.1
          have hne : d.1 ≠ c.1 := by omega
          simp only [Memory.read, if_true, hne, if_false] at h1
          rw [Memory.read_of_lt hm.2 (by omega)] at h1
          exact absurd h1.symm hn.1.2
      have hval : c.2 = d.2 := by
        have h1 := h c.1
        simpa [Memory.read, key] using h1
      have htail : m = n := by
        refine ih hm.2 (by rw [key]; exact hn.2) fun a => ?_
        by_cases ha : a = c.1
        · rw [Memory.read_of_lt hm.2 (by omega), Memory.read_of_lt hn.2 (by omega)]
        · have h1 := h a
          have ha' : a ≠ d.1 := by rw [← key]; exact ha
          simpa [Memory.read, ha, ha'] using h1
      rw [htail, Prod.ext key hval]

/-! ### Sequences of cells -/

@[simp] theorem Memory.readList_length (m : Memory) (a n : Nat) : (Memory.readList m a n).length = n := by
  induction n generalizing a with
  | zero => rfl
  | succ n ih => simp [Memory.readList, ih]

theorem Memory.readList_getElem {m : Memory} {a n k : Nat} (h : k < n) :
    (Memory.readList m a n)[k]'(by simpa using h) = Memory.read m (a + k) := by
  induction n generalizing a k with
  | zero => omega
  | succ n ih =>
    cases k with
    | zero => rfl
    | succ k =>
      simp only [Memory.readList, List.getElem_cons_succ]
      rw [ih (by omega)]
      congr 1
      omega

theorem Memory.writeList_canonicalFrom {lo a : Nat} {m : Memory} (d : List Byte)
    (hm : Memory.canonicalFrom lo m = true) (h : lo ≤ a) :
    Memory.canonicalFrom lo (Memory.writeList m a d) = true := by
  induction d generalizing m a with
  | nil => exact hm
  | cons b d ih => exact ih (Memory.write_canonicalFrom b hm h) (by omega)

/-- Writing a sequence leaves every cell outside its range alone. -/
theorem Memory.read_writeList_other {a x : Nat} (m : Memory) (d : List Byte) (h : x < a ∨ a + d.length ≤ x) :
    Memory.read (Memory.writeList m a d) x = Memory.read m x := by
  induction d generalizing m a with
  | nil => rfl
  | cons b d ih =>
    simp only [List.length_cons] at h
    rw [Memory.writeList, ih _ (by omega), Memory.read_write_other _ _ (by omega)]

/-- The cells of the range hold the sequence. -/
theorem Memory.read_writeList_same {lo a k : Nat} {m : Memory} {d : List Byte}
    (hm : Memory.canonicalFrom lo m = true) (hlo : lo ≤ a) (h : k < d.length) :
    Memory.read (Memory.writeList m a d) (a + k) = d[k] := by
  induction d generalizing m a k with
  | nil => simp at h
  | cons b d ih =>
    have hm' := Memory.write_canonicalFrom b hm hlo
    cases k with
    | zero =>
      rw [Memory.writeList, Memory.read_writeList_other _ _ (by omega)]
      exact Memory.read_write_same b hm
    | succ k =>
      simp only [List.length_cons] at h
      have := ih hm' (by omega : lo ≤ a + 1) (k := k) (by omega)
      simpa [Memory.writeList, Nat.add_assoc, Nat.add_comm 1 k] using this

/-! ### The map as a whole: canonical and inside `MAP_SIZE` -/

theorem Memory.wf_iff {P : Params} {m : Memory} :
    Memory.wf P m = true ↔ Memory.canonicalFrom 0 m = true ∧ ∀ c ∈ m, c.1 < P.mapSize := by
  simp [Memory.wf]

/-- The reset map is well formed. -/
theorem Memory.wf_nil (P : Params) : Memory.wf P [] = true := rfl

theorem Memory.mem_write {m : Memory} {a : Nat} {b : Byte} {c : Host.Cell} (h : c ∈ Memory.write m a b) :
    c ∈ m ∨ c.1 = a := by
  induction m with
  | nil =>
    simp only [Memory.write] at h
    split at h
    · simp at h
    · simp only [List.mem_singleton] at h; exact .inr (by rw [h])
  | cons x m ih =>
    simp only [Memory.write] at h
    split at h
    · split at h
      · exact .inl h
      · rcases List.mem_cons.mp h with h | h
        · exact .inr (by rw [h])
        · exact .inl h
    · split at h
      · split at h
        · exact .inl (List.mem_cons_of_mem _ h)
        · rcases List.mem_cons.mp h with h | h
          · exact .inr (by rw [h])
          · exact .inl (List.mem_cons_of_mem _ h)
      · rcases List.mem_cons.mp h with h | h
        · exact .inl (by rw [h]; exact List.mem_cons_self)
        · rcases ih h with h | h
          · exact .inl (List.mem_cons_of_mem _ h)
          · exact .inr h

/-- One cell written inside the map keeps it well formed. -/
theorem Memory.write_wf {P : Params} {m : Memory} {a : Nat} (b : Byte) (hm : Memory.wf P m = true)
    (h : a < P.mapSize) : Memory.wf P (Memory.write m a b) = true := by
  rw [Memory.wf_iff] at hm ⊢
  refine ⟨Memory.write_canonicalFrom b hm.1 (Nat.zero_le _), fun c hc => ?_⟩
  rcases Memory.mem_write hc with hc | hc
  · exact hm.2 c hc
  · omega

/-- A sequence written inside the map keeps it well formed. -/
theorem Memory.writeList_wf {P : Params} {m : Memory} {a : Nat} (d : List Byte) (hm : Memory.wf P m = true)
    (h : a + d.length ≤ P.mapSize) : Memory.wf P (Memory.writeList m a d) = true := by
  induction d generalizing m a with
  | nil => exact hm
  | cons b d ih =>
    simp only [List.length_cons] at h
    exact ih (Memory.write_wf b hm (by omega)) (by omega)

/-! ### The accessors -/

/-- Everything `read_bytes` can do (R100). -/
theorem readBytes_cases (P : Params) (m : Memory) (a n : Nat) :
    (P.mapSize < a + n ∧ readBytes P m a n = .outOfRange) ∨
    (a + n ≤ P.mapSize ∧ readBytes P m a n = .ok (Memory.readList m a n)) := by
  by_cases h : P.mapSize < a + n
  · exact .inl ⟨h, by simp [readBytes, h]⟩
  · exact .inr ⟨by omega, by simp [readBytes, h]⟩

/-- Everything `write_bytes` can do (R101). -/
theorem writeBytes_cases (P : Params) (m : Memory) (a n : Nat) (d : List Byte) :
    (P.mapSize < a + n ∧ writeBytes P m a n d = .outOfRange) ∨
    (a + n ≤ P.mapSize ∧ writeBytes P m a n d = .ok (Memory.writeList m a (d.take n))) := by
  by_cases h : P.mapSize < a + n
  · exact .inl ⟨h, by simp [writeBytes, h]⟩
  · exact .inr ⟨by omega, by simp [writeBytes, h]⟩

/-- `write_bytes` keeps the map well formed. -/
theorem writeBytes_wf {P : Params} {m m' : Memory} {a n : Nat} {d : List Byte} (hm : Memory.wf P m = true)
    (h : writeBytes P m a n d = .ok m') : Memory.wf P m' = true := by
  rcases writeBytes_cases P m a n d with ⟨-, e⟩ | ⟨hn, e⟩
  · rw [e] at h; cases h
  · rw [e] at h
    cases h
    exact Memory.writeList_wf _ hm (by rw [List.length_take]; omega)

end Sys2Proof.Machine
end

