-- ==== Sys2Proof/Laws/State.lean ====
section
/-! SUPPORT. What each named update does to each field of the state: one lemma per field, each true by unfolding. -/

namespace Sys2Proof.Machine

/-! ### `State.withMap` -/

@[simp] theorem State.withMap_map (s : State) (m : Memory) : (s.withMap m).map = m := rfl
@[simp] theorem State.withMap_st (s : State) (m : Memory) : (s.withMap m).st = s.st := rfl
@[simp] theorem State.withMap_cmd (s : State) (m : Memory) : (s.withMap m).cmd = s.cmd := rfl
@[simp] theorem State.withMap_addr (s : State) (m : Memory) : (s.withMap m).addr = s.addr := rfl
@[simp] theorem State.withMap_len (s : State) (m : Memory) : (s.withMap m).len = s.len := rfl
@[simp] theorem State.withMap_cnt (s : State) (m : Memory) : (s.withMap m).cnt = s.cnt := rfl
@[simp] theorem State.withMap_acc (s : State) (m : Memory) : (s.withMap m).acc = s.acc := rfl
@[simp] theorem State.withMap_buf (s : State) (m : Memory) : (s.withMap m).buf = s.buf := rfl
@[simp] theorem State.withMap_rkind (s : State) (m : Memory) : (s.withMap m).rkind = s.rkind := rfl
@[simp] theorem State.withMap_ridx (s : State) (m : Memory) : (s.withMap m).ridx = s.ridx := rfl
@[simp] theorem State.withMap_owner (s : State) (m : Memory) : (s.withMap m).owner = s.owner := rfl
@[simp] theorem State.withMap_rx (s : State) (m : Memory) : (s.withMap m).rx = s.rx := rfl
@[simp] theorem State.withMap_tx (s : State) (m : Memory) : (s.withMap m).tx = s.tx := rfl
@[simp] theorem State.withMap_diags (s : State) (m : Memory) : (s.withMap m).diags = s.diags := rfl
@[simp] theorem State.withMap_ports (s : State) (m : Memory) : (s.withMap m).ports = s.ports := rfl
@[simp] theorem State.withMap_results (s : State) (m : Memory) : (s.withMap m).results = s.results := rfl
@[simp] theorem State.withMap_freeCount (s : State) (m : Memory) : (s.withMap m).freeCount = s.freeCount := rfl
@[simp] theorem State.withMap_agenda (s : State) (m : Memory) : (s.withMap m).agenda = s.agenda := rfl
@[simp] theorem State.withMap_turns (s : State) (m : Memory) : (s.withMap m).turns = s.turns := rfl

/-! ### `State.goto` -/

@[simp] theorem State.goto_map (s : State) (ph : Phase) : (s.goto ph).map = s.map := rfl
@[simp] theorem State.goto_st (s : State) (ph : Phase) : (s.goto ph).st = ph := rfl
@[simp] theorem State.goto_cmd (s : State) (ph : Phase) : (s.goto ph).cmd = s.cmd := rfl
@[simp] theorem State.goto_addr (s : State) (ph : Phase) : (s.goto ph).addr = s.addr := rfl
@[simp] theorem State.goto_len (s : State) (ph : Phase) : (s.goto ph).len = s.len := rfl
@[simp] theorem State.goto_cnt (s : State) (ph : Phase) : (s.goto ph).cnt = s.cnt := rfl
@[simp] theorem State.goto_acc (s : State) (ph : Phase) : (s.goto ph).acc = s.acc := rfl
@[simp] theorem State.goto_buf (s : State) (ph : Phase) : (s.goto ph).buf = s.buf := rfl
@[simp] theorem State.goto_rkind (s : State) (ph : Phase) : (s.goto ph).rkind = s.rkind := rfl
@[simp] theorem State.goto_ridx (s : State) (ph : Phase) : (s.goto ph).ridx = s.ridx := rfl
@[simp] theorem State.goto_owner (s : State) (ph : Phase) : (s.goto ph).owner = s.owner := rfl
@[simp] theorem State.goto_rx (s : State) (ph : Phase) : (s.goto ph).rx = s.rx := rfl
@[simp] theorem State.goto_tx (s : State) (ph : Phase) : (s.goto ph).tx = s.tx := rfl
@[simp] theorem State.goto_diags (s : State) (ph : Phase) : (s.goto ph).diags = s.diags := rfl
@[simp] theorem State.goto_ports (s : State) (ph : Phase) : (s.goto ph).ports = s.ports := rfl
@[simp] theorem State.goto_results (s : State) (ph : Phase) : (s.goto ph).results = s.results := rfl
@[simp] theorem State.goto_freeCount (s : State) (ph : Phase) : (s.goto ph).freeCount = s.freeCount := rfl
@[simp] theorem State.goto_agenda (s : State) (ph : Phase) : (s.goto ph).agenda = s.agenda := rfl
@[simp] theorem State.goto_turns (s : State) (ph : Phase) : (s.goto ph).turns = s.turns := rfl

/-! ### `State.toHeader` -/

@[simp] theorem State.toHeader_map (s : State) : (s.toHeader).map = s.map := rfl
@[simp] theorem State.toHeader_st (s : State) : (s.toHeader).st = .hdr := rfl
@[simp] theorem State.toHeader_cmd (s : State) : (s.toHeader).cmd = s.cmd := rfl
@[simp] theorem State.toHeader_addr (s : State) : (s.toHeader).addr = s.addr := rfl
@[simp] theorem State.toHeader_len (s : State) : (s.toHeader).len = s.len := rfl
@[simp] theorem State.toHeader_cnt (s : State) : (s.toHeader).cnt = 0#5 := rfl
@[simp] theorem State.toHeader_acc (s : State) : (s.toHeader).acc = s.acc := rfl
@[simp] theorem State.toHeader_buf (s : State) : (s.toHeader).buf = s.buf := rfl
@[simp] theorem State.toHeader_rkind (s : State) : (s.toHeader).rkind = s.rkind := rfl
@[simp] theorem State.toHeader_ridx (s : State) : (s.toHeader).ridx = s.ridx := rfl
@[simp] theorem State.toHeader_owner (s : State) : (s.toHeader).owner = s.owner := rfl
@[simp] theorem State.toHeader_rx (s : State) : (s.toHeader).rx = s.rx := rfl
@[simp] theorem State.toHeader_tx (s : State) : (s.toHeader).tx = s.tx := rfl
@[simp] theorem State.toHeader_diags (s : State) : (s.toHeader).diags = s.diags := rfl
@[simp] theorem State.toHeader_ports (s : State) : (s.toHeader).ports = s.ports := rfl
@[simp] theorem State.toHeader_results (s : State) : (s.toHeader).results = s.results := rfl
@[simp] theorem State.toHeader_freeCount (s : State) : (s.toHeader).freeCount = s.freeCount := rfl
@[simp] theorem State.toHeader_agenda (s : State) : (s.toHeader).agenda = s.agenda := rfl
@[simp] theorem State.toHeader_turns (s : State) : (s.toHeader).turns = s.turns := rfl

/-! ### `State.skipBytes` -/

@[simp] theorem State.skipBytes_map (s : State) (n : Nat) : (s.skipBytes n).map = s.map := rfl
@[simp] theorem State.skipBytes_st (s : State) (n : Nat) : (s.skipBytes n).st = .skip := rfl
@[simp] theorem State.skipBytes_cmd (s : State) (n : Nat) : (s.skipBytes n).cmd = s.cmd := rfl
@[simp] theorem State.skipBytes_addr (s : State) (n : Nat) : (s.skipBytes n).addr = s.addr := rfl
@[simp] theorem State.skipBytes_len (s : State) (n : Nat) : (s.skipBytes n).len = s.len := rfl
@[simp] theorem State.skipBytes_cnt (s : State) (n : Nat) : (s.skipBytes n).cnt = BitVec.ofNat 5 n := rfl
@[simp] theorem State.skipBytes_acc (s : State) (n : Nat) : (s.skipBytes n).acc = s.acc := rfl
@[simp] theorem State.skipBytes_buf (s : State) (n : Nat) : (s.skipBytes n).buf = s.buf := rfl
@[simp] theorem State.skipBytes_rkind (s : State) (n : Nat) : (s.skipBytes n).rkind = s.rkind := rfl
@[simp] theorem State.skipBytes_ridx (s : State) (n : Nat) : (s.skipBytes n).ridx = s.ridx := rfl
@[simp] theorem State.skipBytes_owner (s : State) (n : Nat) : (s.skipBytes n).owner = s.owner := rfl
@[simp] theorem State.skipBytes_rx (s : State) (n : Nat) : (s.skipBytes n).rx = s.rx := rfl
@[simp] theorem State.skipBytes_tx (s : State) (n : Nat) : (s.skipBytes n).tx = s.tx := rfl
@[simp] theorem State.skipBytes_diags (s : State) (n : Nat) : (s.skipBytes n).diags = s.diags := rfl
@[simp] theorem State.skipBytes_ports (s : State) (n : Nat) : (s.skipBytes n).ports = s.ports := rfl
@[simp] theorem State.skipBytes_results (s : State) (n : Nat) : (s.skipBytes n).results = s.results := rfl
@[simp] theorem State.skipBytes_freeCount (s : State) (n : Nat) : (s.skipBytes n).freeCount = s.freeCount := rfl
@[simp] theorem State.skipBytes_agenda (s : State) (n : Nat) : (s.skipBytes n).agenda = s.agenda := rfl
@[simp] theorem State.skipBytes_turns (s : State) (n : Nat) : (s.skipBytes n).turns = s.turns := rfl

/-! ### `State.raise` -/

@[simp] theorem State.raise_map (s : State) (d : Diag) : (s.raise d).map = s.map := rfl
@[simp] theorem State.raise_st (s : State) (d : Diag) : (s.raise d).st = s.st := rfl
@[simp] theorem State.raise_cmd (s : State) (d : Diag) : (s.raise d).cmd = s.cmd := rfl
@[simp] theorem State.raise_addr (s : State) (d : Diag) : (s.raise d).addr = s.addr := rfl
@[simp] theorem State.raise_len (s : State) (d : Diag) : (s.raise d).len = s.len := rfl
@[simp] theorem State.raise_cnt (s : State) (d : Diag) : (s.raise d).cnt = s.cnt := rfl
@[simp] theorem State.raise_acc (s : State) (d : Diag) : (s.raise d).acc = s.acc := rfl
@[simp] theorem State.raise_buf (s : State) (d : Diag) : (s.raise d).buf = s.buf := rfl
@[simp] theorem State.raise_rkind (s : State) (d : Diag) : (s.raise d).rkind = s.rkind := rfl
@[simp] theorem State.raise_ridx (s : State) (d : Diag) : (s.raise d).ridx = s.ridx := rfl
@[simp] theorem State.raise_owner (s : State) (d : Diag) : (s.raise d).owner = s.owner := rfl
@[simp] theorem State.raise_rx (s : State) (d : Diag) : (s.raise d).rx = s.rx := rfl
@[simp] theorem State.raise_tx (s : State) (d : Diag) : (s.raise d).tx = s.tx := rfl
@[simp] theorem State.raise_diags (s : State) (d : Diag) : (s.raise d).diags = s.diags ++ [d] := rfl
@[simp] theorem State.raise_ports (s : State) (d : Diag) : (s.raise d).ports = s.ports := rfl
@[simp] theorem State.raise_results (s : State) (d : Diag) : (s.raise d).results = s.results := rfl
@[simp] theorem State.raise_freeCount (s : State) (d : Diag) : (s.raise d).freeCount = s.freeCount := rfl
@[simp] theorem State.raise_agenda (s : State) (d : Diag) : (s.raise d).agenda = s.agenda := rfl
@[simp] theorem State.raise_turns (s : State) (d : Diag) : (s.raise d).turns = s.turns := rfl

/-! ### `State.emit` -/

@[simp] theorem State.emit_map (s : State) (k : RKind) : (s.emit k).map = s.map := rfl
@[simp] theorem State.emit_st (s : State) (k : RKind) : (s.emit k).st = .resp := rfl
@[simp] theorem State.emit_cmd (s : State) (k : RKind) : (s.emit k).cmd = s.cmd := rfl
@[simp] theorem State.emit_addr (s : State) (k : RKind) : (s.emit k).addr = s.addr := rfl
@[simp] theorem State.emit_len (s : State) (k : RKind) : (s.emit k).len = s.len := rfl
@[simp] theorem State.emit_cnt (s : State) (k : RKind) : (s.emit k).cnt = s.cnt := rfl
@[simp] theorem State.emit_acc (s : State) (k : RKind) : (s.emit k).acc = s.acc := rfl
@[simp] theorem State.emit_buf (s : State) (k : RKind) : (s.emit k).buf = s.buf := rfl
@[simp] theorem State.emit_rkind (s : State) (k : RKind) : (s.emit k).rkind = k := rfl
@[simp] theorem State.emit_ridx (s : State) (k : RKind) : (s.emit k).ridx = 0#5 := rfl
@[simp] theorem State.emit_owner (s : State) (k : RKind) : (s.emit k).owner = s.owner := rfl
@[simp] theorem State.emit_rx (s : State) (k : RKind) : (s.emit k).rx = s.rx := rfl
@[simp] theorem State.emit_tx (s : State) (k : RKind) : (s.emit k).tx = s.tx := rfl
@[simp] theorem State.emit_diags (s : State) (k : RKind) : (s.emit k).diags = s.diags := rfl
@[simp] theorem State.emit_ports (s : State) (k : RKind) : (s.emit k).ports = s.ports := rfl
@[simp] theorem State.emit_results (s : State) (k : RKind) : (s.emit k).results = s.results := rfl
@[simp] theorem State.emit_freeCount (s : State) (k : RKind) : (s.emit k).freeCount = s.freeCount := rfl
@[simp] theorem State.emit_agenda (s : State) (k : RKind) : (s.emit k).agenda = s.agenda := rfl
@[simp] theorem State.emit_turns (s : State) (k : RKind) : (s.emit k).turns = s.turns := rfl

/-! ### `State.loadBuf` -/

@[simp] theorem State.loadBuf_map (s : State) (d : List Byte) : (s.loadBuf d).map = s.map := rfl
@[simp] theorem State.loadBuf_st (s : State) (d : List Byte) : (s.loadBuf d).st = s.st := rfl
@[simp] theorem State.loadBuf_cmd (s : State) (d : List Byte) : (s.loadBuf d).cmd = s.cmd := rfl
@[simp] theorem State.loadBuf_addr (s : State) (d : List Byte) : (s.loadBuf d).addr = s.addr := rfl
@[simp] theorem State.loadBuf_len (s : State) (d : List Byte) : (s.loadBuf d).len = s.len := rfl
@[simp] theorem State.loadBuf_cnt (s : State) (d : List Byte) : (s.loadBuf d).cnt = s.cnt := rfl
@[simp] theorem State.loadBuf_acc (s : State) (d : List Byte) : (s.loadBuf d).acc = s.acc := rfl
@[simp] theorem State.loadBuf_buf (s : State) (d : List Byte) : (s.loadBuf d).buf = bufWrite s.buf 0 d := rfl
@[simp] theorem State.loadBuf_rkind (s : State) (d : List Byte) : (s.loadBuf d).rkind = s.rkind := rfl
@[simp] theorem State.loadBuf_ridx (s : State) (d : List Byte) : (s.loadBuf d).ridx = s.ridx := rfl
@[simp] theorem State.loadBuf_owner (s : State) (d : List Byte) : (s.loadBuf d).owner = s.owner := rfl
@[simp] theorem State.loadBuf_rx (s : State) (d : List Byte) : (s.loadBuf d).rx = s.rx := rfl
@[simp] theorem State.loadBuf_tx (s : State) (d : List Byte) : (s.loadBuf d).tx = s.tx := rfl
@[simp] theorem State.loadBuf_diags (s : State) (d : List Byte) : (s.loadBuf d).diags = s.diags := rfl
@[simp] theorem State.loadBuf_ports (s : State) (d : List Byte) : (s.loadBuf d).ports = s.ports := rfl
@[simp] theorem State.loadBuf_results (s : State) (d : List Byte) : (s.loadBuf d).results = s.results := rfl
@[simp] theorem State.loadBuf_freeCount (s : State) (d : List Byte) : (s.loadBuf d).freeCount = s.freeCount := rfl
@[simp] theorem State.loadBuf_agenda (s : State) (d : List Byte) : (s.loadBuf d).agenda = s.agenda := rfl
@[simp] theorem State.loadBuf_turns (s : State) (d : List Byte) : (s.loadBuf d).turns = s.turns := rfl

/-! ### `State.resetBlock` -/

@[simp] theorem State.resetBlock_map (s : State) : (s.resetBlock).map = [] := rfl
@[simp] theorem State.resetBlock_st (s : State) : (s.resetBlock).st = .hdr := rfl
@[simp] theorem State.resetBlock_cmd (s : State) : (s.resetBlock).cmd = 0#8 := rfl
@[simp] theorem State.resetBlock_addr (s : State) : (s.resetBlock).addr = 0#8 := rfl
@[simp] theorem State.resetBlock_len (s : State) : (s.resetBlock).len = 0#8 := rfl
@[simp] theorem State.resetBlock_cnt (s : State) : (s.resetBlock).cnt = 0#5 := rfl
@[simp] theorem State.resetBlock_acc (s : State) : (s.resetBlock).acc = 0#8 := rfl
@[simp] theorem State.resetBlock_buf (s : State) : (s.resetBlock).buf = Vector.replicate 16 0#8 := rfl
@[simp] theorem State.resetBlock_rkind (s : State) : (s.resetBlock).rkind = .ack := rfl
@[simp] theorem State.resetBlock_ridx (s : State) : (s.resetBlock).ridx = 0#5 := rfl
@[simp] theorem State.resetBlock_owner (s : State) : (s.resetBlock).owner = .free := rfl
@[simp] theorem State.resetBlock_rx (s : State) : (s.resetBlock).rx = s.rx := rfl
@[simp] theorem State.resetBlock_tx (s : State) : (s.resetBlock).tx = s.tx := rfl
@[simp] theorem State.resetBlock_diags (s : State) : (s.resetBlock).diags = s.diags := rfl
@[simp] theorem State.resetBlock_ports (s : State) : (s.resetBlock).ports = s.ports := rfl
@[simp] theorem State.resetBlock_results (s : State) : (s.resetBlock).results = s.results := rfl
@[simp] theorem State.resetBlock_freeCount (s : State) : (s.resetBlock).freeCount = s.freeCount := rfl
@[simp] theorem State.resetBlock_agenda (s : State) : (s.resetBlock).agenda = s.agenda := rfl
@[simp] theorem State.resetBlock_turns (s : State) : (s.resetBlock).turns = s.turns := rfl

/-! ### `takeCommand` -/

@[simp] theorem takeCommand_map (s : State) (b : Byte) : (takeCommand b s).map = s.map := rfl
@[simp] theorem takeCommand_st (s : State) (b : Byte) : (takeCommand b s).st = s.st := rfl
@[simp] theorem takeCommand_cmd (s : State) (b : Byte) : (takeCommand b s).cmd = b := rfl
@[simp] theorem takeCommand_addr (s : State) (b : Byte) : (takeCommand b s).addr = s.addr := rfl
@[simp] theorem takeCommand_len (s : State) (b : Byte) : (takeCommand b s).len = s.len := rfl
@[simp] theorem takeCommand_cnt (s : State) (b : Byte) : (takeCommand b s).cnt = 1#5 := rfl
@[simp] theorem takeCommand_acc (s : State) (b : Byte) : (takeCommand b s).acc = b := rfl
@[simp] theorem takeCommand_buf (s : State) (b : Byte) : (takeCommand b s).buf = s.buf := rfl
@[simp] theorem takeCommand_rkind (s : State) (b : Byte) : (takeCommand b s).rkind = s.rkind := rfl
@[simp] theorem takeCommand_ridx (s : State) (b : Byte) : (takeCommand b s).ridx = s.ridx := rfl
@[simp] theorem takeCommand_owner (s : State) (b : Byte) : (takeCommand b s).owner = s.owner := rfl
@[simp] theorem takeCommand_rx (s : State) (b : Byte) : (takeCommand b s).rx = s.rx := rfl
@[simp] theorem takeCommand_tx (s : State) (b : Byte) : (takeCommand b s).tx = s.tx := rfl
@[simp] theorem takeCommand_diags (s : State) (b : Byte) : (takeCommand b s).diags = s.diags := rfl
@[simp] theorem takeCommand_ports (s : State) (b : Byte) : (takeCommand b s).ports = s.ports := rfl
@[simp] theorem takeCommand_results (s : State) (b : Byte) : (takeCommand b s).results = s.results := rfl
@[simp] theorem takeCommand_freeCount (s : State) (b : Byte) : (takeCommand b s).freeCount = s.freeCount := rfl
@[simp] theorem takeCommand_agenda (s : State) (b : Byte) : (takeCommand b s).agenda = s.agenda := rfl
@[simp] theorem takeCommand_turns (s : State) (b : Byte) : (takeCommand b s).turns = s.turns := rfl

/-! ### `takeAddress` -/

@[simp] theorem takeAddress_map (s : State) (b : Byte) : (takeAddress b s).map = s.map := rfl
@[simp] theorem takeAddress_st (s : State) (b : Byte) : (takeAddress b s).st = s.st := rfl
@[simp] theorem takeAddress_cmd (s : State) (b : Byte) : (takeAddress b s).cmd = s.cmd := rfl
@[simp] theorem takeAddress_addr (s : State) (b : Byte) : (takeAddress b s).addr = b := rfl
@[simp] theorem takeAddress_len (s : State) (b : Byte) : (takeAddress b s).len = s.len := rfl
@[simp] theorem takeAddress_cnt (s : State) (b : Byte) : (takeAddress b s).cnt = 2#5 := rfl
@[simp] theorem takeAddress_acc (s : State) (b : Byte) : (takeAddress b s).acc = s.acc ^^^ b := rfl
@[simp] theorem takeAddress_buf (s : State) (b : Byte) : (takeAddress b s).buf = s.buf := rfl
@[simp] theorem takeAddress_rkind (s : State) (b : Byte) : (takeAddress b s).rkind = s.rkind := rfl
@[simp] theorem takeAddress_ridx (s : State) (b : Byte) : (takeAddress b s).ridx = s.ridx := rfl
@[simp] theorem takeAddress_owner (s : State) (b : Byte) : (takeAddress b s).owner = s.owner := rfl
@[simp] theorem takeAddress_rx (s : State) (b : Byte) : (takeAddress b s).rx = s.rx := rfl
@[simp] theorem takeAddress_tx (s : State) (b : Byte) : (takeAddress b s).tx = s.tx := rfl
@[simp] theorem takeAddress_diags (s : State) (b : Byte) : (takeAddress b s).diags = s.diags := rfl
@[simp] theorem takeAddress_ports (s : State) (b : Byte) : (takeAddress b s).ports = s.ports := rfl
@[simp] theorem takeAddress_results (s : State) (b : Byte) : (takeAddress b s).results = s.results := rfl
@[simp] theorem takeAddress_freeCount (s : State) (b : Byte) : (takeAddress b s).freeCount = s.freeCount := rfl
@[simp] theorem takeAddress_agenda (s : State) (b : Byte) : (takeAddress b s).agenda = s.agenda := rfl
@[simp] theorem takeAddress_turns (s : State) (b : Byte) : (takeAddress b s).turns = s.turns := rfl

/-! ### `takeLength` -/

@[simp] theorem takeLength_map (s : State) (b : Byte) : (takeLength b s).map = s.map := rfl
@[simp] theorem takeLength_st (s : State) (b : Byte) : (takeLength b s).st = s.st := rfl
@[simp] theorem takeLength_cmd (s : State) (b : Byte) : (takeLength b s).cmd = s.cmd := rfl
@[simp] theorem takeLength_addr (s : State) (b : Byte) : (takeLength b s).addr = s.addr := rfl
@[simp] theorem takeLength_len (s : State) (b : Byte) : (takeLength b s).len = b := rfl
@[simp] theorem takeLength_cnt (s : State) (b : Byte) : (takeLength b s).cnt = 0#5 := rfl
@[simp] theorem takeLength_acc (s : State) (b : Byte) : (takeLength b s).acc = s.acc ^^^ b := rfl
@[simp] theorem takeLength_buf (s : State) (b : Byte) : (takeLength b s).buf = s.buf := rfl
@[simp] theorem takeLength_rkind (s : State) (b : Byte) : (takeLength b s).rkind = s.rkind := rfl
@[simp] theorem takeLength_ridx (s : State) (b : Byte) : (takeLength b s).ridx = s.ridx := rfl
@[simp] theorem takeLength_owner (s : State) (b : Byte) : (takeLength b s).owner = s.owner := rfl
@[simp] theorem takeLength_rx (s : State) (b : Byte) : (takeLength b s).rx = s.rx := rfl
@[simp] theorem takeLength_tx (s : State) (b : Byte) : (takeLength b s).tx = s.tx := rfl
@[simp] theorem takeLength_diags (s : State) (b : Byte) : (takeLength b s).diags = s.diags := rfl
@[simp] theorem takeLength_ports (s : State) (b : Byte) : (takeLength b s).ports = s.ports := rfl
@[simp] theorem takeLength_results (s : State) (b : Byte) : (takeLength b s).results = s.results := rfl
@[simp] theorem takeLength_freeCount (s : State) (b : Byte) : (takeLength b s).freeCount = s.freeCount := rfl
@[simp] theorem takeLength_agenda (s : State) (b : Byte) : (takeLength b s).agenda = s.agenda := rfl
@[simp] theorem takeLength_turns (s : State) (b : Byte) : (takeLength b s).turns = s.turns := rfl

/-! ### `State.setPort` -/

@[simp] theorem State.setPort_map (s : State) (i : Nat) (p : Port) : (s.setPort i p).map = s.map := rfl
@[simp] theorem State.setPort_st (s : State) (i : Nat) (p : Port) : (s.setPort i p).st = s.st := rfl
@[simp] theorem State.setPort_cmd (s : State) (i : Nat) (p : Port) : (s.setPort i p).cmd = s.cmd := rfl
@[simp] theorem State.setPort_addr (s : State) (i : Nat) (p : Port) : (s.setPort i p).addr = s.addr := rfl
@[simp] theorem State.setPort_len (s : State) (i : Nat) (p : Port) : (s.setPort i p).len = s.len := rfl
@[simp] theorem State.setPort_cnt (s : State) (i : Nat) (p : Port) : (s.setPort i p).cnt = s.cnt := rfl
@[simp] theorem State.setPort_acc (s : State) (i : Nat) (p : Port) : (s.setPort i p).acc = s.acc := rfl
@[simp] theorem State.setPort_buf (s : State) (i : Nat) (p : Port) : (s.setPort i p).buf = s.buf := rfl
@[simp] theorem State.setPort_rkind (s : State) (i : Nat) (p : Port) : (s.setPort i p).rkind = s.rkind := rfl
@[simp] theorem State.setPort_ridx (s : State) (i : Nat) (p : Port) : (s.setPort i p).ridx = s.ridx := rfl
@[simp] theorem State.setPort_owner (s : State) (i : Nat) (p : Port) : (s.setPort i p).owner = s.owner := rfl
@[simp] theorem State.setPort_rx (s : State) (i : Nat) (p : Port) : (s.setPort i p).rx = s.rx := rfl
@[simp] theorem State.setPort_tx (s : State) (i : Nat) (p : Port) : (s.setPort i p).tx = s.tx := rfl
@[simp] theorem State.setPort_diags (s : State) (i : Nat) (p : Port) : (s.setPort i p).diags = s.diags := rfl
@[simp] theorem State.setPort_ports (s : State) (i : Nat) (p : Port) : (s.setPort i p).ports = s.ports.set i p := rfl
@[simp] theorem State.setPort_results (s : State) (i : Nat) (p : Port) : (s.setPort i p).results = s.results := rfl
@[simp] theorem State.setPort_freeCount (s : State) (i : Nat) (p : Port) : (s.setPort i p).freeCount = s.freeCount := rfl
@[simp] theorem State.setPort_agenda (s : State) (i : Nat) (p : Port) : (s.setPort i p).agenda = s.agenda := rfl
@[simp] theorem State.setPort_turns (s : State) (i : Nat) (p : Port) : (s.setPort i p).turns = s.turns := rfl

/-! ### `State.grant` -/

@[simp] theorem State.grant_map (s : State) (i : Nat) (p : Port) (e : Bool) (r : Option Lanes) : (s.grant i p e r).map = s.map := rfl
@[simp] theorem State.grant_st (s : State) (i : Nat) (p : Port) (e : Bool) (r : Option Lanes) : (s.grant i p e r).st = s.st := rfl
@[simp] theorem State.grant_cmd (s : State) (i : Nat) (p : Port) (e : Bool) (r : Option Lanes) : (s.grant i p e r).cmd = s.cmd := rfl
@[simp] theorem State.grant_addr (s : State) (i : Nat) (p : Port) (e : Bool) (r : Option Lanes) : (s.grant i p e r).addr = s.addr := rfl
@[simp] theorem State.grant_len (s : State) (i : Nat) (p : Port) (e : Bool) (r : Option Lanes) : (s.grant i p e r).len = s.len := rfl
@[simp] theorem State.grant_cnt (s : State) (i : Nat) (p : Port) (e : Bool) (r : Option Lanes) : (s.grant i p e r).cnt = s.cnt := rfl
@[simp] theorem State.grant_acc (s : State) (i : Nat) (p : Port) (e : Bool) (r : Option Lanes) : (s.grant i p e r).acc = s.acc := rfl
@[simp] theorem State.grant_buf (s : State) (i : Nat) (p : Port) (e : Bool) (r : Option Lanes) : (s.grant i p e r).buf = s.buf := rfl
@[simp] theorem State.grant_rkind (s : State) (i : Nat) (p : Port) (e : Bool) (r : Option Lanes) : (s.grant i p e r).rkind = s.rkind := rfl
@[simp] theorem State.grant_ridx (s : State) (i : Nat) (p : Port) (e : Bool) (r : Option Lanes) : (s.grant i p e r).ridx = s.ridx := rfl
@[simp] theorem State.grant_owner (s : State) (i : Nat) (p : Port) (e : Bool) (r : Option Lanes) : (s.grant i p e r).owner = s.owner := rfl
@[simp] theorem State.grant_rx (s : State) (i : Nat) (p : Port) (e : Bool) (r : Option Lanes) : (s.grant i p e r).rx = s.rx := rfl
@[simp] theorem State.grant_tx (s : State) (i : Nat) (p : Port) (e : Bool) (r : Option Lanes) : (s.grant i p e r).tx = s.tx := rfl
@[simp] theorem State.grant_diags (s : State) (i : Nat) (p : Port) (e : Bool) (r : Option Lanes) : (s.grant i p e r).diags = s.diags := rfl
@[simp] theorem State.grant_ports (s : State) (i : Nat) (p : Port) (e : Bool) (r : Option Lanes) : (s.grant i p e r).ports = s.ports.set i { p with req := false } := rfl
@[simp] theorem State.grant_results (s : State) (i : Nat) (p : Port) (e : Bool) (r : Option Lanes) : (s.grant i p e r).results = s.results ++ [⟨i, p.sig.op, e, r⟩] := rfl
@[simp] theorem State.grant_freeCount (s : State) (i : Nat) (p : Port) (e : Bool) (r : Option Lanes) : (s.grant i p e r).freeCount = s.freeCount := rfl
@[simp] theorem State.grant_agenda (s : State) (i : Nat) (p : Port) (e : Bool) (r : Option Lanes) : (s.grant i p e r).agenda = s.agenda := rfl
@[simp] theorem State.grant_turns (s : State) (i : Nat) (p : Port) (e : Bool) (r : Option Lanes) : (s.grant i p e r).turns = s.turns := rfl

/-! ### `State.refuseRead` -/

@[simp] theorem State.refuseRead_map (s : State) (i : Nat) (p : Port) : (s.refuseRead i p).map = s.map := rfl
@[simp] theorem State.refuseRead_st (s : State) (i : Nat) (p : Port) : (s.refuseRead i p).st = s.st := rfl
@[simp] theorem State.refuseRead_cmd (s : State) (i : Nat) (p : Port) : (s.refuseRead i p).cmd = s.cmd := rfl
@[simp] theorem State.refuseRead_addr (s : State) (i : Nat) (p : Port) : (s.refuseRead i p).addr = s.addr := rfl
@[simp] theorem State.refuseRead_len (s : State) (i : Nat) (p : Port) : (s.refuseRead i p).len = s.len := rfl
@[simp] theorem State.refuseRead_cnt (s : State) (i : Nat) (p : Port) : (s.refuseRead i p).cnt = s.cnt := rfl
@[simp] theorem State.refuseRead_acc (s : State) (i : Nat) (p : Port) : (s.refuseRead i p).acc = s.acc := rfl
@[simp] theorem State.refuseRead_buf (s : State) (i : Nat) (p : Port) : (s.refuseRead i p).buf = s.buf := rfl
@[simp] theorem State.refuseRead_rkind (s : State) (i : Nat) (p : Port) : (s.refuseRead i p).rkind = s.rkind := rfl
@[simp] theorem State.refuseRead_ridx (s : State) (i : Nat) (p : Port) : (s.refuseRead i p).ridx = s.ridx := rfl
@[simp] theorem State.refuseRead_owner (s : State) (i : Nat) (p : Port) : (s.refuseRead i p).owner = s.owner := rfl
@[simp] theorem State.refuseRead_rx (s : State) (i : Nat) (p : Port) : (s.refuseRead i p).rx = s.rx := rfl
@[simp] theorem State.refuseRead_tx (s : State) (i : Nat) (p : Port) : (s.refuseRead i p).tx = s.tx := rfl
@[simp] theorem State.refuseRead_diags (s : State) (i : Nat) (p : Port) : (s.refuseRead i p).diags = s.diags := rfl
@[simp] theorem State.refuseRead_ports (s : State) (i : Nat) (p : Port) : (s.refuseRead i p).ports = s.ports.set i { p with req := false } := rfl
@[simp] theorem State.refuseRead_results (s : State) (i : Nat) (p : Port) : (s.refuseRead i p).results = s.results ++ [⟨i, p.sig.op, true, some (Config.unspecifiedRdata s.freeCount)⟩] := rfl
@[simp] theorem State.refuseRead_freeCount (s : State) (i : Nat) (p : Port) : (s.refuseRead i p).freeCount = s.freeCount + 1 := rfl
@[simp] theorem State.refuseRead_agenda (s : State) (i : Nat) (p : Port) : (s.refuseRead i p).agenda = s.agenda := rfl
@[simp] theorem State.refuseRead_turns (s : State) (i : Nat) (p : Port) : (s.refuseRead i p).turns = s.turns := rfl

/-! ### `hostSend` -/

@[simp] theorem hostSend_map (s : State) (bytes : List Byte) : (hostSend bytes s).map = s.map := rfl
@[simp] theorem hostSend_st (s : State) (bytes : List Byte) : (hostSend bytes s).st = s.st := rfl
@[simp] theorem hostSend_cmd (s : State) (bytes : List Byte) : (hostSend bytes s).cmd = s.cmd := rfl
@[simp] theorem hostSend_addr (s : State) (bytes : List Byte) : (hostSend bytes s).addr = s.addr := rfl
@[simp] theorem hostSend_len (s : State) (bytes : List Byte) : (hostSend bytes s).len = s.len := rfl
@[simp] theorem hostSend_cnt (s : State) (bytes : List Byte) : (hostSend bytes s).cnt = s.cnt := rfl
@[simp] theorem hostSend_acc (s : State) (bytes : List Byte) : (hostSend bytes s).acc = s.acc := rfl
@[simp] theorem hostSend_buf (s : State) (bytes : List Byte) : (hostSend bytes s).buf = s.buf := rfl
@[simp] theorem hostSend_rkind (s : State) (bytes : List Byte) : (hostSend bytes s).rkind = s.rkind := rfl
@[simp] theorem hostSend_ridx (s : State) (bytes : List Byte) : (hostSend bytes s).ridx = s.ridx := rfl
@[simp] theorem hostSend_owner (s : State) (bytes : List Byte) : (hostSend bytes s).owner = s.owner := rfl
@[simp] theorem hostSend_rx (s : State) (bytes : List Byte) : (hostSend bytes s).rx = s.rx ++ bytes := rfl
@[simp] theorem hostSend_tx (s : State) (bytes : List Byte) : (hostSend bytes s).tx = s.tx := rfl
@[simp] theorem hostSend_diags (s : State) (bytes : List Byte) : (hostSend bytes s).diags = s.diags := rfl
@[simp] theorem hostSend_ports (s : State) (bytes : List Byte) : (hostSend bytes s).ports = s.ports := rfl
@[simp] theorem hostSend_results (s : State) (bytes : List Byte) : (hostSend bytes s).results = s.results := rfl
@[simp] theorem hostSend_freeCount (s : State) (bytes : List Byte) : (hostSend bytes s).freeCount = s.freeCount := rfl
@[simp] theorem hostSend_agenda (s : State) (bytes : List Byte) : (hostSend bytes s).agenda = s.agenda := rfl
@[simp] theorem hostSend_turns (s : State) (bytes : List Byte) : (hostSend bytes s).turns = s.turns := rfl

/-! ### `State.popEvent` -/

@[simp] theorem State.popEvent_map (s : State) : s.popEvent.map = s.map := by
  cases h : s.agenda <;> simp [State.popEvent, h]
@[simp] theorem State.popEvent_st (s : State) : s.popEvent.st = s.st := by
  cases h : s.agenda <;> simp [State.popEvent, h]
@[simp] theorem State.popEvent_cmd (s : State) : s.popEvent.cmd = s.cmd := by
  cases h : s.agenda <;> simp [State.popEvent, h]
@[simp] theorem State.popEvent_addr (s : State) : s.popEvent.addr = s.addr := by
  cases h : s.agenda <;> simp [State.popEvent, h]
@[simp] theorem State.popEvent_len (s : State) : s.popEvent.len = s.len := by
  cases h : s.agenda <;> simp [State.popEvent, h]
@[simp] theorem State.popEvent_cnt (s : State) : s.popEvent.cnt = s.cnt := by
  cases h : s.agenda <;> simp [State.popEvent, h]
@[simp] theorem State.popEvent_acc (s : State) : s.popEvent.acc = s.acc := by
  cases h : s.agenda <;> simp [State.popEvent, h]
@[simp] theorem State.popEvent_buf (s : State) : s.popEvent.buf = s.buf := by
  cases h : s.agenda <;> simp [State.popEvent, h]
@[simp] theorem State.popEvent_rkind (s : State) : s.popEvent.rkind = s.rkind := by
  cases h : s.agenda <;> simp [State.popEvent, h]
@[simp] theorem State.popEvent_ridx (s : State) : s.popEvent.ridx = s.ridx := by
  cases h : s.agenda <;> simp [State.popEvent, h]
@[simp] theorem State.popEvent_owner (s : State) : s.popEvent.owner = s.owner := by
  cases h : s.agenda <;> simp [State.popEvent, h]
@[simp] theorem State.popEvent_rx (s : State) : s.popEvent.rx = s.rx := by
  cases h : s.agenda <;> simp [State.popEvent, h]
@[simp] theorem State.popEvent_tx (s : State) : s.popEvent.tx = s.tx := by
  cases h : s.agenda <;> simp [State.popEvent, h]
@[simp] theorem State.popEvent_diags (s : State) : s.popEvent.diags = s.diags := by
  cases h : s.agenda <;> simp [State.popEvent, h]
@[simp] theorem State.popEvent_ports (s : State) : s.popEvent.ports = s.ports := by
  cases h : s.agenda <;> simp [State.popEvent, h]
@[simp] theorem State.popEvent_results (s : State) : s.popEvent.results = s.results := by
  cases h : s.agenda <;> simp [State.popEvent, h]
@[simp] theorem State.popEvent_freeCount (s : State) : s.popEvent.freeCount = s.freeCount := by
  cases h : s.agenda <;> simp [State.popEvent, h]
@[simp] theorem State.popEvent_agenda (s : State) : s.popEvent.agenda = s.agenda.tail := by
  cases h : s.agenda <;> simp [State.popEvent, h]
@[simp] theorem State.popEvent_turns (s : State) :
    s.popEvent.turns = if s.agenda = [] then s.turns.pass else s.turns := by
  cases h : s.agenda <;> simp [State.popEvent, h]

end Sys2Proof.Machine
end

