-- ==== Sys2Proof/Laws/Consumer.lean ====
section
/-! SUPPORT. What each step of a consumer port can do, said once, and what it leaves alone. -/

namespace Sys2Proof.Machine

/-- Everything an enabled read access can do (45_consumer_port.md R181, R183). -/
theorem performRead_cases (P : Params) (i : Nat) (p : Port) (s : State) :
    (p.sig.len.toNat ≤ maxPayload ∧ p.sig.addr.toNat + p.sig.len.toNat ≤ P.mapSize ∧
      performRead P i p s =
        s.grant i p false (some (packLanes (Memory.readList s.map p.sig.addr.toNat p.sig.len.toNat)))) ∨
    ((maxPayload < p.sig.len.toNat ∨ P.mapSize < p.sig.addr.toNat + p.sig.len.toNat) ∧
      performRead P i p s = s.refuseRead i p) := by
  by_cases hn : maxPayload < p.sig.len.toNat
  · exact .inr ⟨.inl hn, by simp [performRead, hn]⟩
  · rcases readBytes_cases P s.map p.sig.addr.toNat p.sig.len.toNat with ⟨h, e⟩ | ⟨h, e⟩
    · exact .inr ⟨.inr h, by simp [performRead, hn, e]⟩
    · exact .inl ⟨by omega, h, by simp [performRead, hn, e]⟩

/-- Everything an enabled write access can do (45_consumer_port.md R182, R183). -/
theorem performWrite_cases (P : Params) (i : Nat) (p : Port) (s : State) :
    (p.sig.len.toNat ≤ maxPayload ∧ p.sig.addr.toNat + p.sig.len.toNat ≤ P.mapSize ∧
      performWrite P i p s =
        (s.withMap (Memory.writeList s.map p.sig.addr.toNat (unpackLanes p.sig.wdata p.sig.len.toNat))).grant
          i p false none) ∨
    ((maxPayload < p.sig.len.toNat ∨ P.mapSize < p.sig.addr.toNat + p.sig.len.toNat) ∧
      performWrite P i p s = s.grant i p true none) := by
  by_cases hn : maxPayload < p.sig.len.toNat
  · exact .inr ⟨.inl hn, by simp [performWrite, hn]⟩
  · rcases writeBytes_cases P s.map p.sig.addr.toNat p.sig.len.toNat (unpackLanes p.sig.wdata p.sig.len.toNat)
      with ⟨h, e⟩ | ⟨h, e⟩
    · exact .inr ⟨.inr h, by simp [performWrite, hn, e]⟩
    · refine .inl ⟨by omega, h, ?_⟩
      simp only [performWrite, hn, if_false, e]
      rw [List.take_of_length_le (by simp [unpackLanes])]

/-- Everything `ConsAccess` can do (45_consumer_port.md R180 to R183, 20_memory.md R53). -/
theorem consAccess_cases (P : Params) (i : Nat) (s : State) :
    ((∀ p, s.ports[i]? = some p → p.req = false ∨ s.mayAccess i = false) ∧ consAccess P i s = s) ∨
    (∃ p, s.ports[i]? = some p ∧ p.req = true ∧ s.mayAccess i = true ∧ p.sig.op = 0#1 ∧
      consAccess P i s = performRead P i p s) ∨
    (∃ p, s.ports[i]? = some p ∧ p.req = true ∧ s.mayAccess i = true ∧ p.sig.op ≠ 0#1 ∧
      consAccess P i s = performWrite P i p s) := by
  cases h : s.ports[i]? with
  | none => exact .inl ⟨fun p hp => by simp at hp, by simp [consAccess, h]⟩
  | some p =>
    cases hr : p.req
    · exact .inl ⟨fun q hq => .inl (by cases hq; exact hr), by simp [consAccess, h, hr]⟩
    · cases hm : s.mayAccess i
      · exact .inl ⟨fun q hq => .inr rfl, by simp [consAccess, h, hr, hm]⟩
      · by_cases ho : p.sig.op = 0#1
        · exact .inr (.inl ⟨p, rfl, hr, rfl, ho, by simp [consAccess, h, hr, hm, ho]⟩)
        · exact .inr (.inr ⟨p, rfl, hr, rfl, ho, by simp [consAccess, h, hr, hm, ho]⟩)

/-- A port access touches no register of the engine, not the lock, and not the streams (60_exceptions.md R219). -/
theorem consAccess_frame (P : Params) (i : Nat) (s : State) :
    (consAccess P i s).st = s.st ∧ (consAccess P i s).cmd = s.cmd ∧ (consAccess P i s).addr = s.addr ∧
    (consAccess P i s).len = s.len ∧ (consAccess P i s).cnt = s.cnt ∧ (consAccess P i s).acc = s.acc ∧
    (consAccess P i s).buf = s.buf ∧ (consAccess P i s).rkind = s.rkind ∧ (consAccess P i s).ridx = s.ridx ∧
    (consAccess P i s).owner = s.owner ∧ (consAccess P i s).rx = s.rx ∧ (consAccess P i s).tx = s.tx ∧
    (consAccess P i s).diags = s.diags ∧ (consAccess P i s).agenda = s.agenda ∧ (consAccess P i s).turns = s.turns ∧
    (consAccess P i s).ports.length = s.ports.length := by
  rcases consAccess_cases P i s with ⟨_, e⟩ | ⟨p, _, _, _, _, e⟩ | ⟨p, _, _, _, _, e⟩ <;> rw [e]
  · simp
  · rcases performRead_cases P i p s with ⟨_, _, e⟩ | ⟨_, e⟩ <;> rw [e] <;> simp
  · rcases performWrite_cases P i p s with ⟨_, _, e⟩ | ⟨_, e⟩ <;> rw [e] <;> simp

/-- A port access changes no signal a port drives but `c_req` (45_consumer_port.md R180). -/
theorem consAccess_sigs (P : Params) (i : Nat) (s : State) :
    (consAccess P i s).ports.map Port.sig = s.ports.map Port.sig := by
  have hset : ∀ p : Port, s.ports[i]? = some p →
      (s.ports.set i { p with req := false }).map Port.sig = s.ports.map Port.sig := by
    intro p hp
    apply List.ext_getElem?
    intro j
    rw [List.getElem?_map, List.getElem?_map, List.getElem?_set]
    split
    · rename_i h
      subst h
      split
      · rw [hp]; rfl
      · rename_i h
        rw [List.getElem?_eq_none (by omega)] at hp
        exact absurd hp (by simp)
    · rfl
  rcases consAccess_cases P i s with ⟨_, e⟩ | ⟨p, hp, _, _, _, e⟩ | ⟨p, hp, _, _, _, e⟩ <;> rw [e]
  · rcases performRead_cases P i p s with ⟨_, _, e⟩ | ⟨_, e⟩ <;> rw [e] <;> exact hset p hp
  · rcases performWrite_cases P i p s with ⟨_, _, e⟩ | ⟨_, e⟩ <;> rw [e] <;> exact hset p hp

/-- Everything `ConsAcquire` can do (45_consumer_port.md R184). -/
theorem consAcquire_cases (i : Nat) (s : State) :
    (s.owner = .free ∧ i < s.ports.length ∧ consAcquire i s = { s with owner := .cons i }) ∨
    (¬(s.owner = .free ∧ i < s.ports.length) ∧ consAcquire i s = s) := by
  by_cases h : s.owner = .free ∧ i < s.ports.length
  · exact .inl ⟨h.1, h.2, by simp [consAcquire, h]⟩
  · exact .inr ⟨h, by simp only [consAcquire, h, if_false]⟩

/-- Everything `ConsRelease` can do (45_consumer_port.md R185). -/
theorem consRelease_cases (i : Nat) (s : State) :
    (s.owner = .cons i ∧ consRelease i s = { s with owner := .free }) ∨
    (s.owner ≠ .cons i ∧ consRelease i s = s) := by
  by_cases h : s.owner = .cons i
  · exact .inl ⟨h, by simp [consRelease, h]⟩
  · exact .inr ⟨h, by simp [consRelease, h]⟩

/-- Everything a whole port transaction can do (R186). -/
theorem portTransaction_cases (P : Params) (i : Nat) (s : State) :
    (s.lockLine i = true ∧ portTransaction P i s = consAccess P i (consAcquire i s)) ∨
    (s.lockLine i = false ∧ portTransaction P i s = consRelease i (consAccess P i s)) := by
  cases h : s.lockLine i <;> simp [portTransaction, h]

end Sys2Proof.Machine
end

