-- ==== Sys2Proof/Laws/Engine.lean ====
section
/-! SUPPORT. What each step of the engine can do, said once, and what the engine's steps leave alone. -/

namespace Sys2Proof.Machine

/-- The parameters of this machine are within 00_scope.md R5's bounds. -/
theorem Config.params_ok : Config.params.Ok := by
  have := Config.lastAddress.isLt
  constructor <;> simp only [Config.params, Config.mapSize] <;> omega

theorem atBoundary_iff (s : State) : s.atBoundary = true ↔ s.st = .hdr ∧ s.cnt = 0#5 := by
  simp [State.atBoundary]

/-- The header condition as the three comparisons of 42_framing.md R133. -/
theorem hdrOk_iff {P : Params} {a l : Byte} :
    hdrOk P a l = true ↔ a.toNat < P.mapSize ∧ a.toNat + l.toNat ≤ P.mapSize ∧ l.toNat ≤ 16 := by
  simp [hdrOk, and_assoc]

/-! ### The data buffer -/

theorem bufWrite_toList (v : Vector Byte 16) (k : Nat) (d : List Byte) (h : k + d.length ≤ 16) :
    (bufWrite v k d).toList = v.toList.take k ++ d ++ v.toList.drop (k + d.length) := by
  induction d generalizing v k with
  | nil => simp [bufWrite]
  | cons b d ih =>
    simp only [List.length_cons] at h
    have hk : k < v.toList.length := by simp; omega
    have h1 : (v.toList.set k b).take (k + 1) = v.toList.take k ++ [b] := by
      rw [List.take_add_one, List.take_set_of_le (Nat.le_refl k), List.getElem?_set_self hk, Option.toList_some]
    have h2 : (v.toList.set k b).drop (k + 1 + d.length) = v.toList.drop (k + (d.length + 1)) := by
      rw [List.drop_set_of_lt (by omega)]
      congr 1
      omega
    rw [bufWrite, ih _ _ (by omega), Vector.toList_setIfInBounds, h1, h2]
    simp

/-- A loaded buffer starts with what was loaded. -/
theorem bufWrite_take (v : Vector Byte 16) (d : List Byte) (h : d.length ≤ 16) :
    (bufWrite v 0 d).toList.take d.length = d := by
  rw [bufWrite_toList v 0 d (by omega)]
  simp

/-! ### The steps -/

/-- Everything `RxByte` can do, phase by phase (42_framing.md R130). -/
theorem rxByte_cases (P : Params) (b : Byte) (s : State) :
    (s.st = .hdr ∧ s.cnt = 0#5 ∧ rxByte P b s = takeCommand b s) ∨
    (s.st = .hdr ∧ s.cnt = 1#5 ∧ rxByte P b s = takeAddress b s) ∨
    (s.st = .hdr ∧ s.cnt = 2#5 ∧ rxByte P b s = takeLengthAndDecide P b s) ∨
    (s.st = .hdr ∧ s.cnt ≠ 0#5 ∧ s.cnt ≠ 1#5 ∧ s.cnt ≠ 2#5 ∧ rxByte P b s = s) ∨
    (s.st = .rdCsum ∧ rxByte P b s = rxReadChecksum b s) ∨
    (s.st = .wrPayload ∧ rxByte P b s = rxPayload b s) ∨
    (s.st = .wrCsum ∧ rxByte P b s = rxWriteChecksum b s) ∨
    (s.st = .skip ∧ rxByte P b s = rxSkip s) ∨
    ((s.st = .commitRd ∨ s.st = .commitWr ∨ s.st = .resp) ∧ rxByte P b s = s) := by
  cases h : s.st <;> simp only [rxByte, rxHeader, h, reduceCtorEq, false_and, or_false, true_and, or_true,
    and_true]
  by_cases h0 : s.cnt = 0#5
  · simp [h0]
  · by_cases h1 : s.cnt = 1#5
    · simp [h1]
    · by_cases h2 : s.cnt = 2#5
      · simp [h2]
      · simp [h0, h1, h2]

/-- Everything the third header byte can do (42_framing.md R133 to R138). -/
theorem takeLengthAndDecide_cases (P : Params) (b : Byte) (s : State) :
    (s.cmd = cmdRead ∧ hdrOk P s.addr b = true ∧ takeLengthAndDecide P b s = (takeLength b s).goto .rdCsum) ∨
    (s.cmd = cmdRead ∧ hdrOk P s.addr b = false ∧
      takeLengthAndDecide P b s = ((takeLength b s).skipBytes 1).raise (headerError b)) ∨
    (s.cmd = cmdWrite ∧ hdrOk P s.addr b = true ∧
      takeLengthAndDecide P b s = (takeLength b s).goto (if b = 0#8 then .wrCsum else .wrPayload)) ∨
    (s.cmd = cmdWrite ∧ hdrOk P s.addr b = false ∧ b.toNat ≤ maxPayload ∧
      takeLengthAndDecide P b s = ((takeLength b s).skipBytes (b.toNat + 1)).raise .outOfRange) ∨
    (s.cmd = cmdWrite ∧ hdrOk P s.addr b = false ∧ maxPayload < b.toNat ∧
      takeLengthAndDecide P b s = (takeLength b s).toHeader.raise .lengthTooLarge) ∨
    (s.cmd ≠ cmdRead ∧ s.cmd ≠ cmdWrite ∧
      takeLengthAndDecide P b s = (takeLength b s).toHeader.raise .unknownCommand) := by
  have hne : cmdWrite ≠ cmdRead := by decide
  by_cases hr : s.cmd = cmdRead
  · cases hok : hdrOk P s.addr b <;> simp [takeLengthAndDecide, decideRead, hr, hok]
  · by_cases hw : s.cmd = cmdWrite
    · cases hok : hdrOk P s.addr b
      · by_cases hl : b.toNat ≤ maxPayload
        · simp [takeLengthAndDecide, decideWrite, hw, hne, hok, hl]
        · simp [takeLengthAndDecide, decideWrite, hw, hne, hok, hl, Nat.lt_of_not_le hl]
      · simp [takeLengthAndDecide, decideWrite, hw, hne, hok]
    · simp [takeLengthAndDecide, decideUnknownCommand, hr, hw]

/-- Everything `Commit` can do (43_read_command.md R162, 44_write_command.md R173, 20_memory.md R52). -/
theorem commit_cases (P : Params) (s : State) :
    (s.owner = .free ∧ s.st = .commitRd ∧ commit P s = commitRead P s) ∨
    (s.owner = .free ∧ s.st = .commitWr ∧ commit P s = commitWrite P s) ∨
    (¬(s.owner = .free ∧ (s.st = .commitRd ∨ s.st = .commitWr)) ∧ commit P s = s) := by
  by_cases ho : s.owner = .free
  · cases h : s.st <;> simp [commit, ho, h]
  · simp [commit, ho]

/-- A READ commit with its range inside the map (R162). -/
theorem commitRead_of_le {P : Params} {s : State} (h : s.addr.toNat + s.len.toNat ≤ P.mapSize) :
    commitRead P s = (s.loadBuf (Memory.readList s.map s.addr.toNat s.len.toNat)).emit .data := by
  simp [commitRead, readBytes, Nat.not_lt.mpr h]

/-- A WRITE commit with its range inside the map (R173). -/
theorem commitWrite_of_le {P : Params} {s : State} (h : s.addr.toNat + s.len.toNat ≤ P.mapSize) :
    commitWrite P s = (s.withMap (Memory.writeList s.map s.addr.toNat (s.payload.take s.len.toNat))).emit .ack := by
  simp [commitWrite, writeBytes, Nat.not_lt.mpr h]

/-- Everything `TxByte` can do (42_framing.md R141). -/
theorem txByte_cases (s : State) :
    (s.st ≠ .resp ∧ txByte s = s) ∨
    (s.st = .resp ∧ s.ridx.toNat + 1 = s.respFrame.length ∧
      txByte s = { s with tx := s.tx ++ s.txData.toList, st := .hdr, cnt := 0#5 }) ∨
    (s.st = .resp ∧ s.ridx.toNat + 1 ≠ s.respFrame.length ∧
      txByte s = { s with tx := s.tx ++ s.txData.toList, ridx := s.ridx + 1#5 }) := by
  by_cases h : s.st = .resp
  · by_cases hl : s.ridx.toNat + 1 = s.respFrame.length
    · simp [txByte, h, hl, State.toHeader]
    · simp [txByte, h, hl]
  · simp [txByte, h]

/-- Everything `LinkReset` can do (42_framing.md R144). -/
theorem linkReset_cases (s : State) :
    (s.atBoundary = true ∧ linkReset s = s) ∨
    (s.atBoundary = false ∧ linkReset s = s.toHeader.raise .incompleteFrame) := by
  cases h : s.atBoundary <;> simp [linkReset, h]

/-! ### What the engine's steps leave alone -/

/-- The engine's receiving side touches nothing but its own registers and the diagnostic port. -/
theorem rxByte_frame (P : Params) (b : Byte) (s : State) :
    (rxByte P b s).map = s.map ∧ (rxByte P b s).owner = s.owner ∧ (rxByte P b s).ports = s.ports ∧
    (rxByte P b s).results = s.results ∧ (rxByte P b s).rx = s.rx ∧ (rxByte P b s).tx = s.tx ∧
    (rxByte P b s).freeCount = s.freeCount ∧ (rxByte P b s).agenda = s.agenda ∧ (rxByte P b s).turns = s.turns := by
  rcases rxByte_cases P b s with ⟨_, _, e⟩ | ⟨_, _, e⟩ | ⟨_, _, e⟩ | ⟨_, _, _, _, e⟩ | ⟨_, e⟩ | ⟨_, e⟩ | ⟨_, e⟩ | ⟨_, e⟩ |
    ⟨_, e⟩ <;> rw [e]
  · simp
  · simp
  · rcases takeLengthAndDecide_cases P b s with ⟨_, _, e⟩ | ⟨_, _, e⟩ | ⟨_, _, e⟩ | ⟨_, _, _, e⟩ | ⟨_, _, _, e⟩ | ⟨_, _, e⟩ <;>
      rw [e] <;> simp
  · simp
  · unfold rxReadChecksum; split <;> simp
  · unfold rxPayload; dsimp only; split <;> simp
  · unfold rxWriteChecksum; split <;> simp
  · unfold rxSkip; split <;> simp
  · simp

/-- `Commit` touches nothing but the map, the buffer and the response registers. -/
theorem commit_frame (P : Params) (s : State) :
    (commit P s).owner = s.owner ∧ (commit P s).ports = s.ports ∧ (commit P s).results = s.results ∧
    (commit P s).rx = s.rx ∧ (commit P s).tx = s.tx ∧ (commit P s).diags = s.diags ∧
    (commit P s).freeCount = s.freeCount ∧ (commit P s).agenda = s.agenda ∧ (commit P s).turns = s.turns ∧
    (commit P s).cmd = s.cmd ∧ (commit P s).addr = s.addr ∧ (commit P s).len = s.len ∧
    (commit P s).cnt = s.cnt ∧ (commit P s).acc = s.acc := by
  rcases commit_cases P s with ⟨_, _, e⟩ | ⟨_, _, e⟩ | ⟨_, e⟩ <;> rw [e]
  · unfold commitRead; split <;> simp
  · unfold commitWrite; split <;> simp
  · simp

/-- `TxByte` touches nothing but the TX port, `ridx`, `st` and `cnt`. -/
theorem txByte_frame (s : State) :
    (txByte s).map = s.map ∧ (txByte s).owner = s.owner ∧ (txByte s).ports = s.ports ∧
    (txByte s).results = s.results ∧ (txByte s).rx = s.rx ∧ (txByte s).diags = s.diags ∧
    (txByte s).freeCount = s.freeCount ∧ (txByte s).agenda = s.agenda ∧ (txByte s).turns = s.turns ∧ (txByte s).cmd = s.cmd ∧
    (txByte s).addr = s.addr ∧ (txByte s).len = s.len ∧ (txByte s).acc = s.acc ∧ (txByte s).buf = s.buf ∧
    (txByte s).rkind = s.rkind := by
  rcases txByte_cases s with ⟨_, e⟩ | ⟨_, _, e⟩ | ⟨_, _, e⟩ <;> rw [e] <;> simp

/-- Everything `RxByte` of a waiting byte can do (10_state.md R28). -/
theorem rxStep_cases (P : Params) (s : State) :
    ((s.rx = [] ∨ s.rxReady = false) ∧ rxStep P s = s) ∨
    (∃ b bs, s.rx = b :: bs ∧ s.rxReady = true ∧ rxStep P s = rxByte P b { s with rx := bs }) := by
  cases h : s.rx with
  | nil => exact .inl ⟨.inl rfl, by simp [rxStep, h]⟩
  | cons b bs =>
    cases hr : s.rxReady
    · exact .inl ⟨.inr rfl, by simp [rxStep, h, hr]⟩
    · exact .inr ⟨b, bs, rfl, rfl, by simp [rxStep, h, hr]⟩

/-- Everything a whole request frame can do (log 6). -/
theorem runFrame_cases (P : Params) (bytes : List Byte) (s : State) :
    (s.atBoundary = true ∧ runFrame P bytes s = feed P bytes s) ∨ (s.atBoundary = false ∧ runFrame P bytes s = s) := by
  cases h : s.atBoundary <;> simp [runFrame, h]

/-- Everything the delivery of a response frame can do (log 6). -/
theorem deliver_cases (k : RKind) (bytes : List Byte) (s : State) :
    ((s.st = .resp ∧ s.rkind = k ∧ s.respFrame = bytes) ∧ deliver k bytes s = txBytes maxResponse s) ∨
    (¬(s.st = .resp ∧ s.rkind = k ∧ s.respFrame = bytes) ∧ deliver k bytes s = s) := by
  by_cases h : s.st = .resp ∧ s.rkind = k ∧ s.respFrame = bytes
  · exact .inl ⟨h, by simp [deliver, h]⟩
  · exact .inr ⟨h, by simp only [deliver, h, if_false]⟩

theorem txBytes_of_not_resp (n : Nat) {s : State} (h : s.st ≠ .resp) : txBytes n s = s := by
  induction n with
  | zero => rfl
  | succ n ih => simp [txBytes, txByte, h, ih]

/-- With neither a commit to make nor a response to send, settling does nothing. -/
theorem settle_of_receiving {P : Params} {s : State} (h : s.rxReady = true) : settle P s = s := by
  have hs : s.st ≠ .commitRd ∧ s.st ≠ .commitWr ∧ s.st ≠ .resp := by
    refine ⟨?_, ?_, ?_⟩ <;> intro e <;> simp [State.rxReady, e] at h
  rcases commit_cases P s with ⟨_, e, _⟩ | ⟨_, e, _⟩ | ⟨_, e⟩
  · exact absurd e hs.1
  · exact absurd e hs.2.1
  · rw [settle, e, txBytes_of_not_resp _ hs.2.2]

end Sys2Proof.Machine
end

