-- ==== Sys2Proof/Laws/Frames.lean ====
section
/-! SUPPORT. The engine fed with the parts of a frame, each part said once: a header, bytes to skip, a payload, and a response
taken to its end. -/

namespace Sys2Proof.Machine

@[simp] theorem xorFold_nil : xorFold [] = 0#8 := rfl

/-- Folding from any start is folding from 0, with the start put in. -/
theorem foldl_xor_eq (d : List Byte) (x : Byte) : d.foldl (· ^^^ ·) x = x ^^^ xorFold d := by
  induction d generalizing x with
  | nil => simp
  | cons b d ih =>
    have h0 : xorFold (b :: d) = b ^^^ xorFold d := by
      rw [xorFold, List.foldl_cons, ih, BitVec.zero_xor]
    rw [List.foldl_cons, ih, h0, BitVec.xor_assoc]

@[simp] theorem feed_nil (P : Params) (s : State) : feed P [] s = s := by rw [feed, List.foldl_nil]

@[simp] theorem feed_cons (P : Params) (b : Byte) (bs : List Byte) (s : State) :
    feed P (b :: bs) s = feed P bs (engineByte P s b) := by
  rw [feed, feed, List.foldl_cons]

theorem feed_append (P : Params) (xs ys : List Byte) (s : State) : feed P (xs ++ ys) s = feed P ys (feed P xs s) := by
  rw [feed, feed, feed, List.foldl_append]

/-- A byte after which the engine still receives is just taken. -/
theorem engineByte_of_receiving {P : Params} {s : State} {b : Byte} (h : (rxByte P b s).rxReady = true) :
    engineByte P s b = rxByte P b s := settle_of_receiving h

theorem takeLengthAndDecide_rxReady (P : Params) (b : Byte) (s : State) :
    (takeLengthAndDecide P b s).rxReady = true := by
  rcases takeLengthAndDecide_cases P b s with ⟨_, _, e⟩ | ⟨_, _, e⟩ | ⟨_, _, e⟩ | ⟨_, _, _, e⟩ | ⟨_, _, _, e⟩ | ⟨_, _, e⟩ <;>
    rw [e]
  case inr.inr.inl => by_cases h : b = 0#8 <;> simp [State.rxReady, h]
  all_goals simp [State.rxReady]

/-- A whole header, from a frame boundary (42_framing.md R131 to R133). -/
theorem feed_header (P : Params) (c a l : Byte) (s : State) (h : s.atBoundary = true) :
    feed P [c, a, l] s = takeLengthAndDecide P l { s with cmd := c, addr := a, acc := c ^^^ a, cnt := 2#5 } := by
  obtain ⟨hst, hcnt⟩ := (atBoundary_iff s).mp h
  have h1 : rxByte P c s = { s with cmd := c, acc := c, cnt := 1#5 } := by
    simp [rxByte, rxHeader, hst, hcnt, takeCommand]
  have h2 : rxByte P a { s with cmd := c, acc := c, cnt := 1#5 } =
      { s with cmd := c, addr := a, acc := c ^^^ a, cnt := 2#5 } := by
    simp [rxByte, rxHeader, hst, takeAddress]
  have h3 : rxByte P l { s with cmd := c, addr := a, acc := c ^^^ a, cnt := 2#5 } =
      takeLengthAndDecide P l { s with cmd := c, addr := a, acc := c ^^^ a, cnt := 2#5 } := by
    simp [rxByte, rxHeader, hst]
  rw [feed_cons, engineByte_of_receiving (by rw [h1]; simp [State.rxReady, hst]), h1, feed_cons,
    engineByte_of_receiving (by rw [h2]; simp [State.rxReady, hst]), h2, feed_cons,
    engineByte_of_receiving (by rw [h3]; exact takeLengthAndDecide_rxReady _ _ _), h3, feed_nil]

/-- Exactly the bytes to skip are skipped (42_framing.md R137). -/
theorem feed_skip (P : Params) (bs : List Byte) (s : State) (hst : s.st = .skip) (hcnt : s.cnt.toNat = bs.length)
    (hne : bs ≠ []) : feed P bs s = s.toHeader := by
  induction bs generalizing s with
  | nil => exact absurd rfl hne
  | cons b bs ih =>
    have hr : rxByte P b s = rxSkip s := by simp [rxByte, hst]
    have hready : (rxByte P b s).rxReady = true := by
      rw [hr]; unfold rxSkip; split <;> simp [State.rxReady, hst]
    rw [feed_cons, engineByte_of_receiving hready, hr]
    simp only [List.length_cons] at hcnt
    have hlt := s.cnt.isLt
    cases bs with
    | nil =>
      have h1 : s.cnt = 1#5 := by apply BitVec.eq_of_toNat_eq; simpa using hcnt
      simp [rxSkip, h1]
    | cons b' bs =>
      simp only [List.length_cons] at hcnt
      have h1 : s.cnt ≠ 1#5 := by intro e; rw [e] at hcnt; simp at hcnt
      rw [rxSkip, if_neg h1, ih { s with cnt := s.cnt - 1#5 } hst _ (by simp)]
      · rfl
      · simp only [BitVec.toNat_sub, BitVec.toNat_ofNat, List.length_cons]
        omega

/-- Exactly the payload is received (44_write_command.md R171). -/
theorem feed_payload (P : Params) (d : List Byte) (s : State) (hst : s.st = .wrPayload) (hlen : s.len.toNat ≤ 16)
    (hd : s.cnt.toNat + d.length = s.len.toNat) (hne : d ≠ []) :
    feed P d s =
      { s with
        st := .wrCsum, cnt := BitVec.ofNat 5 (s.len.toNat - 1), buf := bufWrite s.buf s.cnt.toNat d
        acc := s.acc ^^^ xorFold d } := by
  induction d generalizing s with
  | nil => exact absurd rfl hne
  | cons b d ih =>
    simp only [List.length_cons] at hd
    have hr : rxByte P b s = rxPayload b s := by simp [rxByte, hst]
    have hready : (rxByte P b s).rxReady = true := by
      rw [hr]; unfold rxPayload; dsimp only; split <;> simp [State.rxReady, hst]
    have hlt := s.cnt.isLt
    have hx : s.acc ^^^ xorFold (b :: d) = s.acc ^^^ b ^^^ xorFold d := by
      rw [xorFold, List.foldl_cons, foldl_xor_eq, BitVec.zero_xor, BitVec.xor_assoc]
    rw [feed_cons, engineByte_of_receiving hready, hr, hx]
    by_cases hlast : s.cnt.toNat + 1 = s.len.toNat
    · have hd0 : d = [] := List.eq_nil_of_length_eq_zero (by omega)
      subst hd0
      have hc : BitVec.ofNat 5 (s.len.toNat - 1) = s.cnt := by
        apply BitVec.eq_of_toNat_eq
        simp only [BitVec.toNat_ofNat]
        omega
      simp [rxPayload, hlast, State.goto, bufWrite, hc]
    · have hdne : d ≠ [] := by intro e; subst e; simp at hd; omega
      have hc : (s.cnt + 1#5).toNat = s.cnt.toNat + 1 := by
        simp only [BitVec.toNat_add, BitVec.toNat_ofNat]
        omega
      have hp : rxPayload b s =
          { s with buf := s.buf.setIfInBounds s.cnt.toNat b, acc := s.acc ^^^ b, cnt := s.cnt + 1#5 } := by
        simp [rxPayload, hlast]
      rw [hp, ih { s with buf := s.buf.setIfInBounds s.cnt.toNat b, acc := s.acc ^^^ b, cnt := s.cnt + 1#5 } hst hlen
        (by dsimp only; rw [hc]; omega) hdne]
      simp [bufWrite, hc]

/-- A pending response taken to its end: the bytes still to come are on TX, in order, and the engine is back in `HDR`
(42_framing.md R141). -/
theorem txBytes_resp (n : Nat) (s : State) (hst : s.st = .resp) (hi : s.ridx.toNat < s.respFrame.length)
    (hle : s.respFrame.length ≤ 19) (hn : s.respFrame.length ≤ s.ridx.toNat + n) :
    txBytes n s =
      { s with
        st := .hdr, cnt := 0#5, ridx := BitVec.ofNat 5 (s.respFrame.length - 1)
        tx := s.tx ++ s.respFrame.drop s.ridx.toNat } := by
  induction n generalizing s with
  | zero => omega
  | succ n ih =>
    have hdrop : s.respFrame.drop s.ridx.toNat =
        s.respFrame[s.ridx.toNat] :: s.respFrame.drop (s.ridx.toNat + 1) := List.drop_eq_getElem_cons hi
    have htx : s.txData = some s.respFrame[s.ridx.toNat] := List.getElem?_eq_getElem hi
    rw [txBytes]
    rcases txByte_cases s with ⟨h, _⟩ | ⟨_, hl, e⟩ | ⟨_, hl, e⟩
    · exact absurd hst h
    · rw [e, txBytes_of_not_resp _ (by simp), htx, hdrop, ← hl]
      have hr : BitVec.ofNat 5 (s.ridx.toNat + 1 - 1) = s.ridx := by
        apply BitVec.eq_of_toNat_eq
        simp only [BitVec.toNat_ofNat]
        omega
      rw [hr, hl, List.drop_length]
      simp
    · have hc : (s.ridx + 1#5).toNat = s.ridx.toNat + 1 := by
        simp only [BitVec.toNat_add, BitVec.toNat_ofNat]
        omega
      have hf : State.respFrame { s with tx := s.tx ++ s.txData.toList, ridx := s.ridx + 1#5 } = s.respFrame := rfl
      rw [e, ih { s with tx := s.tx ++ s.txData.toList, ridx := s.ridx + 1#5 } hst (by rw [hf]; dsimp only; omega)
        (by rw [hf]; exact hle) (by rw [hf]; dsimp only; omega), hf]
      simp only [hc, htx, hdrop, Option.toList_some, List.append_assoc, List.singleton_append]

end Sys2Proof.Machine
end

