-- ==== Sys2Proof/Laws/PerInstr.lean ====
section
/-! SUPPORT. The family `Length`: the number of bytes of a well-formed instruction's frame is the one spec/opcode_table.json
gives its row (30_encoding.md R81); a port request is no frame. -/

namespace Sys2Proof.Laws

/-- The row's `length_bytes`, at given operands. -/
def tableLength : Instr → Nat
  | .read _ _ _ => 4
  | .write _ l _ => if maxPayload < l.toNat then 3 else 4 + l.toNat
  | .unknown00 _ _ => 3
  | .unknown03 _ _ => 3
  | .unknown04 _ _ _ => 3
  | .unknown08 _ _ _ => 3
  | .unknown10 _ _ _ => 3
  | .unknown20 _ _ _ => 3
  | .unknown40 _ _ _ => 3
  | .unknown80 _ _ _ => 3
  | .data _ l _ _ => 3 + l.toNat
  | .ack _ _ => 3
  | .nack _ _ => 3
  | .consRead _ _ _ _ => 0
  | .consWrite _ _ _ _ _ => 0

/-- A well-formed instruction's frame has its row's length. -/
def Length.Statement (i : Instr) : Prop := i.wf = true → (encode i).bytes.length = tableLength i

theorem Length.read (a l k : Byte) : Length.Statement (.read a l k) := fun _ => rfl

theorem Length.write (a l : Byte) (tail : WriteTail) : Length.Statement (.write a l tail) := by
  intro h
  cases tail with
  | overLength =>
    have hl : maxPayload < l.toNat := by simpa [Instr.wf, Instr.wfAt, WriteTail.fits] using h
    rw [tableLength, if_pos hl]
    rfl
  | complete d k =>
    have hl : l.toNat ≤ maxPayload ∧ d.length = l.toNat := by simpa [Instr.wf, Instr.wfAt, WriteTail.fits] using h
    rw [tableLength, if_neg (Nat.not_lt.mpr hl.1), ← hl.2]
    simp [encode, Encoded.bytes, WriteTail.bytes]
    omega

theorem Length.unknown00 (a l : Byte) : Length.Statement (.unknown00 a l) := fun _ => rfl

theorem Length.unknown03 (a l : Byte) : Length.Statement (.unknown03 a l) := fun _ => rfl

theorem Length.unknown04 (low : BitVec 2) (a l : Byte) : Length.Statement (.unknown04 low a l) := fun _ => rfl

theorem Length.unknown08 (low : BitVec 3) (a l : Byte) : Length.Statement (.unknown08 low a l) := fun _ => rfl

theorem Length.unknown10 (low : BitVec 4) (a l : Byte) : Length.Statement (.unknown10 low a l) := fun _ => rfl

theorem Length.unknown20 (low : BitVec 5) (a l : Byte) : Length.Statement (.unknown20 low a l) := fun _ => rfl

theorem Length.unknown40 (low : BitVec 6) (a l : Byte) : Length.Statement (.unknown40 low a l) := fun _ => rfl

theorem Length.unknown80 (low : BitVec 7) (a l : Byte) : Length.Statement (.unknown80 low a l) := fun _ => rfl

theorem Length.data (a l : Byte) (d : List Byte) (k : Byte) : Length.Statement (.data a l d k) := by
  intro h
  have hl : d.length = l.toNat := by
    simp only [Instr.wf, Instr.wfAt, Bool.and_eq_true, decide_eq_true_eq] at h
    exact h.1.2
  rw [tableLength, ← hl]
  simp [encode, Encoded.bytes]
  omega

theorem Length.ack (a k : Byte) : Length.Statement (.ack a k) := fun _ => rfl

theorem Length.nack (a k : Byte) : Length.Statement (.nack a k) := fun _ => rfl

theorem Length.consRead (i : Nat) (a : Byte) (n : BitVec 5) (lock : Bool) :
    Length.Statement (.consRead i a n lock) := fun _ => rfl

theorem Length.consWrite (i : Nat) (a : Byte) (n : BitVec 5) (w : Lanes) (lock : Bool) :
    Length.Statement (.consWrite i a n w lock) := fun _ => rfl

end Sys2Proof.Laws
end

