-- ==== Sys2Proof/Laws/Runs.lean ====
section
/-! SUPPORT. Runs: with an empty agenda every agent has its turn (20_memory.md R56), every schedule of moves is a run of `step`,
and weak fairness with every lock released does not yet serve a commit (log 20). -/

namespace Sys2Proof.Machine

/-! ### What an instruction leaves of the order of events -/

/-- The same agenda, the same turns and as many ports: what no instruction changes. -/
abbrev SameOrder (s t : State) : Prop :=
  t.agenda = s.agenda ∧ t.turns = s.turns ∧ t.ports.length = s.ports.length

theorem SameOrder.trans {s t u : State} (h : SameOrder s t) (h' : SameOrder t u) : SameOrder s u :=
  ⟨h'.1.trans h.1, h'.2.1.trans h.2.1, h'.2.2.trans h.2.2⟩

theorem rxByte_sameOrder (P : Params) (b : Byte) (s : State) : SameOrder s (rxByte P b s) := by
  have h := rxByte_frame P b s
  exact ⟨h.2.2.2.2.2.2.2.1, h.2.2.2.2.2.2.2.2, by rw [h.2.2.1]⟩

theorem commit_sameOrder (P : Params) (s : State) : SameOrder s (commit P s) := by
  have h := commit_frame P s
  exact ⟨h.2.2.2.2.2.2.2.1, h.2.2.2.2.2.2.2.2.1, by rw [h.2.1]⟩

theorem txBytes_sameOrder (n : Nat) (s : State) : SameOrder s (txBytes n s) := by
  induction n generalizing s with
  | zero => exact ⟨rfl, rfl, rfl⟩
  | succ n ih =>
    have h := txByte_frame s
    exact SameOrder.trans ⟨h.2.2.2.2.2.2.2.1, h.2.2.2.2.2.2.2.2.1, by rw [h.2.2.1]⟩ (ih (txByte s))

theorem settle_sameOrder (P : Params) (s : State) : SameOrder s (settle P s) :=
  (commit_sameOrder P s).trans (txBytes_sameOrder _ _)

theorem feed_sameOrder (P : Params) (bytes : List Byte) (s : State) : SameOrder s (feed P bytes s) := by
  induction bytes generalizing s with
  | nil => rw [feed_nil]; exact ⟨rfl, rfl, rfl⟩
  | cons b bs ih =>
    rw [feed_cons]
    exact ((rxByte_sameOrder P b s).trans (settle_sameOrder P _)).trans (ih _)

theorem runFrame_sameOrder (P : Params) (bytes : List Byte) (s : State) : SameOrder s (runFrame P bytes s) := by
  rcases runFrame_cases P bytes s with ⟨_, e⟩ | ⟨_, e⟩ <;> rw [e]
  · exact feed_sameOrder P bytes s
  · exact ⟨rfl, rfl, rfl⟩

theorem deliver_sameOrder (k : RKind) (bytes : List Byte) (s : State) : SameOrder s (deliver k bytes s) := by
  rcases deliver_cases k bytes s with ⟨_, e⟩ | ⟨_, e⟩ <;> rw [e]
  · exact txBytes_sameOrder _ s
  · exact ⟨rfl, rfl, rfl⟩

theorem consAccess_sameOrder (P : Params) (i : Nat) (s : State) : SameOrder s (consAccess P i s) := by
  have h := consAccess_frame P i s
  exact ⟨h.2.2.2.2.2.2.2.2.2.2.2.2.2.1, h.2.2.2.2.2.2.2.2.2.2.2.2.2.2.1, h.2.2.2.2.2.2.2.2.2.2.2.2.2.2.2⟩

theorem consAcquire_sameOrder (i : Nat) (s : State) : SameOrder s (consAcquire i s) := by
  rcases consAcquire_cases i s with ⟨_, _, e⟩ | ⟨_, e⟩ <;> rw [e] <;> exact ⟨rfl, rfl, rfl⟩

theorem consRelease_sameOrder (i : Nat) (s : State) : SameOrder s (consRelease i s) := by
  rcases consRelease_cases i s with ⟨_, e⟩ | ⟨_, e⟩ <;> rw [e] <;> exact ⟨rfl, rfl, rfl⟩

theorem portTransaction_sameOrder (P : Params) (i : Nat) (s : State) : SameOrder s (portTransaction P i s) := by
  rcases portTransaction_cases P i s with ⟨_, e⟩ | ⟨_, e⟩ <;> rw [e]
  · exact (consAcquire_sameOrder i s).trans (consAccess_sameOrder P i _)
  · exact (consAccess_sameOrder P i s).trans (consRelease_sameOrder i _)

theorem presentAs_sameOrder (s : State) (i : Nat) (f : PortReq → PortReq) : SameOrder s (s.presentAs i f) := by
  unfold State.presentAs
  split <;> simp [SameOrder]

/-- Every instruction completes and leaves the order of events alone. -/
theorem exec_sameOrder (i : Instr) (s : State) : ∃ t, exec i s = .next t ∧ SameOrder s t := by
  cases i
  case data | ack | nack => exact ⟨_, rfl, deliver_sameOrder _ _ _⟩
  case consRead | consWrite =>
    exact ⟨_, rfl, (presentAs_sameOrder _ _ _).trans (portTransaction_sameOrder _ _ _)⟩
  all_goals exact ⟨_, rfl, runFrame_sameOrder _ _ _⟩

/-! ### Turns -/

theorem engineTurn_sameOrder (s : State) : ∃ t, engineTurn s = .next t ∧ SameOrder s t := by
  unfold engineTurn engineFetch
  split
  · rename_i i t h
    have hs : SameOrder s t := by
      repeat' split at h
      all_goals simp only [Option.some.injEq, Prod.mk.injEq, reduceCtorEq] at h
      all_goals (obtain ⟨_, rfl⟩ := h; exact ⟨rfl, rfl, rfl⟩)
    obtain ⟨u, e, hu⟩ := exec_sameOrder i t
    exact ⟨u, e, hs.trans hu⟩
  · refine ⟨_, rfl, ?_⟩
    rcases rxStep_cases Config.params s with ⟨_, e⟩ | ⟨b, bs, _, _, e⟩ <;> rw [engineAdvance, e]
    · exact settle_sameOrder _ _
    · exact SameOrder.trans (t := { s with rx := bs }) ⟨rfl, rfl, rfl⟩
        ((rxByte_sameOrder _ b _).trans (settle_sameOrder _ _))

theorem portTurn_sameOrder (i : Nat) (s : State) : ∃ t, portTurn i s = .next t ∧ SameOrder s t := by
  unfold portTurn
  split
  · exact exec_sameOrder _ s
  · refine ⟨_, rfl, ?_⟩
    split
    · exact consAcquire_sameOrder i s
    · exact consRelease_sameOrder i s

/-- A step with an empty agenda is one turn: the turn is passed on, and the agenda stays empty. -/
theorem step_turn {s : State} (h : s.agenda = []) :
    ∃ t, step s = .next t ∧ t.agenda = [] ∧ t.turns = s.turns.pass ∧ t.ports.length = s.ports.length := by
  have hp : s.popEvent = { s with turns := s.turns.pass } := by simp [State.popEvent, h]
  have hn : s.nextEvent = turnEvent s.ports.length s.turns.agent := by simp [State.nextEvent, h]
  have hk : ∃ t, runEvent (turnEvent s.ports.length s.turns.agent) s.popEvent = .next t ∧
      SameOrder s.popEvent t := by
    unfold turnEvent
    split
    · exact engineTurn_sameOrder _
    · exact portTurn_sameOrder _ _
  obtain ⟨t, e, ha, ht, hl⟩ := hk
  refine ⟨t, by rw [step, hn, e], ?_, ?_, ?_⟩
  · rw [ha, State.popEvent_agenda, h]; rfl
  · rw [ht, hp]
  · rw [hl, hp]

/-- The turns after `k` of them have passed. -/
theorem stepsFrom_turns (k : Nat) {s : State} (h : s.agenda = []) :
    ∃ t, stepsFrom k s = some t ∧ t.agenda = [] ∧ t.turns = Turns.pass^[k] s.turns ∧
      t.ports.length = s.ports.length := by
  induction k generalizing s with
  | zero => exact ⟨s, rfl, h, rfl, rfl⟩
  | succ k ih =>
    obtain ⟨u, e, hu, ht, hl⟩ := step_turn h
    obtain ⟨t, e', ha', ht', hl'⟩ := ih hu
    refine ⟨t, by rw [stepsFrom, e]; exact e', ha', ?_, hl'.trans hl⟩
    rw [ht', ht, Function.iterate_succ_apply]

/-- The free turns end: rotation turn `round` comes. -/
theorem turns_reach_round (t : Turns) : ∃ k, (Turns.pass^[k] t).slack = 0 ∧ (Turns.pass^[k] t).round = t.round := by
  obtain ⟨r, n, d⟩ := t
  induction n generalizing d with
  | zero => exact ⟨0, rfl, rfl⟩
  | succ n ih =>
    obtain ⟨k, h⟩ := ih (d + 1)
    exact ⟨k + 1, by rw [Function.iterate_succ_apply]; exact h⟩

/-- Every later rotation turn comes. -/
theorem turns_reach (m : Nat) (t : Turns) :
    ∃ k, (Turns.pass^[k] t).slack = 0 ∧ (Turns.pass^[k] t).round = t.round + m := by
  induction m with
  | zero => exact turns_reach_round t
  | succ m ih =>
    obtain ⟨k, hs, hr⟩ := ih
    obtain ⟨j, hs', hr'⟩ := turns_reach_round (Turns.pass (Turns.pass^[k] t))
    refine ⟨j + (k + 1), ?_⟩
    rw [Function.iterate_add_apply, Function.iterate_succ_apply' _ k]
    refine ⟨hs', hr'.trans ?_⟩
    simp [Turns.pass, hs, hr, Nat.add_assoc]

/-- Fairness of the machine's own order (20_memory.md R56): from any state with an empty agenda, every agent's turn comes, and
with it comes again and again, since the agenda is then empty too. -/
theorem every_agent_has_its_turn {s : State} (h : s.agenda = []) {a : Nat} (ha : a ≤ s.ports.length) :
    ∃ k t, stepsFrom k s = some t ∧ t.agenda = [] ∧ t.nextEvent = turnEvent s.ports.length a := by
  obtain ⟨k, hs, hr⟩ := turns_reach (s.turns.round * s.ports.length + a) s.turns
  obtain ⟨t, e, hagenda, ht, hl⟩ := stepsFrom_turns k h
  refine ⟨k, t, e, hagenda, ?_⟩
  have hm : (s.turns.round + (s.turns.round * s.ports.length + a)) % (s.ports.length + 1) = a := by
    have : s.turns.round + (s.turns.round * s.ports.length + a) = a + s.turns.round * (s.ports.length + 1) := by ring
    rw [this, Nat.add_mul_mod_self_right]
    exact Nat.mod_eq_of_lt (by omega)
  have hag : t.turns.agent = s.turns.round + (s.turns.round * s.ports.length + a) := by
    rw [ht, Turns.agent, if_pos hs, hr]
  simp only [State.nextEvent, hagenda, hl, hag]
  rw [turnEvent, hm, turnEvent, Nat.mod_eq_of_lt (by omega : a < s.ports.length + 1)]

/-- The turn of every port comes, at which `portTurn` runs the request it presents (45_consumer_port.md R187). -/
theorem every_port_has_its_turn {s : State} (h : s.agenda = []) {i : Nat} (hi : i < s.ports.length) :
    ∃ k t, stepsFrom k s = some t ∧ t.agenda = [] ∧ t.nextEvent = .port i := by
  obtain ⟨k, t, e, ha, hn⟩ := every_agent_has_its_turn h (a := i + 1) hi
  refine ⟨k, t, e, ha, hn.trans ?_⟩
  rw [turnEvent, Nat.mod_eq_of_lt (by omega : i + 1 < s.ports.length + 1)]

/-! ### Schedules of moves -/

/-- A received byte neither reads nor writes the agenda. -/
theorem rxByte_withAgenda (P : Params) (b : Byte) (s : State) (ag : List Event) :
    rxByte P b { s with agenda := ag } = { rxByte P b s with agenda := ag } := by
  obtain ⟨map, st, cmd, addr, len, cnt, acc, buf, rkind, ridx, owner, rx, tx, diags, ports, results, fc, ag', turns⟩ := s
  cases st <;> simp only [rxByte]
  · simp only [rxHeader]
    repeat' split
    all_goals first
      | rfl
      | (simp only [takeLengthAndDecide, decideRead, decideWrite]
         repeat' split
         all_goals rfl)
  · simp only [rxReadChecksum]; split <;> rfl
  · simp only [rxPayload]; split <;> rfl
  · simp only [rxWriteChecksum]; split <;> rfl
  · simp only [rxSkip]; split <;> rfl

/-- No move reads or writes the agenda. -/
theorem perform_withAgenda (P : Params) (s : State) (ag : List Event) (m : Move) :
    m.perform P { s with agenda := ag } = { m.perform P s with agenda := ag } := by
  cases m with
  | present i r =>
    simp only [Move.perform, presentRequest]
    cases s.ports[i]? with
    | none => rfl
    | some p => dsimp only; split <;> rfl
  | driveLock i b =>
    simp only [Move.perform, driveLock]
    cases s.ports[i]? <;> rfl
  | hostSend bytes => rfl
  | agent a =>
    cases a with
    | rxByte =>
      rcases rxStep_cases P s with ⟨h, e⟩ | ⟨b, bs, hb, hr, e⟩
      · rcases rxStep_cases P { s with agenda := ag } with ⟨_, e'⟩ | ⟨b, bs, hb, hr, _⟩
        · simp only [Move.perform, performStep, e, e']
        · rcases h with h | h
          · exact absurd (h.symm.trans hb) (by simp)
          · exact absurd (h.symm.trans hr) (by simp)
      · have e' : rxStep P { s with agenda := ag } = rxByte P b { s with agenda := ag, rx := bs } := by
          rw [rxStep, hb]
          exact if_pos hr
        simp only [Move.perform, performStep, e, e']
        exact rxByte_withAgenda P b { s with rx := bs } ag
    | commit =>
      obtain ⟨map, st, cmd, addr, len, cnt, acc, buf, rkind, ridx, owner, rx, tx, diags, ports, results, fc, ag', turns⟩ := s
      simp only [Move.perform, performStep, commit]
      split
      · cases st <;> simp only [commitRead, commitWrite, State.payload]
        · cases readBytes P map addr.toNat len.toNat <;> rfl
        · cases writeBytes P map addr.toNat len.toNat (buf.toList.take len.toNat) <;> rfl
      · rfl
    | txByte =>
      have hf : State.respFrame { s with agenda := ag } = s.respFrame := rfl
      have ht : State.txData { s with agenda := ag } = s.txData := rfl
      simp only [Move.perform, performStep, txByte, hf, ht]
      split
      · split <;> rfl
      · rfl
    | consAccess i =>
      have hm : State.mayAccess { s with agenda := ag } i = s.mayAccess i := rfl
      simp only [Move.perform, performStep, consAccess, hm]
      cases s.ports[i]? with
      | none => rfl
      | some p =>
        dsimp only
        split
        · split
          · unfold performRead
            dsimp only
            split
            · rfl
            · cases readBytes P s.map p.sig.addr.toNat p.sig.len.toNat <;> rfl
          · unfold performWrite
            dsimp only
            split
            · rfl
            · cases writeBytes P s.map p.sig.addr.toNat p.sig.len.toNat
                (unpackLanes p.sig.wdata p.sig.len.toNat) <;> rfl
        · rfl
    | consAcquire i => simp only [Move.perform, performStep, consAcquire]; split <;> rfl
    | consRelease i => simp only [Move.perform, performStep, consRelease]; split <;> rfl
    | reset => rfl
    | linkReset =>
      have hb : State.atBoundary { s with agenda := ag } = s.atBoundary := rfl
      simp only [Move.perform, performStep, linkReset, hb]
      split <;> rfl

/-- A move on the agenda is what the step does. -/
theorem step_move (s : State) (m : Move) (ag : List Event) :
    step { s with agenda := m.event :: ag } = .next { m.perform Config.params s with agenda := ag } := by
  have h : step { s with agenda := m.event :: ag } = .next (m.perform Config.params { s with agenda := ag }) := by
    cases m <;> rfl
  rw [h, perform_withAgenda]

/-- Every finite part of every schedule is a run of `step`: any order of the agents' steps (20_memory.md R56). -/
theorem stepsFrom_schedule (n : Nat) (sched : Nat → Move) (s : State) :
    stepsFrom n { s with agenda := (List.range n).map fun k => (sched k).event } =
      some { runAt Config.params sched s n with agenda := [] } := by
  induction n generalizing sched s with
  | zero => rfl
  | succ n ih =>
    have hr : ∀ k, runAt Config.params sched s (k + 1) =
        runAt Config.params (fun j => sched (j + 1)) ((sched 0).perform Config.params s) k := by
      intro k
      induction k with
      | zero => rfl
      | succ k ihk => rw [runAt, ihk, runAt]
    rw [List.range_succ_eq_map, List.map_cons, List.map_map, stepsFrom, step_move, hr]
    exact ih (fun j => sched (j + 1)) _

/-! ### What weak fairness leaves open -/

/-- Port 0 takes the lock and gives it back, for ever. -/
def lockEveryOther (n : Nat) : Move := if n % 2 = 0 then .agent (.consAcquire 0) else .agent (.consRelease 0)

/-- A validated WRITE, with one port. -/
def waitingWrite : State := { State.reset with st := .commitWr, ports := [Port.idle] }

theorem runAt_lockEveryOther (P : Params) (k : Nat) :
    runAt P lockEveryOther waitingWrite (2 * k) = waitingWrite ∧
    runAt P lockEveryOther waitingWrite (2 * k + 1) = { waitingWrite with owner := .cons 0 } := by
  induction k with
  | zero => exact ⟨rfl, rfl⟩
  | succ k ih =>
    have he : runAt P lockEveryOther waitingWrite (2 * (k + 1)) = waitingWrite := by
      rw [show 2 * (k + 1) = 2 * k + 1 + 1 by ring, runAt, ih.2, lockEveryOther, if_neg (by omega)]
      rfl
    refine ⟨he, ?_⟩
    rw [runAt, he, lockEveryOther, if_pos (by omega)]
    rfl

/-- The assumptions of 70_reset_and_hazards.md R256, read to the letter, do not serve a commit: with a lock that is always
released but always taken again `Commit` is never enabled for good, and the validated frame waits for ever. So the claim of
progress has `LockComesToRest` as a premise of its own (log 20). -/
theorem fairRun_may_starve_commit (P : Params) :
    FairRun P lockEveryOther waitingWrite ∧ ∀ n, (runAt P lockEveryOther waitingWrite n).st = .commitWr := by
  have hall : ∀ n, runAt P lockEveryOther waitingWrite n = waitingWrite ∨
      runAt P lockEveryOther waitingWrite n = { waitingWrite with owner := .cons 0 } := by
    intro n
    rcases Nat.even_or_odd' n with ⟨k, rfl | rfl⟩
    · exact .inl (runAt_lockEveryOther P k).1
    · exact .inr (runAt_lockEveryOther P k).2
  have hnone : ∀ a : AgentStep, a.enabled waitingWrite = false ∨
      a.enabled { waitingWrite with owner := .cons 0 } = false → WeaklyFair P lockEveryOther waitingWrite a := by
    intro a ha n h
    have h0 := h (2 * n) (by omega)
    have h1 := h (2 * n + 1) (by omega)
    rw [(runAt_lockEveryOther P n).1] at h0
    rw [(runAt_lockEveryOther P n).2] at h1
    rcases ha with ha | ha
    · rw [ha] at h0; exact absurd h0 (by decide)
    · rw [ha] at h1; exact absurd h1 (by decide)
  refine ⟨⟨hnone _ (.inl rfl), hnone _ (.inl rfl), hnone _ (.inr rfl), fun i => hnone _ (.inl ?_), ?_, ?_⟩, ?_⟩
  · rcases i with _ | i <;> rfl
  · intro i n h
    have h1 := (h (2 * n + 1) (by omega)).2.1
    rw [(runAt_lockEveryOther P n).2] at h1
    exact absurd h1 (by decide)
  · intro i n _
    refine ⟨2 * n, by omega, ?_⟩
    rw [(runAt_lockEveryOther P n).1]
    simp [waitingWrite, State.reset]
  · intro n
    rcases hall n with e | e <;> rw [e] <;> rfl

end Sys2Proof.Machine
end

