-- ==== Sys2Proof/Tests/Slice0.lean ====
section
/-! SUPPORT. Small tests. Expected values come from 95_test_vectors.md or are evaluated by hand from the formats of
30_encoding.md; each names its source. Vectors run the operations at the vectors' own parameters, `MAP_SIZE = 64` and
`N_CONS = 2` (95_test_vectors.md section 1). -/

namespace Sys2Proof.Tests
open Sys2Proof Sys2Proof.Machine

/-- The parameters of the vectors. -/
def vec : Params := ⟨64, 2⟩

/-- The vectors' start state with given map: after `Reset`, two idle ports. -/
def start (m : Memory) : State := { State.reset with map := m, ports := [Port.idle, Port.idle] }

/-- A port request with the lock line low. -/
def req (op : BitVec 1) (a : Byte) (n : BitVec 5) (w : Lanes) : Port := ⟨true, ⟨op, a, n, w, false⟩⟩

/-! ### Well-formedness: one ill-formed term for each check -/

theorem test_wf_refuses_tail_after_long_write :
    (Instr.write 0#8 17#8 (.complete (List.replicate 17 0#8) 0#8)).wfAt vec = false := by decide

theorem test_wf_refuses_missing_tail : (Instr.write 0#8 16#8 .overLength).wfAt vec = false := by decide

theorem test_wf_refuses_wrong_payload_length :
    (Instr.write 0#8 2#8 (.complete [1#8] 0#8)).wfAt vec = false := by decide

theorem test_wf_refuses_long_data :
    (Instr.data 0#8 17#8 (List.replicate 17 0#8) 17#8).wfAt vec = false := by decide

theorem test_wf_refuses_wrong_data_length : (Instr.data 0#8 1#8 [] 1#8).wfAt vec = false := by decide

theorem test_wf_refuses_wrong_data_checksum : (Instr.data 0#8 1#8 [7#8] 1#8).wfAt vec = false := by decide

theorem test_wf_refuses_wrong_ack_checksum : (Instr.ack 0x11#8 0x10#8).wfAt vec = false := by decide

theorem test_wf_refuses_wrong_nack_checksum : (Instr.nack 0x11#8 0x11#8).wfAt vec = false := by decide

theorem test_wf_refuses_missing_read_port : (Instr.consRead 2 0#8 1#5 false).wfAt vec = false := by decide

theorem test_wf_refuses_missing_write_port : (Instr.consWrite 2 0#8 1#5 0#128 false).wfAt vec = false := by decide

/-! ### Decoding: each row's word written out byte by byte -/

/-- T2's request: `[0x01][ADDR][LEN][CHECKSUM]` (R71). -/
theorem test_decode_read :
    decode (.request [0x01#8, 0x11#8, 0x04#8, 0x14#8]) = .ok (.read 0x11#8 0x04#8 0x14#8) [] := by decide

/-- T1's request: `[0x02][ADDR][LEN][DATA...][CHECKSUM]` (R72). -/
theorem test_decode_write :
    decode (.request [0x02#8, 0x11#8, 0x04#8, 0x64#8, 0x00#8, 0x00#8, 0x00#8, 0x73#8]) =
      .ok (.write 0x11#8 0x04#8 (.complete [0x64#8, 0x00#8, 0x00#8, 0x00#8] 0x73#8)) [] := by decide

/-- V-W11: a WRITE header with LEN 17 is three bytes (R81). -/
theorem test_decode_long_write :
    decode (.request [0x02#8, 0x00#8, 0x11#8, 0x01#8]) = .ok (.write 0x00#8 0x11#8 .overLength) [0x01#8] := by decide

/-- The eight unknown rows, at the first and last value of each (R80). -/
theorem test_decode_unknown_low_rows :
    decode (.request [0x00#8, 0x11#8, 0x04#8, 0x14#8]) = .ok (.unknown00 0x11#8 0x04#8) [0x14#8] ∧
    decode (.request [0x03#8, 1#8, 2#8]) = .ok (.unknown03 1#8 2#8) [] ∧
    decode (.request [0x04#8, 1#8, 2#8]) = .ok (.unknown04 0#2 1#8 2#8) [] ∧
    decode (.request [0x07#8, 0x55#8, 0xAA#8]) = .ok (.unknown04 3#2 0x55#8 0xAA#8) [] ∧
    decode (.request [0x08#8, 1#8, 2#8]) = .ok (.unknown08 0#3 1#8 2#8) [] ∧
    decode (.request [0x0F#8, 1#8, 2#8]) = .ok (.unknown08 7#3 1#8 2#8) [] := by decide

theorem test_decode_unknown_high_rows :
    decode (.request [0x10#8, 1#8, 2#8]) = .ok (.unknown10 0#4 1#8 2#8) [] ∧
    decode (.request [0x1F#8, 1#8, 2#8]) = .ok (.unknown10 15#4 1#8 2#8) [] ∧
    decode (.request [0x20#8, 1#8, 2#8]) = .ok (.unknown20 0#5 1#8 2#8) [] ∧
    decode (.request [0x3F#8, 1#8, 2#8]) = .ok (.unknown20 31#5 1#8 2#8) [] ∧
    decode (.request [0x40#8, 1#8, 2#8]) = .ok (.unknown40 0#6 1#8 2#8) [] ∧
    decode (.request [0x7F#8, 1#8, 2#8]) = .ok (.unknown40 63#6 1#8 2#8) [] ∧
    decode (.request [0x80#8, 1#8, 2#8]) = .ok (.unknown80 0#7 1#8 2#8) [] ∧
    decode (.request [0xFF#8, 0#8, 0#8]) = .ok (.unknown80 127#7 0#8 0#8) [] := by decide

/-- V-R4's response (R73), T1's ACK (R74), T5's NACK (R75). -/
theorem test_decode_responses :
    decode (.response .data [0x3F#8, 0x01#8, 0x00#8, 0x3E#8]) = .ok (.data 0x3F#8 0x01#8 [0x00#8] 0x3E#8) [] ∧
    decode (.response .ack [0x11#8, 0x00#8, 0x11#8]) = .ok (.ack 0x11#8 0x11#8) [] ∧
    decode (.response .nack [0x11#8, 0xFF#8, 0xEE#8]) = .ok (.nack 0x11#8 0xEE#8) [] := by decide

/-- V-P2's and V-P1's requests as port tuples (R83). -/
theorem test_decode_port :
    decode (.port 1 ⟨0#1, 0x15#8, 4#5, 0#128, false⟩) = .ok (.consRead 1 0x15#8 4#5 false) [] ∧
    decode (.port 0 ⟨1#1, 0x15#8, 4#5, 300#128, false⟩) = .ok (.consWrite 0 0x15#8 4#5 300#128 false) [] := by decide

/-- Refusals by name: a frame cut short (R206), a STATUS no kind has (R76), a response longer than any emitted (R73). -/
theorem test_decode_refuses :
    decode (.request [0x01#8, 0x20#8, 0x04#8]) = .error .incomplete ∧
    decode (.response .ack [0x11#8, 0x01#8, 0x11#8]) = .error .badStatus ∧
    decode (.response .data [0x00#8, 0x11#8]) = .error .responseTooLong := by decide

/-- The table's words: the first byte of a request row, the pattern of a response row, `c_op` of a port row (log 10). -/
theorem test_table_words :
    decodeTableWord 8 0x01 = some (.read 0#8 0#8 0#8) ∧ decodeTableWord 8 0x40 = some (.unknown40 0#6 0#8 0#8) ∧
    decodeTableWord 32 0x14041101 = some (.read 0x11#8 0x04#8 0x14#8) ∧
    decodeTableWord 24 0x110011 = some (.ack 0x11#8 0x11#8) ∧ decodeTableWord 24 0x11FFEE = some (.nack 0x11#8 0xEE#8) ∧
    decodeTableWord 1 1 = some (.consWrite 0 0#8 0#5 0#128 false) := by decide

/-- 95_test_vectors.md P1 lines 1 and 3 (R84, R85). -/
theorem test_notation :
    encode (asmWrite32 0x11#8 100#32) =
      .request [0x02#8, 0x11#8, 0x04#8, 0x64#8, 0x00#8, 0x00#8, 0x00#8, 0x73#8] ∧
    encode (asmWrite16 0x19#8 0x1234#16) = .request [0x02#8, 0x19#8, 0x02#8, 0x34#8, 0x12#8, 0x3F#8] ∧
    encode (asmRead 0x11#8 0x04#8) = .request [0x01#8, 0x11#8, 0x04#8, 0x14#8] := by decide

/-! ### Vectors -/

/-- V-C7 and V-C8. -/
theorem test_checksum :
    xorFold [0x12#8, 0x34#8, 0x56#8, 0x78#8] = 0x08#8 ∧ xorFold [0x78#8, 0x12#8, 0x56#8, 0x34#8] = 0x08#8 := by decide

/-- Rows of 95_test_vectors.md table 3.3, at 64, 256 and 255 cells. -/
theorem test_header_condition :
    hdrOk ⟨64, 0⟩ 0x30#8 16#8 = true ∧ hdrOk ⟨64, 0⟩ 0x31#8 16#8 = false ∧ hdrOk ⟨64, 0⟩ 0x40#8 0#8 = false ∧
    hdrOk ⟨256, 0⟩ 0xFF#8 1#8 = true ∧ hdrOk ⟨256, 0⟩ 0xFF#8 2#8 = false ∧ hdrOk ⟨255, 0⟩ 0xFF#8 0#8 = false := by decide

/-- V-A6 and V-A4. -/
theorem test_accessors :
    writeU32 vec [] 0x3C 0x12345678#32 = .ok [(0x3C, 0x78#8), (0x3D, 0x56#8), (0x3E, 0x34#8), (0x3F, 0x12#8)] ∧
    readU16 vec [(0x15, 0x2C#8), (0x16, 0x01#8)] 0x16 = .ok 0x0001#16 := by decide

set_option maxRecDepth 4000 in
/-- T2: the READ frame of a map that holds 100 at 0x11. -/
theorem test_read :
    (runFrame vec [0x01#8, 0x11#8, 0x04#8, 0x14#8] (start [(0x11, 0x64#8)])).tx =
      [0x11#8, 0x04#8, 0x64#8, 0x00#8, 0x00#8, 0x00#8, 0x71#8] := by decide

set_option maxRecDepth 4000 in
/-- V-R5: out of range, one byte skipped. -/
theorem test_read_out_of_range :
    let t := runFrame vec [0x01#8, 0x3F#8, 0x02#8, 0x3C#8] (start [])
    t.tx = [] ∧ t.diags = [.outOfRange] ∧ t.atBoundary = true := by decide

set_option maxRecDepth 4000 in
/-- T1: the WRITE frame, its map and its ACK. -/
theorem test_write :
    let t := runFrame vec [0x02#8, 0x11#8, 0x04#8, 0x64#8, 0x00#8, 0x00#8, 0x00#8, 0x73#8] (start [])
    t.map = [(0x11, 0x64#8)] ∧ t.tx = [0x11#8, 0x00#8, 0x11#8] := by decide

set_option maxRecDepth 4000 in
/-- T5: a WRITE with a wrong checksum after T1. -/
theorem test_write_nack :
    let t := runFrame vec [0x02#8, 0x11#8, 0x04#8, 0x01#8, 0x02#8, 0x03#8, 0x04#8, 0x12#8] (start [(0x11, 0x64#8)])
    t.map = [(0x11, 0x64#8)] ∧ t.tx = [0x11#8, 0xFF#8, 0xEE#8] := by decide

set_option maxRecDepth 4000 in
/-- V-F1, as the instruction. -/
theorem test_unknown :
    exec (.unknown04 3#2 0x55#8 0xAA#8) (start []) =
      .next { start [] with cmd := 0x07#8, addr := 0x55#8, len := 0xAA#8, acc := 0xF8#8, diags := [.unknownCommand] } := by
  refine congrArg Host.Outcome.next ?_
  decide

/-- V-P1. -/
theorem test_cons_write :
    let t := consAccess vec 0 { start [] with ports := [req 1#1 0x15#8 4#5 300#128, Port.idle] }
    t.map = [(0x15, 0x2C#8), (0x16, 0x01#8)] ∧ t.results = [⟨0, 1#1, false, none⟩] := by decide

/-- V-P2. -/
theorem test_cons_read :
    (consAccess vec 1
      { start [(0x15, 0x2C#8), (0x16, 0x01#8)] with ports := [Port.idle, req 0#1 0x15#8 4#5 0#128] }).results =
      [⟨1, 0#1, false, some 300#128⟩] := by decide

/-- V-P6: with the lock held by port 0, port 1's acquire and access are not enabled. -/
theorem test_lock_excludes :
    let s := { start [] with owner := .cons 0, ports := [Port.idle, req 0#1 0x15#8 4#5 0#128] }
    consAccess vec 1 s = s ∧ consAcquire 1 s = s := by decide

/-- A port's turn with no request: its `c_lock` line takes the lock and gives it back (45_consumer_port.md R186). -/
theorem test_lock_line :
    let s := { start [] with ports := [⟨false, ⟨0#1, 0#8, 0#5, 0#128, true⟩⟩] }
    portTurn 0 s = .next { s with owner := .cons 0 } ∧
    portTurn 0 { start [] with owner := .cons 0 } = .next (start []) := ⟨rfl, rfl⟩

/-- V-X2: a link reset abandons a validated WRITE. -/
theorem test_link_reset :
    let t := linkReset { start [] with st := .commitWr, cmd := 0x02#8, addr := 0x08#8, len := 0x01#8 }
    t.atBoundary = true ∧ t.map = [] ∧ t.diags = [.incompleteFrame] := by decide

/-- V-W14, the stream function: two frames back to back. -/
theorem test_stream :
    runStream vec [] [0x02#8, 0x01#8, 0x01#8, 0x07#8, 0x05#8, 0x01#8, 0x01#8, 0x01#8, 0x01#8] =
      ⟨[(1, 0x07#8)], [0x01#8, 0x00#8, 0x01#8, 0x01#8, 0x01#8, 0x07#8, 0x07#8], []⟩ := by decide

/-! ### Witnesses: for each statement with hypotheses, concrete values that meet them together -/

theorem params_header_ok : hdrOk Config.params 0#8 1#8 = true := by
  have h := Config.params_ok.1
  rw [hdrOk_iff]
  simp only [BitVec.toNat_ofNat]
  omega

theorem params_header_out_of_range : hdrOk Config.params 255#8 16#8 = false := by
  have h := Config.params_ok.2
  rw [Bool.eq_false_iff, ne_eq, hdrOk_iff]
  simp only [BitVec.toNat_ofNat]
  omega

theorem params_header_too_long : hdrOk Config.params 0#8 17#8 = false := by
  rw [Bool.eq_false_iff, ne_eq, hdrOk_iff]
  simp only [BitVec.toNat_ofNat]
  omega

/-- A state with one idle port; the rest as after reset. -/
def onePort : State := { State.reset with ports := [Port.idle] }

/-- A state that differs from reset in what it has sent, and meets the invariant. -/
def sentOne : State := { State.reset with tx := [0#8] }

theorem sentOne_inv : sentOne.Inv Config.params :=
  ⟨rfl, by simp [sentOne, State.PhaseInv, State.reset], by simp [sentOne, State.OwnerInv, State.reset],
    by simp [sentOne, State.reset, Config.params]⟩

theorem witness_DecodeOfEncodeIsTheInstruction :
    (asmRead 0x11#8 0x04#8).wfAt vec = true ∧ (Instr.write 0#8 255#8 .overLength).wfAt vec = true ∧
    (Instr.nack 0xFF#8 0x00#8).wfAt vec = true ∧ (Instr.consWrite 1 0xFF#8 31#5 0#128 true).wfAt vec = true := by decide

theorem witness_DecodedRequestReencodesToItsBytes :
    decode (.request [0x80#8, 0xFF#8, 0xFF#8, 0x01#8]) = .ok (.unknown80 0#7 0xFF#8 0xFF#8) [0x01#8] := by decide

theorem witness_RequestLengthFollowsItsHeader :
    decode (.request [0x02#8, 0x00#8, 0x00#8, 0x02#8]) = .ok (.write 0#8 0#8 (.complete [] 0x02#8)) [] ∧
    decode (.request [0x02#8, 0x00#8, 0x11#8]) = .ok (.write 0#8 0x11#8 .overLength) [] ∧
    decode (.request [0x01#8, 0x00#8, 0xFF#8, 0x02#8]) = .ok (.read 0#8 0xFF#8 0x02#8) [] := by decide

theorem witness_StepRunsTheDecodedInstruction_request :
    let s := { State.reset with rx := [0x03#8, 0#8, 0#8] }
    s.nextEvent = .engine ∧ s.atBoundary = true ∧ decode (.request s.rx) = .ok (.unknown03 0#8 0#8) [] := by decide

theorem witness_StepRunsTheDecodedInstruction_response :
    let s := { State.reset with st := .resp }
    s.nextEvent = .engine ∧ s.st = .resp ∧ decode (.response s.rkind s.respFrame) = .ok (.ack 0#8 0#8) [] := by decide

theorem witness_StepRunsTheDecodedInstruction_port :
    let s := { State.reset with agenda := [.port 0], ports := [req 0#1 0#8 0#5 0#128] }
    s.nextEvent = .port 0 ∧ s.ports[0]? = some (req 0#1 0#8 0#5 0#128) ∧ (req 0#1 0#8 0#5 0#128).req = true := by decide

theorem witness_StepPerformsTheAgentStep :
    { State.reset with agenda := [.agent .reset] }.agenda = [.agent .reset] ∧
    { State.reset with agenda := [.edge ⟨true, false, false, false, none⟩] }.agenda =
      [.edge ⟨true, false, false, false, none⟩] := ⟨rfl, rfl⟩

theorem witness_PlacedRequestWordRunsNext : decodeTableWord 8 0x03 = some (.unknown03 0#8 0#8) := by decide

theorem witness_EveryStepKeepsTheInvariant : sentOne.Inv Config.params ∧ ∃ t, step sentOne = .next t :=
  ⟨sentOne_inv, _, rfl⟩

theorem witness_ReadAnswersWithTheCells :
    State.reset.atBoundary = true ∧ State.reset.owner = .free ∧ hdrOk Config.params 0#8 1#8 = true :=
  ⟨rfl, rfl, params_header_ok⟩

theorem witness_ReadWaitsForTheLock :
    let s := { State.reset with owner := .cons 0 }
    s.atBoundary = true ∧ s.owner = .cons 0 ∧ hdrOk Config.params 0#8 1#8 = true := ⟨rfl, rfl, params_header_ok⟩

theorem witness_ReadWithBadChecksumIsSilent :
    State.reset.atBoundary = true ∧ hdrOk Config.params 0#8 1#8 = true ∧ 0x01#8 ≠ 0x01#8 ^^^ 0#8 ^^^ 1#8 :=
  ⟨rfl, params_header_ok, by decide⟩

theorem witness_ReadWithInvalidHeaderIsSkipped :
    State.reset.atBoundary = true ∧ hdrOk Config.params 255#8 16#8 = false ∧ hdrOk Config.params 0#8 17#8 = false :=
  ⟨rfl, params_header_out_of_range, params_header_too_long⟩

theorem witness_WriteStoresThePayloadAndAcks :
    State.reset.atBoundary = true ∧ State.reset.owner = .free ∧ hdrOk Config.params 0#8 1#8 = true ∧
    [5#8].length = (1#8).toNat := ⟨rfl, rfl, params_header_ok, rfl⟩

theorem witness_WrittenMapHoldsThePayloadAndNothingElse :
    Memory.wf Config.params [] = true ∧ 0 + [5#8].length ≤ Config.mapSize :=
  ⟨rfl, Config.params_ok.1⟩

theorem witness_WriteWaitsForTheLock :
    let s := { State.reset with owner := .cons 0 }
    s.atBoundary = true ∧ s.owner = .cons 0 ∧ hdrOk Config.params 0#8 1#8 = true ∧ [5#8].length = (1#8).toNat :=
  ⟨rfl, rfl, params_header_ok, rfl⟩

theorem witness_WriteWithBadChecksumIsNacked :
    State.reset.atBoundary = true ∧ hdrOk Config.params 0#8 1#8 = true ∧ [5#8].length = (1#8).toNat ∧
    0#8 ≠ 0x02#8 ^^^ 0#8 ^^^ 1#8 ^^^ xorFold [5#8] := ⟨rfl, params_header_ok, rfl, by decide⟩

theorem witness_WriteOutOfRangeIsSkipped :
    State.reset.atBoundary = true ∧ hdrOk Config.params 255#8 16#8 = false ∧ (16#8).toNat ≤ 16 ∧
    (List.replicate 16 0#8).length = (16#8).toNat := ⟨rfl, params_header_out_of_range, by decide, by decide⟩

theorem witness_WriteTooLongIsAbandoned : State.reset.atBoundary = true ∧ 16 < (17#8).toNat := by decide

theorem witness_ReadAfterWriteReturnsTheWrittenBytes :
    sentOne.Inv Config.params ∧ sentOne.atBoundary = true ∧ sentOne.owner = .free ∧
    hdrOk Config.params 0#8 1#8 = true ∧ [5#8].length = (1#8).toNat :=
  ⟨sentOne_inv, rfl, rfl, params_header_ok, rfl⟩

theorem witness_UnknownCommandsTakeThreeBytes : State.reset.atBoundary = true := rfl

theorem witness_FramesOutOfTurnWait :
    encode (.unknown00 0#8 0#8) = .request [0#8, 0#8, 0#8] ∧ { State.reset with st := .resp }.atBoundary = false ∧
    encode (.ack 0#8 0#8) = .response .ack [0#8, 0#8, 0#8] ∧
    ¬(State.reset.st = .resp ∧ State.reset.rkind = .ack ∧ State.reset.respFrame = [0#8, 0#8, 0#8]) := by decide

theorem witness_PendingAckOrNackIsDelivered :
    let s := { State.reset with st := .resp, ridx := 2#5 }
    s.st = .resp ∧ s.addr = 0#8 ∧ s.ridx.toNat < 3 ∧ s.rkind = .ack ∧ { s with rkind := .nack }.rkind = .nack := by decide

theorem witness_PendingDataIsDelivered :
    let s := { State.reset with st := .resp, rkind := .data, len := 16#8, ridx := 18#5 }
    s.st = .resp ∧ s.rkind = .data ∧ s.addr = 0#8 ∧ s.len = 16#8 ∧ (16#8).toNat ≤ 16 ∧
    s.payload = List.replicate 16 0#8 ∧ s.ridx.toNat < (16#8).toNat + 3 := by decide

theorem witness_ConsReadReturnsTheCells :
    onePort.ports[0]? = some Port.idle ∧ (onePort.owner = .free ∨ onePort.owner = .cons 0) ∧ (1#5).toNat ≤ 16 ∧
    (0#8).toNat + (1#5).toNat ≤ Config.mapSize := ⟨rfl, .inl rfl, by decide, Config.params_ok.1⟩

theorem witness_ConsReadOutOfRangeIsRefused :
    onePort.ports[0]? = some Port.idle ∧ (onePort.owner = .free ∨ onePort.owner = .cons 0) ∧ 16 < (17#5).toNat ∧
    Config.mapSize < (255#8).toNat + (16#5).toNat := by
  refine ⟨rfl, .inl rfl, by decide, ?_⟩
  have h : Config.mapSize ≤ 256 := Config.params_ok.2
  simp only [BitVec.toNat_ofNat]
  omega

theorem witness_ConsWriteStoresTheLanes :
    onePort.ports[0]? = some Port.idle ∧
    ({ onePort with owner := .cons 0 }.owner = .free ∨ { onePort with owner := .cons 0 }.owner = .cons 0) ∧
    (0#5).toNat ≤ 16 ∧ (0#8).toNat + (0#5).toNat ≤ Config.mapSize := ⟨rfl, .inr rfl, by decide, Nat.zero_le _⟩

theorem witness_ConsWriteOutOfRangeIsRefused :
    onePort.ports[0]? = some Port.idle ∧ (onePort.owner = .free ∨ onePort.owner = .cons 0) ∧
    (16 < (31#5).toNat ∨ Config.mapSize < (0#8).toNat + (31#5).toNat) := ⟨rfl, .inl rfl, .inl (by decide)⟩

theorem witness_ConsAccessWaitsForTheLock :
    let s := { onePort with owner := .cons 1 }
    s.ports[0]? = some Port.idle ∧ s.owner = .cons 1 ∧ 1 ≠ 0 := ⟨rfl, rfl, by decide⟩

theorem witness_LanesCarryTheBytesInOrder :
    readU16 vec [] 62 = .ok 0#16 ∧ readU32 vec [] 60 = .ok 0#32 ∧ (List.replicate 16 0#8).length ≤ 16 := by decide

theorem witness_PresentedRequestStaysUntilPerformed :
    let s := { onePort with ports := [req 0#1 0#8 0#5 0#128] }
    s.ports[0]? = some (req 0#1 0#8 0#5 0#128) ∧ (req 0#1 0#8 0#5 0#128).req = true ∧
    AgentStep.commit ≠ .consAccess 0 := by decide

theorem witness_AcquireTakesTheLockAlone :
    0 < onePort.ports.length ∧ onePort.owner = .free ∧ { onePort with owner := .cons 0 }.owner = .cons 0 ∧
    { onePort with owner := .cons 0 }.owner ≠ .free ∧ 1 ≠ 0 := by decide

theorem witness_ReleaseFreesTheLock :
    { onePort with owner := .cons 0 }.owner = .cons 0 ∧ onePort.owner ≠ .cons 0 := by decide

theorem witness_HeldLockKeepsOthersOffTheMap :
    { onePort with owner := .cons 0 }.owner = .cons 0 ∧ AgentStep.commit ≠ .reset ∧ AgentStep.commit ≠ .consRelease 0 ∧
    AgentStep.commit ≠ .consAccess 0 := by decide

theorem witness_HeldLockStallsTheLink :
    let s := { onePort with owner := .cons 0, st := .commitWr }
    s.owner = .cons 0 ∧ (s.st = .commitRd ∨ s.st = .commitWr) ∧ AgentStep.commit ≠ .reset ∧
    AgentStep.commit ≠ .linkReset ∧ AgentStep.commit ≠ .consRelease 0 := by decide

theorem witness_FirstTwoHeaderBytesAreHeld :
    State.reset.st = .hdr ∧ State.reset.cnt = 0#5 ∧ { State.reset with cnt := 1#5 }.st = .hdr ∧
    { State.reset with cnt := 1#5 }.cnt = 1#5 := by decide

theorem witness_HeaderIsDecidedInTheStatedOrder :
    let s := { State.reset with cnt := 2#5 }
    s.st = .hdr ∧ s.cnt = 2#5 := by decide

/-- A payload of one byte at the last legal count, and the first of sixteen. -/
theorem witness_PayloadAndChecksumBytesAreTaken :
    let s := { State.reset with st := .wrPayload, len := 1#8 }
    s.st = .wrPayload ∧ s.cnt.toNat < s.len.toNat ∧ s.len.toNat ≤ 16 ∧
    { s with len := 16#8, cnt := 15#5 }.cnt.toNat < 16 ∧ { s with st := .rdCsum }.st = .rdCsum ∧
    { s with st := .wrCsum }.st = .wrCsum := by decide

theorem witness_SkippedByteIsDiscarded : { State.reset with st := .skip, cnt := 17#5 }.st = .skip := by decide

theorem witness_NoByteIsTakenDuringATransaction :
    let s := { State.reset with st := .resp }
    s.st = .commitRd ∨ s.st = .commitWr ∨ s.st = .resp := by decide

theorem witness_ReadCommitSnapshotsTheCells :
    let s := { State.reset with st := .commitRd, len := 16#8 }
    s.st = .commitRd ∧ hdrOk vec s.addr s.len = true ∧ s.owner = .free ∧ { s with owner := .cons 0 }.owner ≠ .free := by
  decide

theorem witness_WriteCommitStoresTheBuffer :
    let s := { State.reset with st := .commitWr, addr := 63#8, len := 1#8 }
    s.st = .commitWr ∧ hdrOk vec s.addr s.len = true ∧ Memory.wf vec s.map = true ∧ s.owner = .free ∧
    { s with owner := .cons 0 }.owner ≠ .free := by decide

theorem witness_LinkResetAbandonsTheTransaction :
    (⟨true, true, false, false, none⟩ : Pins).rst = true ∧ (⟨true, true, false, false, none⟩ : Pins).linkRst = true := by
  decide

theorem witness_ResetClearsTheBlock : (⟨true, false, true, true, some .engine⟩ : Pins).rst = true := rfl

theorem witness_LinkResetSparesThePortsAtAClockEdge :
    let p : Pins := ⟨false, true, true, true, some (.port 0)⟩
    p.rst = false ∧ p.linkRst = true ∧ p.grant ≠ some .engine ∧
    { p with grant := some .engine }.grant = some .engine := by decide

theorem witness_CellsChangeOnlyByWholeWrites :
    let s := { start [] with ports := [req 1#1 0x15#8 4#5 300#128, Port.idle] }
    let t := { start [] with st := .commitWr, addr := 63#8, len := 1#8, buf := Vector.replicate 16 5#8 }
    let r := start [(0, 1#8)]
    (performStep vec s (.consAccess 0)).map ≠ s.map ∧ (performStep vec t .commit).map ≠ t.map ∧
    (performStep vec r .reset).map ≠ r.map := by decide

theorem witness_ResponsesFollowADecidedChecksum :
    let s := { State.reset with st := .wrCsum, rx := [1#8] }
    let t := performStep vec s .rxByte
    t.st = .resp ∧ (performStep vec { s with acc := 1#8 } .rxByte).st = .commitWr ∧
    (performStep vec { s with st := .rdCsum, acc := 1#8 } .rxByte).st = .commitRd ∧
    (performStep vec t .txByte).tx ≠ t.tx := by decide

/-- The first and the last byte of an ACK. -/
theorem witness_PendingResponseLeavesByteByByte :
    let s := { State.reset with st := .resp }
    State.reset.st ≠ .resp ∧ s.st = .resp ∧ s.respFrame[s.ridx.toNat]? = some 0#8 ∧
    { s with ridx := 2#5 }.respFrame[2]? = some 0#8 ∧ AgentStep.commit ≠ .reset ∧ AgentStep.commit ≠ .txByte ∧
    AgentStep.commit ≠ .linkReset := by decide

theorem witness_EarlierFramesLeaveNoTrace : State.reset.atBoundary = true := rfl

theorem witness_EngineIsTheStreamFunction : State.reset.atBoundary = true ∧ State.reset.owner = .free := ⟨rfl, rfl⟩

theorem witness_RequestIsARunOfAgentSteps :
    (asmRead 0#8 1#8).wf = true ∧ encode (asmRead 0#8 1#8) = .request [1#8, 0#8, 1#8, 0#8] ∧
    State.reset.atBoundary = true := ⟨rfl, by decide, rfl⟩

/-- The host's bytes, the commit, the response and port 0 in rotation. -/
def rotation (n : Nat) : Move :=
  match n % 4 with
  | 0 => .agent .rxByte
  | 1 => .agent .commit
  | 2 => .agent .txByte
  | _ => .agent (.consAccess 0)

theorem rotation_comes (n : Nat) :
    (∃ m, n ≤ m ∧ rotation m = .agent .rxByte) ∧ (∃ m, n ≤ m ∧ rotation m = .agent .commit) ∧
    (∃ m, n ≤ m ∧ rotation m = .agent .txByte) ∧ (∃ m, n ≤ m ∧ rotation m = .agent (.consAccess 0)) := by
  refine ⟨⟨4 * n, by omega, ?_⟩, ⟨4 * n + 1, by omega, ?_⟩, ⟨4 * n + 2, by omega, ?_⟩, ⟨4 * n + 3, by omega, ?_⟩⟩ <;>
    simp [rotation, Nat.add_mod]

theorem rotation_cases (n : Nat) :
    rotation n = .agent .rxByte ∨ rotation n = .agent .commit ∨ rotation n = .agent .txByte ∨
    rotation n = .agent (.consAccess 0) := by
  unfold rotation
  split <;> simp

/-- In that order the lock stays free and the ports drive what they drove. -/
theorem rotation_keeps (P : Params) {s : State} (ho : s.owner = .free) (n : Nat) :
    (runAt P rotation s n).owner = .free ∧ (runAt P rotation s n).ports.map Port.sig = s.ports.map Port.sig := by
  induction n with
  | zero => exact ⟨ho, rfl⟩
  | succ n ih =>
    rw [runAt]
    rcases rotation_cases n with e | e | e | e <;> rw [e] <;> simp only [Move.perform, performStep]
    · rcases rxStep_cases P (runAt P rotation s n) with ⟨_, e⟩ | ⟨b, bs, _, _, e⟩ <;> rw [e]
      · exact ih
      · have h := rxByte_frame P b { runAt P rotation s n with rx := bs }
        exact ⟨h.2.1.trans ih.1, by rw [h.2.2.1]; exact ih.2⟩
    · have h := commit_frame P (runAt P rotation s n)
      exact ⟨h.1.trans ih.1, by rw [h.2.1]; exact ih.2⟩
    · have h := txByte_frame (runAt P rotation s n)
      exact ⟨h.2.1.trans ih.1, by rw [h.2.2.1]; exact ih.2⟩
    · exact ⟨(consAccess_frame P 0 _).2.2.2.2.2.2.2.2.2.1.trans ih.1, (consAccess_sigs P 0 _).trans ih.2⟩

/-- A waiting READ, a waiting WRITE and a waiting port request under a fair schedule. -/
theorem witness_FairRunsServeEveryRequest :
    let s : State := { start [] with ports := [req 0#1 0#8 0#5 0#128], rx := [0x01#8, 0#8, 1#8, 0#8] }
    let w : State := { s with rx := [0x02#8, 0#8, 1#8, 5#8, 0x06#8] }
    (∀ u : State, u = s ∨ u = w →
      FairRun vec rotation u ∧ NoResetFrom rotation 0 ∧ LockComesToRest vec rotation u ∧ u.atBoundary = true) ∧
    hdrOk vec 0#8 1#8 = true ∧ s.rx = [0x01#8, 0#8, 1#8, 0x01#8 ^^^ 0#8 ^^^ 1#8] ++ [] ∧
    w.rx = [0x02#8, 0#8, 1#8] ++ [5#8] ++ [0x02#8 ^^^ 0#8 ^^^ 1#8 ^^^ xorFold [5#8]] ++ [] ∧
    s.ports[0]? = some (req 0#1 0#8 0#5 0#128) := by
  intro s w
  refine ⟨fun u hu => ?_, by decide, by decide, by decide, rfl⟩
  have ho : u.owner = .free := by rcases hu with rfl | rfl <;> rfl
  have hs : u.ports.map Port.sig = [⟨0#1, 0#8, 0#5, 0#128, false⟩] := by rcases hu with rfl | rfl <;> rfl
  have hk : ∀ n, (runAt vec rotation u n).owner = .free ∧
      (runAt vec rotation u n).ports.map Port.sig = [⟨0#1, 0#8, 0#5, 0#128, false⟩] :=
    fun n => ⟨(rotation_keeps vec ho n).1, (rotation_keeps vec ho n).2.trans hs⟩
  have hl : ∀ n i p, (runAt vec rotation u n).ports[i]? = some p → i = 0 ∧ p.sig.lock = false := by
    intro n i p hp
    have h := congrArg (fun l : List PortReq => l[i]?) (hk n).2
    simp only [List.getElem?_map, hp, Option.map_some] at h
    cases i with
    | zero => simp only [List.getElem?_cons_zero, Option.some.injEq] at h; exact ⟨rfl, by rw [h]⟩
    | succ i => simp at h
  refine ⟨⟨fun n _ => (rotation_comes n).1, fun n _ => (rotation_comes n).2.2.1, fun n _ => (rotation_comes n).2.1,
    fun i n h => ?_, fun i n h => ?_, fun i n h => ?_⟩, fun m _ => ?_, ⟨0, fun m _ => (hk m).1⟩, ?_⟩
  · have h1 := h n (Nat.le_refl n)
    cases hp : (runAt vec rotation u n).ports[i]? with
    | none => simp [AgentStep.enabled, hp] at h1
    | some p =>
      rw [(hl n i p hp).1]
      exact (rotation_comes n).2.2.2
  · have h1 := (h n (Nat.le_refl n)).1
    unfold State.lockLine at h1
    cases hp : (runAt vec rotation u n).ports[i]? with
    | none => simp [hp] at h1
    | some p => simp [hp, (hl n i p hp).2] at h1
  · rw [(hk n).1] at h
    exact absurd h (by simp)
  · rcases rotation_cases m with e | e | e | e <;> rw [e] <;> simp
  · rcases hu with rfl | rfl <;> rfl

theorem witness_ChecksumIgnoresOrder :
    [1#8, 2#8].Perm [2#8, 1#8] ∧ 0 ≠ 1 ∧ [1#8, 2#8][0]? = some 1#8 ∧ [1#8, 2#8][1]? = some 2#8 := by decide

theorem witness_ChecksumSeesOneChangedByte : [1#8, 2#8][1]? = some 2#8 ∧ 0x80#8 ≠ 0x00#8 := by decide

theorem witness_FieldCodecsAreInverse :
    Memory.wf vec [(63, 1#8)] = true ∧ 62 + 2 ≤ vec.mapSize ∧ 60 + 4 ≤ vec.mapSize := by decide

end Sys2Proof.Tests
end

namespace Sys2Proof.Machine

/-! PROOF. The registers and cells over time (10_state.md): their reset values (R33), the steps that change a cell (R12), and
the engine's independence of earlier frames (R24). -/

/-- Settles O11: the reset state holds the table of 10_state.md R33. -/
theorem resetStateHasTheSpecValues : Obligations.ResetStateHasTheSpecValues :=
  ⟨Memory.read_nil, rfl, rfl, rfl, rfl, rfl, rfl, fun _ h => Vector.getElem_replicate h, rfl, rfl, rfl, rfl, rfl⟩

/-! ### Which steps change a cell -/

theorem rxStep_map (P : Params) (s : State) : (rxStep P s).map = s.map := by
  rcases rxStep_cases P s with ⟨_, e⟩ | ⟨b, bs, _, _, e⟩ <;> rw [e]
  obtain ⟨hmap, _⟩ := rxByte_frame P b { s with rx := bs }
  exact hmap

theorem consAcquire_map (i : Nat) (s : State) : (consAcquire i s).map = s.map := by
  rcases consAcquire_cases i s with ⟨_, _, e⟩ | ⟨_, e⟩ <;> rw [e]

theorem consRelease_map (i : Nat) (s : State) : (consRelease i s).map = s.map := by
  rcases consRelease_cases i s with ⟨_, e⟩ | ⟨_, e⟩ <;> rw [e]

theorem linkReset_map (s : State) : (linkReset s).map = s.map := by
  rcases linkReset_cases s with ⟨_, e⟩ | ⟨_, e⟩ <;> rw [e]
  simp

theorem State.payload_length (s : State) : s.payload.length = min s.len.toNat 16 := by
  simp [State.payload]

theorem commitRead_map (P : Params) (s : State) : (commitRead P s).map = s.map := by
  unfold commitRead
  split <;> simp

/-- A WRITE commit leaves the map, or writes the whole payload into it (44_write_command.md R173). -/
theorem commitWrite_map_cases (P : Params) (s : State) :
    (s.addr.toNat + s.len.toNat ≤ P.mapSize ∧
      (commitWrite P s).map = Memory.writeList s.map s.addr.toNat s.payload) ∨
    (commitWrite P s).map = s.map := by
  rcases writeBytes_cases P s.map s.addr.toNat s.len.toNat s.payload with ⟨_, e⟩ | ⟨hle, _⟩
  · exact .inr (by simp [commitWrite, e])
  · refine .inl ⟨hle, ?_⟩
    simp [commitWrite_of_le hle, State.payload, List.take_take]

theorem State.mayAccess_iff (s : State) (i : Nat) : s.mayAccess i = true ↔ s.owner = .free ∨ s.owner = .cons i := by
  simp [State.mayAccess]

theorem performRead_map (P : Params) (i : Nat) (p : Port) (s : State) : (performRead P i p s).map = s.map := by
  rcases performRead_cases P i p s with ⟨_, _, e⟩ | ⟨_, e⟩ <;> simp [e]

/-- The commit changes a cell only as a whole WRITE of the held frame (20_memory.md R52, 44_write_command.md R173). -/
theorem commit_map_ne {P : Params} {s : State} (h : (commit P s).map ≠ s.map) :
    s.st = .commitWr ∧ s.owner = .free ∧ s.payload.length ≤ 16 ∧ s.addr.toNat + s.payload.length ≤ P.mapSize ∧
    (commit P s).map = Memory.writeList s.map s.addr.toNat s.payload := by
  rcases commit_cases P s with ⟨_, _, e⟩ | ⟨ho, hst, e⟩ | ⟨_, e⟩ <;> rw [e] at h ⊢
  · exact absurd (commitRead_map P s) h
  · rcases commitWrite_map_cases P s with ⟨hle, hw⟩ | hw
    · have hlen := s.payload_length
      exact ⟨hst, ho, by omega, by omega, hw⟩
    · exact absurd hw h
  · exact absurd rfl h

/-- A port's access changes a cell only as an admitted write inside the map (45_consumer_port.md R181 to R183). -/
theorem consAccess_map_ne {P : Params} {i : Nat} {s : State} (h : (consAccess P i s).map ≠ s.map) :
    ∃ p, s.ports[i]? = some p ∧ p.req = true ∧ p.sig.op = 1#1 ∧ (s.owner = .free ∨ s.owner = .cons i) ∧
      p.sig.len.toNat ≤ 16 ∧ p.sig.addr.toNat + p.sig.len.toNat ≤ P.mapSize ∧
      (consAccess P i s).map =
        Memory.writeList s.map p.sig.addr.toNat (unpackLanes p.sig.wdata p.sig.len.toNat) := by
  rcases consAccess_cases P i s with ⟨_, e⟩ | ⟨p, _, _, _, _, e⟩ | ⟨p, hp, hreq, hmay, hop, e⟩ <;> rw [e] at h ⊢
  · exact absurd rfl h
  · exact absurd (performRead_map P i p s) h
  · have hop1 : p.sig.op = 1#1 := by bv_omega
    rcases performWrite_cases P i p s with ⟨hlen, hle, ew⟩ | ⟨_, ew⟩ <;> rw [ew] at h ⊢
    · exact ⟨p, hp, hreq, hop1, (s.mayAccess_iff i).mp hmay, hlen, hle, by simp⟩
    · exact absurd (by simp) h

/-- Settles O48, agent by agent. -/
theorem cellsChangeOnlyByWholeWrites : Obligations.CellsChangeOnlyByWholeWrites := by
  intro P s a h
  cases a with
  | rxByte => exact absurd (rxStep_map P s) h
  | commit => exact .inr (.inl ⟨rfl, commit_map_ne h⟩)
  | txByte => exact absurd (txByte_frame s).1 h
  | consAccess i =>
    obtain ⟨p, hp⟩ := consAccess_map_ne h
    exact .inr (.inr ⟨i, p, rfl, hp⟩)
  | consAcquire i => exact absurd (consAcquire_map i s) h
  | consRelease i => exact absurd (consRelease_map i s) h
  | reset => exact .inl ⟨rfl, rfl⟩
  | linkReset => exact absurd (linkReset_map s) h

/-! ### Frames leave no trace in the engine -/

/-- The registers an earlier frame leaves behind at a frame boundary (10_state.md R24). -/
structure FrameRegs where
  cmd : Byte
  addr : Byte
  len : Byte
  acc : Byte
  buf : Vector Byte 16
  rkind : RKind
  ridx : BitVec 5

/-- The state with other values in the frame's registers. -/
def State.withFrameRegs (s : State) (r : FrameRegs) : State :=
  { s with
    cmd := r.cmd, addr := r.addr, len := r.len, acc := r.acc, buf := r.buf, rkind := r.rkind, ridx := r.ridx }

/-- No frame register is part of what is observed. -/
theorem State.observe_withFrameRegs (s : State) (r : FrameRegs) : (s.withFrameRegs r).observe = s.observe := rfl

/-- Two states in the phase of `s` agree on every frame register that a later step may still read, phase by phase; every other
one is dead. Where a READ may follow, the header condition is kept too: with it the snapshot fills all of the payload
(43_read_command.md R162). -/
def State.LiveAlike (P : Params) (s t : State) : Prop :=
  match s.st with
  | .hdr =>
    (s.cnt = 1#5 → t.cmd = s.cmd ∧ t.acc = s.acc) ∧
    (s.cnt = 2#5 → t.cmd = s.cmd ∧ t.addr = s.addr ∧ t.acc = s.acc)
  | .rdCsum => hdrOk P s.addr s.len = true ∧ t.addr = s.addr ∧ t.len = s.len ∧ t.acc = s.acc
  | .wrPayload =>
    s.cnt.toNat < s.len.toNat ∧ s.len.toNat ≤ 16 ∧ t.addr = s.addr ∧ t.len = s.len ∧ t.acc = s.acc ∧
    t.buf.toList.take s.cnt.toNat = s.buf.toList.take s.cnt.toNat
  | .wrCsum => t.addr = s.addr ∧ t.len = s.len ∧ t.acc = s.acc ∧ t.payload = s.payload
  | .skip => True
  | .commitRd => hdrOk P s.addr s.len = true ∧ t.addr = s.addr ∧ t.len = s.len
  | .commitWr => t.addr = s.addr ∧ t.len = s.len ∧ t.payload = s.payload
  | .resp => t.respFrame = s.respFrame ∧ t.ridx = s.ridx

theorem State.liveAlike_wrPayload {P : Params} {s t : State} (hst : s.st = .wrPayload) :
    s.LiveAlike P t ↔
      s.cnt.toNat < s.len.toNat ∧ s.len.toNat ≤ 16 ∧ t.addr = s.addr ∧ t.len = s.len ∧ t.acc = s.acc ∧
      t.buf.toList.take s.cnt.toNat = s.buf.toList.take s.cnt.toNat := by
  rw [State.LiveAlike, hst]

theorem State.liveAlike_resp {P : Params} {s t : State} (hst : s.st = .resp) :
    s.LiveAlike P t ↔ t.respFrame = s.respFrame ∧ t.ridx = s.ridx := by
  rw [State.LiveAlike, hst]

/-- `t` is `s` but for dead frame registers. -/
structure State.SameButDead (P : Params) (s t : State) : Prop where
  shell : ∃ r, t = s.withFrameRegs r
  live : s.LiveAlike P t

/-- At a frame boundary every frame register is dead. -/
theorem State.sameButDead_of_boundary (P : Params) {s : State} (r : FrameRegs) (h : s.atBoundary = true) :
    s.SameButDead P (s.withFrameRegs r) := by
  obtain ⟨hst, hcnt⟩ := (atBoundary_iff s).mp h
  exact ⟨⟨r, rfl⟩, by simp [State.LiveAlike, hst, hcnt]⟩

/-- Back at a command byte every frame register is dead. -/
theorem State.toHeader_sameButDead (P : Params) (s : State) (r : FrameRegs) :
    s.toHeader.SameButDead P (s.withFrameRegs r).toHeader :=
  State.sameButDead_of_boundary P (s := s.toHeader) r rfl

/-- A diagnostic event is put out alike and touches no frame register. -/
theorem State.SameButDead.raise {P : Params} {s t : State} (h : s.SameButDead P t) (d : Diag) :
    (s.raise d).SameButDead P (t.raise d) := by
  obtain ⟨⟨r, rfl⟩, live⟩ := h
  exact ⟨⟨r, rfl⟩, live⟩

/-- While bytes are skipped every frame register is dead. -/
theorem State.skipBytes_sameButDead (P : Params) (s : State) (r : FrameRegs) (n : Nat) :
    (s.skipBytes n).SameButDead P ((s.withFrameRegs r).skipBytes n) :=
  ⟨⟨r, rfl⟩, trivial⟩

/-! #### Received bytes -/

theorem takeCommand_sameButDead (P : Params) (b : Byte) {s : State} (r : FrameRegs) (hst : s.st = .hdr) :
    (takeCommand b s).SameButDead P (takeCommand b (s.withFrameRegs r)) :=
  ⟨⟨{ r with cmd := b, acc := b }, rfl⟩, by simp [State.LiveAlike, takeCommand, hst]⟩

theorem takeAddress_sameButDead (P : Params) (b : Byte) {s : State} {r : FrameRegs} (hst : s.st = .hdr)
    (hcmd : r.cmd = s.cmd) (hacc : r.acc = s.acc) :
    (takeAddress b s).SameButDead P (takeAddress b (s.withFrameRegs r)) :=
  ⟨⟨{ r with addr := b, acc := r.acc ^^^ b }, rfl⟩,
    by simp [State.LiveAlike, takeAddress, State.withFrameRegs, hst, hcmd, hacc]⟩

theorem decideRead_sameButDead (P : Params) {s : State} {r : FrameRegs} (haddr : r.addr = s.addr) (hlen : r.len = s.len)
    (hacc : r.acc = s.acc) :
    (decideRead P s.addr s.len s).SameButDead P (decideRead P s.addr s.len (s.withFrameRegs r)) := by
  unfold decideRead
  split
  next hok => exact ⟨⟨r, rfl⟩, hok, haddr, hlen, hacc⟩
  next => exact (State.skipBytes_sameButDead P s r 1).raise _

theorem decideWrite_sameButDead (P : Params) {s : State} {r : FrameRegs} (haddr : r.addr = s.addr) (hlen : r.len = s.len)
    (hacc : r.acc = s.acc) (hcnt : s.cnt = 0#5) :
    (decideWrite P s.addr s.len s).SameButDead P (decideWrite P s.addr s.len (s.withFrameRegs r)) := by
  unfold decideWrite
  split
  next hok =>
    refine ⟨⟨r, rfl⟩, ?_⟩
    obtain ⟨_, _, hle⟩ := hdrOk_iff.mp hok
    by_cases h0 : s.len = 0#8
    · simp [State.LiveAlike, State.withFrameRegs, State.payload, h0, haddr, hlen, hacc]
    · have hpos : 0 < s.len.toNat := by bv_omega
      simp [State.LiveAlike, State.withFrameRegs, h0, haddr, hlen, hacc, hcnt, hle, hpos]
  next =>
    split
    next => exact (State.skipBytes_sameButDead P s r _).raise _
    next => exact (State.toHeader_sameButDead P s r).raise _

/-- The header decision reads nothing but the header bytes held (42_framing.md R133 to R138). -/
theorem takeLengthAndDecide_sameButDead (P : Params) (b : Byte) {s : State} {r : FrameRegs} (hcmd : r.cmd = s.cmd)
    (haddr : r.addr = s.addr) (hacc : r.acc = s.acc) :
    (takeLengthAndDecide P b s).SameButDead P (takeLengthAndDecide P b (s.withFrameRegs r)) := by
  have haddr' : (s.withFrameRegs r).addr = s.addr := haddr
  have hcmd' : (s.withFrameRegs r).cmd = s.cmd := hcmd
  have hacc' : r.acc ^^^ b = s.acc ^^^ b := by rw [hacc]
  unfold takeLengthAndDecide
  rw [haddr', hcmd']
  split
  next => exact decideRead_sameButDead P (s := takeLength b s) (r := ⟨_, _, _, _, _, _, _⟩) haddr rfl hacc'
  next =>
    split
    next => exact decideWrite_sameButDead P (s := takeLength b s) (r := ⟨_, _, _, _, _, _, _⟩) haddr rfl hacc' rfl
    next => exact (State.toHeader_sameButDead P (takeLength b s) ⟨_, _, _, _, _, _, _⟩).raise _

theorem rxReadChecksum_sameButDead (P : Params) (b : Byte) {s : State} {r : FrameRegs} (hok : hdrOk P s.addr s.len = true)
    (haddr : r.addr = s.addr) (hlen : r.len = s.len) (hacc : r.acc = s.acc) :
    (rxReadChecksum b s).SameButDead P (rxReadChecksum b (s.withFrameRegs r)) := by
  have hacc' : (s.withFrameRegs r).acc = s.acc := hacc
  unfold rxReadChecksum
  rw [hacc']
  split
  next => exact ⟨⟨r, rfl⟩, hok, haddr, hlen⟩
  next => exact (State.toHeader_sameButDead P s r).raise _

/-- Putting one byte behind the first `k` of a buffer leaves it with those and that byte. -/
theorem take_succ_setIfInBounds (v : Vector Byte 16) {k : Nat} (b : Byte) (h : k < 16) :
    (v.setIfInBounds k b).toList.take (k + 1) = v.toList.take k ++ [b] := by
  rw [Vector.toList_setIfInBounds, List.take_add_one, List.take_set_of_le (Nat.le_refl k),
    List.getElem?_set_self (by simpa using h), Option.toList_some]

/-- A payload byte goes behind those held, and what lies behind it in the buffer stays dead (44_write_command.md R171). -/
theorem rxPayload_sameButDead (P : Params) (b : Byte) {s : State} {r : FrameRegs} (hst : s.st = .wrPayload)
    (hcnt : s.cnt.toNat < s.len.toNat) (hle : s.len.toNat ≤ 16) (haddr : r.addr = s.addr) (hlen : r.len = s.len)
    (hacc : r.acc = s.acc) (hbuf : r.buf.toList.take s.cnt.toNat = s.buf.toList.take s.cnt.toNat) :
    (rxPayload b s).SameButDead P (rxPayload b (s.withFrameRegs r)) := by
  have hlen' : (s.withFrameRegs r).len = s.len := hlen
  have hcnt' : (s.withFrameRegs r).cnt = s.cnt := rfl
  have hnext : (r.buf.setIfInBounds s.cnt.toNat b).toList.take (s.cnt.toNat + 1) =
      (s.buf.setIfInBounds s.cnt.toNat b).toList.take (s.cnt.toNat + 1) := by
    rw [take_succ_setIfInBounds _ b (by omega), take_succ_setIfInBounds _ b (by omega), hbuf]
  unfold rxPayload
  rw [hlen', hcnt']
  split
  next hlast =>
    refine ⟨⟨⟨_, _, _, _, _, _, _⟩, rfl⟩, haddr, rfl, congrArg (· ^^^ b) hacc, ?_⟩
    simpa [State.payload, State.withFrameRegs, State.goto, ← hlast] using hnext
  next hmore =>
    have hinc : (s.cnt + 1#5).toNat = s.cnt.toNat + 1 := by bv_omega
    rw [← hinc] at hnext
    have hlt : (s.cnt + 1#5).toNat < s.len.toNat := by omega
    refine ⟨⟨⟨_, _, _, _, _, _, _⟩, rfl⟩,
      (State.liveAlike_wrPayload ?_).mpr ⟨hlt, hle, haddr, rfl, congrArg (· ^^^ b) hacc, hnext⟩⟩
    exact hst

theorem rxWriteChecksum_sameButDead (P : Params) (b : Byte) {s : State} {r : FrameRegs} (haddr : r.addr = s.addr)
    (hlen : r.len = s.len) (hacc : r.acc = s.acc) (hpay : (s.withFrameRegs r).payload = s.payload) :
    (rxWriteChecksum b s).SameButDead P (rxWriteChecksum b (s.withFrameRegs r)) := by
  have hacc' : (s.withFrameRegs r).acc = s.acc := hacc
  unfold rxWriteChecksum
  rw [hacc']
  split
  next => exact ⟨⟨r, rfl⟩, haddr, hlen, hpay⟩
  next =>
    have hnack : (s.emit .nack).SameButDead P ((s.withFrameRegs r).emit .nack) :=
      ⟨⟨⟨_, _, _, _, _, _, _⟩, rfl⟩, congrArg nackFrame haddr, rfl⟩
    exact hnack.raise _

theorem rxSkip_sameButDead (P : Params) {s : State} (r : FrameRegs) (hst : s.st = .skip) :
    (rxSkip s).SameButDead P (rxSkip (s.withFrameRegs r)) := by
  have hcnt : (s.withFrameRegs r).cnt = s.cnt := rfl
  unfold rxSkip
  rw [hcnt]
  split
  next => exact State.toHeader_sameButDead P s r
  next => exact ⟨⟨r, rfl⟩, by simp [State.LiveAlike, hst]⟩

theorem rxByte_sameButDead {P : Params} (b : Byte) {s t : State} (h : s.SameButDead P t) :
    (rxByte P b s).SameButDead P (rxByte P b t) := by
  have live := h.live
  obtain ⟨r, rfl⟩ := h.shell
  have hst' : (s.withFrameRegs r).st = s.st := rfl
  have hcnt' : (s.withFrameRegs r).cnt = s.cnt := rfl
  unfold State.LiveAlike at live
  cases hst : s.st <;> simp only [hst] at live <;> simp only [rxByte, hst', hst]
  case hdr =>
    obtain ⟨live1, live2⟩ := live
    unfold rxHeader
    rw [hcnt']
    split
    next => exact takeCommand_sameButDead P b r hst
    next =>
      split
      next h1 =>
        obtain ⟨hcmd, hacc⟩ := live1 h1
        exact takeAddress_sameButDead P b hst hcmd hacc
      next =>
        split
        next h2 =>
          obtain ⟨hcmd, haddr, hacc⟩ := live2 h2
          exact takeLengthAndDecide_sameButDead P b hcmd haddr hacc
        next => exact h
  case rdCsum =>
    obtain ⟨hok, haddr, hlen, hacc⟩ := live
    exact rxReadChecksum_sameButDead P b hok haddr hlen hacc
  case wrPayload =>
    obtain ⟨hcnt, hle, haddr, hlen, hacc, hbuf⟩ := live
    exact rxPayload_sameButDead P b hst hcnt hle haddr hlen hacc hbuf
  case wrCsum =>
    obtain ⟨haddr, hlen, hacc, hpay⟩ := live
    exact rxWriteChecksum_sameButDead P b haddr hlen hacc hpay
  case skip => exact rxSkip_sameButDead P r hst
  all_goals exact h

theorem rxStep_sameButDead {P : Params} {s t : State} (h : s.SameButDead P t) :
    (rxStep P s).SameButDead P (rxStep P t) := by
  have live := h.live
  obtain ⟨r, rfl⟩ := h.shell
  have hrx : (s.withFrameRegs r).rx = s.rx := rfl
  have hready : (s.withFrameRegs r).rxReady = s.rxReady := rfl
  unfold rxStep
  rw [hrx, hready]
  split
  next => exact h
  next b bs _ =>
    split
    next => exact rxByte_sameButDead b (s := { s with rx := bs }) ⟨⟨r, rfl⟩, live⟩
    next => exact h

/-! #### Commit and response -/

/-- A READ commit in range makes the snapshot of the cells pending, whatever the buffer held (43_read_command.md R162). -/
theorem commitRead_respFrame {P : Params} {s : State} (h : hdrOk P s.addr s.len = true) :
    (commitRead P s).respFrame =
      dataFrame s.addr s.len (Memory.readList s.map s.addr.toNat s.len.toNat) := by
  obtain ⟨_, hle, h16⟩ := hdrOk_iff.mp h
  have hpay : (bufWrite s.buf 0 (Memory.readList s.map s.addr.toNat s.len.toNat)).toList.take s.len.toNat =
      Memory.readList s.map s.addr.toNat s.len.toNat := by
    simpa using bufWrite_take s.buf (Memory.readList s.map s.addr.toNat s.len.toNat) (by simpa using h16)
  rw [commitRead_of_le hle]
  exact congrArg (dataFrame s.addr s.len) hpay

theorem commitRead_sameButDead {P : Params} {s : State} {r : FrameRegs} (hok : hdrOk P s.addr s.len = true)
    (haddr : r.addr = s.addr) (hlen : r.len = s.len) :
    (commitRead P s).SameButDead P (commitRead P (s.withFrameRegs r)) := by
  have haddr' : (s.withFrameRegs r).addr = s.addr := haddr
  have hlen' : (s.withFrameRegs r).len = s.len := hlen
  have hok' : hdrOk P (s.withFrameRegs r).addr (s.withFrameRegs r).len = true := by rwa [haddr', hlen']
  have hframe : (commitRead P (s.withFrameRegs r)).respFrame = (commitRead P s).respFrame := by
    rw [commitRead_respFrame hok, commitRead_respFrame hok', haddr', hlen']
    rfl
  obtain ⟨_, hle, _⟩ := hdrOk_iff.mp hok
  obtain ⟨_, hle', _⟩ := hdrOk_iff.mp hok'
  rw [commitRead_of_le hle, commitRead_of_le hle'] at hframe ⊢
  exact ⟨⟨⟨_, _, _, _, _, _, _⟩, rfl⟩, hframe, rfl⟩

theorem commitWrite_sameButDead (P : Params) {s : State} {r : FrameRegs} (haddr : r.addr = s.addr) (hlen : r.len = s.len)
    (hpay : (s.withFrameRegs r).payload = s.payload) :
    (commitWrite P s).SameButDead P (commitWrite P (s.withFrameRegs r)) := by
  have haddr' : (s.withFrameRegs r).addr = s.addr := haddr
  have hlen' : (s.withFrameRegs r).len = s.len := hlen
  have hmap' : (s.withFrameRegs r).map = s.map := rfl
  unfold commitWrite
  rw [haddr', hlen', hpay, hmap']
  split <;> exact ⟨⟨⟨_, _, _, _, _, _, _⟩, rfl⟩, congrArg ackFrame haddr, rfl⟩

theorem commit_sameButDead {P : Params} {s t : State} (h : s.SameButDead P t) :
    (commit P s).SameButDead P (commit P t) := by
  have live := h.live
  obtain ⟨r, rfl⟩ := h.shell
  have howner : (s.withFrameRegs r).owner = s.owner := rfl
  have hst' : (s.withFrameRegs r).st = s.st := rfl
  unfold commit
  rw [howner, hst']
  split
  next =>
    unfold State.LiveAlike at live
    cases hst : s.st <;> simp only [hst] at live ⊢
    case commitRd =>
      obtain ⟨hok, haddr, hlen⟩ := live
      exact commitRead_sameButDead hok haddr hlen
    case commitWr =>
      obtain ⟨haddr, hlen, hpay⟩ := live
      exact commitWrite_sameButDead P haddr hlen hpay
    all_goals exact h
  next => exact h

theorem txByte_sameButDead {P : Params} {s t : State} (h : s.SameButDead P t) :
    (txByte s).SameButDead P (txByte t) := by
  have live := h.live
  obtain ⟨r, rfl⟩ := h.shell
  have hst' : (s.withFrameRegs r).st = s.st := rfl
  by_cases hst : s.st = .resp
  · obtain ⟨hframe, hridx⟩ := (State.liveAlike_resp hst).mp live
    have hdata : (s.withFrameRegs r).txData = s.txData := by rw [State.txData, hframe, hridx, State.txData]
    have htx : (s.withFrameRegs r).tx = s.tx := rfl
    unfold txByte
    rw [if_pos hst, if_pos (hst'.trans hst), hframe, hridx, hdata, htx]
    split
    next => exact State.toHeader_sameButDead P { s with tx := s.tx ++ s.txData.toList } { r with ridx := s.ridx }
    next =>
      refine ⟨⟨⟨_, _, _, _, _, _, _⟩, rfl⟩, (State.liveAlike_resp ?_).mpr ⟨hframe, rfl⟩⟩
      exact hst
  · simpa [txByte, hst', hst] using h

/-! #### Ports and resets -/

theorem performRead_withFrameRegs (P : Params) (i : Nat) (p : Port) (s : State) (r : FrameRegs) :
    performRead P i p (s.withFrameRegs r) = (performRead P i p s).withFrameRegs r := by
  have hmap : (s.withFrameRegs r).map = s.map := rfl
  unfold performRead
  rw [hmap]
  split
  next => rfl
  next => split <;> rfl

theorem performWrite_withFrameRegs (P : Params) (i : Nat) (p : Port) (s : State) (r : FrameRegs) :
    performWrite P i p (s.withFrameRegs r) = (performWrite P i p s).withFrameRegs r := by
  have hmap : (s.withFrameRegs r).map = s.map := rfl
  unfold performWrite
  rw [hmap]
  split
  next => rfl
  next => split <;> rfl

/-- A port's access neither reads nor writes a frame register (60_exceptions.md R219). -/
theorem consAccess_withFrameRegs (P : Params) (i : Nat) (s : State) (r : FrameRegs) :
    consAccess P i (s.withFrameRegs r) = (consAccess P i s).withFrameRegs r := by
  have hports : (s.withFrameRegs r).ports = s.ports := rfl
  have hmay : (s.withFrameRegs r).mayAccess i = s.mayAccess i := rfl
  unfold consAccess
  rw [hports, hmay]
  split
  next => rfl
  next p _ =>
    rw [performRead_withFrameRegs, performWrite_withFrameRegs]
    split
    next => split <;> rfl
    next => rfl

/-- Which registers are live, and their values, is the same after a port's access. -/
theorem consAccess_liveAlike (P : Params) (i : Nat) {s : State} {r : FrameRegs} (h : s.LiveAlike P (s.withFrameRegs r)) :
    (consAccess P i s).LiveAlike P ((consAccess P i s).withFrameRegs r) := by
  rcases consAccess_cases P i s with ⟨_, e⟩ | ⟨p, _, _, _, _, e⟩ | ⟨p, _, _, _, _, e⟩ <;> rw [e]
  · exact h
  · rcases performRead_cases P i p s with ⟨_, _, e⟩ | ⟨_, e⟩ <;> rw [e] <;> exact h
  · rcases performWrite_cases P i p s with ⟨_, _, e⟩ | ⟨_, e⟩ <;> rw [e] <;> exact h

theorem consAccess_sameButDead {P : Params} (i : Nat) {s t : State} (h : s.SameButDead P t) :
    (consAccess P i s).SameButDead P (consAccess P i t) := by
  obtain ⟨⟨r, rfl⟩, live⟩ := h
  exact ⟨⟨r, consAccess_withFrameRegs P i s r⟩, by
    rw [consAccess_withFrameRegs]
    exact consAccess_liveAlike P i live⟩

/-- The lock may be set at will: it decides nothing about the frame registers. -/
theorem State.SameButDead.withOwner {P : Params} {s t : State} (h : s.SameButDead P t) (o : Owner) :
    State.SameButDead P { s with owner := o } { t with owner := o } := by
  obtain ⟨⟨r, rfl⟩, live⟩ := h
  exact ⟨⟨r, rfl⟩, live⟩

theorem consAcquire_sameButDead {P : Params} (i : Nat) {s t : State} (h : s.SameButDead P t) :
    (consAcquire i s).SameButDead P (consAcquire i t) := by
  obtain ⟨r, rfl⟩ := h.shell
  have hcond : ((s.withFrameRegs r).owner = .free ∧ i < (s.withFrameRegs r).ports.length) =
    (s.owner = .free ∧ i < s.ports.length) := rfl
  unfold consAcquire
  simp only [hcond]
  split
  next => exact h.withOwner _
  next => exact h

theorem consRelease_sameButDead {P : Params} (i : Nat) {s t : State} (h : s.SameButDead P t) :
    (consRelease i s).SameButDead P (consRelease i t) := by
  obtain ⟨r, rfl⟩ := h.shell
  have howner : (s.withFrameRegs r).owner = s.owner := rfl
  unfold consRelease
  rw [howner]
  split
  next => exact h.withOwner _
  next => exact h

theorem linkReset_sameButDead {P : Params} {s t : State} (h : s.SameButDead P t) :
    (linkReset s).SameButDead P (linkReset t) := by
  obtain ⟨r, rfl⟩ := h.shell
  have hb : (s.withFrameRegs r).atBoundary = s.atBoundary := rfl
  unfold linkReset
  rw [hb]
  split
  next => exact h
  next => exact (State.toHeader_sameButDead P s r).raise _

theorem resetBlock_sameButDead {P : Params} {s t : State} (h : s.SameButDead P t) :
    s.resetBlock.SameButDead P t.resetBlock := by
  obtain ⟨r, rfl⟩ := h.shell
  exact State.sameButDead_of_boundary P (s := s.resetBlock) ⟨_, _, _, _, _, _, _⟩ rfl

/-! #### Whole runs -/

/-- No step of any agent makes a dead register matter. -/
theorem performStep_sameButDead {P : Params} {s t : State} (h : s.SameButDead P t) (a : AgentStep) :
    (performStep P s a).SameButDead P (performStep P t a) := by
  cases a with
  | rxByte => exact rxStep_sameButDead h
  | commit => exact commit_sameButDead h
  | txByte => exact txByte_sameButDead h
  | consAccess i => exact consAccess_sameButDead i h
  | consAcquire i => exact consAcquire_sameButDead i h
  | consRelease i => exact consRelease_sameButDead i h
  | reset => exact resetBlock_sameButDead h
  | linkReset => exact linkReset_sameButDead h

theorem performSteps_sameButDead {P : Params} (steps : List AgentStep) {s t : State} (h : s.SameButDead P t) :
    (performSteps P steps s).SameButDead P (performSteps P steps t) := by
  induction steps generalizing s t with
  | nil => exact h
  | cons a steps ih => exact ih (performStep_sameButDead h a)

theorem State.SameButDead.observe {P : Params} {s t : State} (h : s.SameButDead P t) : t.observe = s.observe := by
  obtain ⟨r, rfl⟩ := h.shell
  exact s.observe_withFrameRegs r

/-- Settles O52: at a frame boundary every frame register is dead, and no step makes a dead one matter. -/
theorem earlierFramesLeaveNoTrace : Obligations.EarlierFramesLeaveNoTrace := by
  intro P steps s cmd addr len acc buf rkind ridx hb
  have hstart := State.sameButDead_of_boundary P ⟨cmd, addr, len, acc, buf, rkind, ridx⟩ hb
  exact (performSteps_sameButDead steps hstart).observe

end Sys2Proof.Machine

namespace Sys2Proof.Machine

/-! PROOF. The checksum (41_checksum.md): the law of concatenation (R121), and the changes it cannot see (R122). -/

/-- Settles O56: the fold over `b` starts from the checksum of `a`, and a start can be taken out of a fold. -/
theorem checksumOfAConcatenation : Obligations.ChecksumOfAConcatenation := fun a b => calc
  xorFold (a ++ b) = b.foldl (· ^^^ ·) (xorFold a) := List.foldl_append
  _ = xorFold a ^^^ xorFold b := foldl_xor_eq b (xorFold a)

theorem xorFold_cons (b : Byte) (s : List Byte) : xorFold (b :: s) = b ^^^ xorFold s := by
  rw [xorFold, List.foldl_cons, foldl_xor_eq, BitVec.zero_xor]

theorem xorFold_perm {s t : List Byte} (h : s.Perm t) : xorFold s = xorFold t :=
  h.foldl_eq 0#8

/-- Flipping the bits `m` of one byte flips the same bits of the checksum, wherever the byte stands. -/
theorem xorFold_set_xor {s : List Byte} {i : Nat} {x : Byte} (h : s[i]? = some x) (m : Byte) :
    xorFold (s.set i (x ^^^ m)) = xorFold s ^^^ m := by
  induction s generalizing i with
  | nil => simp at h
  | cons b s ih =>
    cases i with
    | zero =>
      obtain rfl : b = x := by simpa using h
      rw [List.set_cons_zero, xorFold_cons, xorFold_cons, BitVec.xor_assoc, BitVec.xor_comm m, BitVec.xor_assoc]
    | succ i =>
      rw [List.set_cons_succ, xorFold_cons, xorFold_cons, ih (by simpa using h), BitVec.xor_assoc]

/-- Settles O57: exclusive-or commutes, and the same flip made in two bytes cancels in the checksum. -/
theorem checksumIgnoresOrder : Obligations.ChecksumIgnoresOrder := by
  refine ⟨fun s t => xorFold_perm, fun s i j x y m hij hi hj => ?_⟩
  have hj' : (s.set i (x ^^^ m))[j]? = some y := by rw [List.getElem?_set_ne hij, hj]
  calc xorFold ((s.set i (x ^^^ m)).set j (y ^^^ m))
      _ = xorFold (s.set i (x ^^^ m)) ^^^ m := xorFold_set_xor hj' m
      _ = xorFold s ^^^ m ^^^ m := by rw [xorFold_set_xor hi]
      _ = xorFold s := by rw [BitVec.xor_assoc, BitVec.xor_self, BitVec.xor_zero]

end Sys2Proof.Machine

namespace Sys2Proof.Machine

/-! PROOF. Framing (42_framing.md): a pending response (R140, R141), the header and its decision (R131 to R136), skipped bytes
(R137), unknown commands (R138), backpressure (R139) and the link reset (R144). -/

/-! ### Backpressure -/

/-- `rx_ready` is 0 exactly while a transaction is committed or answered (42_framing.md R139). -/
theorem State.rxReady_eq_false_iff (s : State) :
    s.rxReady = false ↔ s.st = .commitRd ∨ s.st = .commitWr ∨ s.st = .resp := by
  cases hst : s.st <;> simp [State.rxReady, hst]

theorem rxStep_of_not_rxReady (P : Params) {s : State} (h : s.rxReady = false) : rxStep P s = s := by
  rcases rxStep_cases P s with ⟨_, e⟩ | ⟨_, _, _, hready, _⟩
  · exact e
  · exact absurd (h.symm.trans hready) Bool.false_ne_true

/-- Settles O42: with `rx_ready` at 0 no byte crosses the RX port. -/
theorem noByteIsTakenDuringATransaction : Obligations.NoByteIsTakenDuringATransaction := by
  intro P s hst
  have hready : s.rxReady = false := s.rxReady_eq_false_iff.mpr hst
  exact ⟨hready, rxStep_of_not_rxReady P hready⟩

/-! ### The pending response -/

/-- The registers that decide the response frame are the same (42_framing.md R140). -/
structure State.SameResponse (s t : State) : Prop where
  rkind : t.rkind = s.rkind
  addr : t.addr = s.addr
  len : t.len = s.len
  buf : t.buf = s.buf

theorem State.SameResponse.refl (s : State) : s.SameResponse s := ⟨rfl, rfl, rfl, rfl⟩

theorem State.SameResponse.respFrame {s t : State} (h : s.SameResponse t) : t.respFrame = s.respFrame := by
  rw [State.respFrame, State.respFrame, State.payload, State.payload, h.rkind, h.addr, h.len, h.buf]

theorem commit_of_resp (P : Params) {s : State} (hst : s.st = .resp) : commit P s = s := by
  rcases commit_cases P s with ⟨_, hrd, _⟩ | ⟨_, hwr, _⟩ | ⟨_, e⟩
  · rw [hst] at hrd; cases hrd
  · rw [hst] at hwr; cases hwr
  · exact e

theorem rxStep_of_resp (P : Params) {s : State} (hst : s.st = .resp) : rxStep P s = s :=
  rxStep_of_not_rxReady P (s.rxReady_eq_false_iff.mpr (.inr (.inr hst)))

theorem txByte_sameResponse (s : State) : s.SameResponse (txByte s) := by
  obtain ⟨-, -, -, -, -, -, -, -, -, -, haddr, hlen, -, hbuf, hrkind⟩ := txByte_frame s
  exact ⟨hrkind, haddr, hlen, hbuf⟩

theorem linkReset_sameResponse (s : State) : s.SameResponse (linkReset s) := by
  rcases linkReset_cases s with ⟨_, e⟩ | ⟨_, e⟩ <;> rw [e] <;> exact ⟨rfl, rfl, rfl, rfl⟩

/-- The engine's place in the response: its frame, the phase and the index. -/
structure State.SamePending (s t : State) : Prop extends s.SameResponse t where
  st : t.st = s.st
  ridx : t.ridx = s.ridx

theorem State.SamePending.refl (s : State) : s.SamePending s := ⟨.refl s, rfl, rfl⟩

theorem consAccess_samePending (P : Params) (i : Nat) (s : State) : s.SamePending (consAccess P i s) := by
  obtain ⟨hst, -, haddr, hlen, -, -, hbuf, hrkind, hridx, -⟩ := consAccess_frame P i s
  exact ⟨⟨hrkind, haddr, hlen, hbuf⟩, hst, hridx⟩

theorem consAcquire_samePending (i : Nat) (s : State) : s.SamePending (consAcquire i s) := by
  rcases consAcquire_cases i s with ⟨_, _, e⟩ | ⟨_, e⟩ <;> rw [e] <;> exact ⟨⟨rfl, rfl, rfl, rfl⟩, rfl, rfl⟩

theorem consRelease_samePending (i : Nat) (s : State) : s.SamePending (consRelease i s) := by
  rcases consRelease_cases i s with ⟨_, e⟩ | ⟨_, e⟩ <;> rw [e] <;> exact ⟨⟨rfl, rfl, rfl, rfl⟩, rfl, rfl⟩

/-- In `RESP` only the host receiver and the two resets move the engine. -/
theorem performStep_samePending (P : Params) {s : State} (hst : s.st = .resp) {a : AgentStep} (hreset : a ≠ .reset)
    (htx : a ≠ .txByte) (hlink : a ≠ .linkReset) : s.SamePending (performStep P s a) := by
  cases a with
  | rxByte => rw [performStep, rxStep_of_resp P hst]; exact .refl s
  | commit => rw [performStep, commit_of_resp P hst]; exact .refl s
  | txByte => exact absurd rfl htx
  | consAccess i => exact consAccess_samePending P i s
  | consAcquire i => exact consAcquire_samePending i s
  | consRelease i => exact consRelease_samePending i s
  | reset => exact absurd rfl hreset
  | linkReset => exact absurd rfl hlink

/-- In `RESP` only `Reset` changes a register the response frame is made of (42_framing.md R141). -/
theorem performStep_sameResponse (P : Params) {s : State} (hst : s.st = .resp) {a : AgentStep} (hreset : a ≠ .reset) :
    s.SameResponse (performStep P s a) := by
  by_cases htx : a = .txByte
  · rw [htx]; exact txByte_sameResponse s
  · by_cases hlink : a = .linkReset
    · rw [hlink]; exact linkReset_sameResponse s
    · exact (performStep_samePending P hst hreset htx hlink).toSameResponse

/-- The host receiver takes the byte at the response index (42_framing.md R141). -/
theorem txByte_of_respFrame_getElem? {s : State} (hst : s.st = .resp) {b : Byte}
    (hb : s.respFrame[s.ridx.toNat]? = some b) :
    txByte s =
      if s.ridx.toNat + 1 = s.respFrame.length then { s with tx := s.tx ++ [b], st := .hdr, cnt := 0#5 }
      else { s with tx := s.tx ++ [b], ridx := s.ridx + 1#5 } := by
  have hdata : s.txData.toList = [b] := by rw [State.txData, hb, Option.toList_some]
  rcases txByte_cases s with ⟨hne, _⟩ | ⟨_, hlast, e⟩ | ⟨_, hmore, e⟩
  · exact absurd hst hne
  · rw [e, hdata, if_pos hlast]
  · rw [e, hdata, if_neg hmore]

/-- Settles O50, by what `TxByte` delivers and by what the other agents' steps leave alone in `RESP`. -/
theorem pendingResponseLeavesByteByByte : Obligations.PendingResponseLeavesByteByByte := by
  intro P s
  refine ⟨fun hst => if_neg hst, fun hst b hb => txByte_of_respFrame_getElem? hst hb, fun hst a hreset => ?_⟩
  have hsame := performStep_sameResponse P hst hreset
  refine ⟨hsame.respFrame, hsame.addr, hsame.len, hsame.buf, fun htx hlink => ?_⟩
  have hpending := performStep_samePending P hst hreset htx hlink
  exact ⟨hpending.st.trans hst, hpending.ridx⟩

/-! ### Header bytes and skipped bytes -/

theorem rxByte_of_hdr (P : Params) (b : Byte) {s : State} (hst : s.st = .hdr) : rxByte P b s = rxHeader P b s := by
  rw [rxByte, hst]

theorem rxByte_of_skip (P : Params) (b : Byte) {s : State} (hst : s.st = .skip) : rxByte P b s = rxSkip s := by
  rw [rxByte, hst]

/-- Settles O38: the counter says which header byte this is. -/
theorem firstTwoHeaderBytesAreHeld : Obligations.FirstTwoHeaderBytesAreHeld := by
  intro P b s hst
  rw [rxByte_of_hdr P b hst]
  constructor <;> intro hcnt
  · simp [rxHeader, takeCommand, hcnt]
  · simp [rxHeader, takeAddress, hcnt]

/-- Settles O41: the byte itself is not looked at. -/
theorem skippedByteIsDiscarded : Obligations.SkippedByteIsDiscarded := by
  intro P b s hst
  rw [rxByte_of_skip P b hst]
  rfl

/-! ### The header decision -/

/-- A length above 16 is refused before the range is looked at (42_framing.md R133). -/
theorem hdrOk_of_lt (P : Params) (a : Byte) {l : Byte} (hlen : 16 < l.toNat) : hdrOk P a l = false := by
  rw [Bool.eq_false_iff, Ne, hdrOk_iff]
  omega

/-- For a legal length the header condition is the range of the map. -/
theorem hdrOk_iff_of_le (P : Params) (a : Byte) {l : Byte} (hlen : l.toNat ≤ 16) :
    hdrOk P a l = true ↔ a.toNat < P.mapSize ∧ a.toNat + l.toNat ≤ P.mapSize := by
  rw [hdrOk_iff]
  omega

/-- The READ decision in the order of 42_framing.md R134, R135: the length, then the range. -/
theorem decideRead_eq (P : Params) (a l : Byte) (s : State) :
    decideRead P a l s =
      if 16 < l.toNat then (s.skipBytes 1).raise .lengthTooLarge
      else if a.toNat < P.mapSize ∧ a.toNat + l.toNat ≤ P.mapSize then s.goto .rdCsum
      else (s.skipBytes 1).raise .outOfRange := by
  by_cases hlen : 16 < l.toNat
  · simp [decideRead, headerError, hdrOk_of_lt P a hlen, hlen]
  · simp only [decideRead, headerError, hdrOk_iff_of_le P a (Nat.le_of_not_lt hlen), if_neg hlen]

/-- The WRITE decision in the order of 42_framing.md R134, R136: the length, then the range. -/
theorem decideWrite_eq (P : Params) (a l : Byte) (s : State) :
    decideWrite P a l s =
      if 16 < l.toNat then s.toHeader.raise .lengthTooLarge
      else if a.toNat < P.mapSize ∧ a.toNat + l.toNat ≤ P.mapSize then
        s.goto (if l = 0#8 then .wrCsum else .wrPayload)
      else (s.skipBytes (l.toNat + 1)).raise .outOfRange := by
  by_cases hlen : 16 < l.toNat
  · simp [decideWrite, hdrOk_of_lt P a hlen, hlen]
  · have hle : l.toNat ≤ 16 := Nat.le_of_not_lt hlen
    simp only [decideWrite, hdrOk_iff_of_le P a hle, if_neg hlen, if_pos hle]

/-- Settles O39: the command is classified first, then the two decisions go by length and range. -/
theorem headerIsDecidedInTheStatedOrder : Obligations.HeaderIsDecidedInTheStatedOrder := by
  intro P l s hst hcnt inRange next
  have hdecide : rxByte P l s = takeLengthAndDecide P l s := by
    rw [rxByte_of_hdr P l hst]
    simp [rxHeader, hcnt]
  have hvalid (ph : Phase) : (takeLength l s).goto ph = next ph 0#5 [] := by
    simp [next, State.goto, takeLength]
  rw [hdecide, takeLengthAndDecide, decideRead_eq, decideWrite_eq]
  refine ite_congr rfl (fun _ => ?read) fun _ => ite_congr rfl (fun _ => ?write) fun _ => rfl
  all_goals exact ite_congr rfl (fun _ => rfl) fun _ => ite_congr rfl (fun _ => hvalid _) fun _ => rfl

/-! ### Unknown commands -/

/-- The run of a frame whose command is neither READ nor WRITE (42_framing.md R138). -/
theorem runFrame_unknownCommand (P : Params) {c : Byte} (hread : c ≠ cmdRead) (hwrite : c ≠ cmdWrite) (a l : Byte)
    {s : State} (hb : s.atBoundary = true) :
    runFrame P [c, a, l] s =
      { s with cmd := c, addr := a, len := l, acc := c ^^^ a ^^^ l, diags := s.diags ++ [.unknownCommand] } := by
  obtain ⟨hst, hcnt⟩ := (atBoundary_iff s).mp hb
  rw [runFrame, if_pos hb, feed_header P c a l s hb]
  simp [takeLengthAndDecide, decideUnknownCommand, hread, hwrite, takeLength, State.toHeader, State.raise, hst, hcnt]

/-- A row with a leading bit at 4 or above holds no known command, whatever its low bits are (30_encoding.md R80). -/
theorem runFrame_unknownRow (P : Params) {k : Byte} (hk : 4 ≤ k.toNat) (low a l : Byte) {s : State}
    (hb : s.atBoundary = true) :
    runFrame P [k ||| low, a, l] s =
      { s with
        cmd := k ||| low, addr := a, len := l, acc := (k ||| low) ^^^ a ^^^ l
        diags := s.diags ++ [.unknownCommand] } := by
  have hle : 4 ≤ (k ||| low).toNat := by
    rw [BitVec.toNat_or]
    exact hk.trans Nat.left_le_or
  refine runFrame_unknownCommand P ?_ ?_ a l hb <;> intro h <;> rw [h] at hle <;> exact absurd hle (by decide)

/-- Settles O23: in six of the rows the command byte is the row's leading bit with the low bits under it. -/
theorem unknownCommandsTakeThreeBytes : Obligations.UnknownCommandsTakeThreeBytes := by
  intro a l s hb dropped
  have single {c : Byte} (hread : c ≠ cmdRead) (hwrite : c ≠ cmdWrite) :
      .next (runFrame Config.params [c, a, l] s) = dropped c :=
    congrArg Host.Outcome.next (runFrame_unknownCommand Config.params hread hwrite a l hb)
  have row (k : Byte) (hk : 4 ≤ k.toNat) (low : Byte) :
      .next (runFrame Config.params [k ||| low, a, l] s) = dropped (k ||| low) :=
    congrArg Host.Outcome.next (runFrame_unknownRow Config.params hk low a l hb)
  exact ⟨single (by decide) (by decide), single (by decide) (by decide), fun _ => row 0x04#8 (by decide) _,
    fun _ => row 0x08#8 (by decide) _, fun _ => row 0x10#8 (by decide) _, fun _ => row 0x20#8 (by decide) _,
    fun _ => row 0x40#8 (by decide) _, fun _ => row 0x80#8 (by decide) _⟩

/-! ### The link reset -/

/-- `LinkReset` as one update of the engine's registers (42_framing.md R144). -/
theorem linkReset_eq (s : State) :
    linkReset s =
      { s with
        st := .hdr, cnt := 0#5
        diags := if s.st = .hdr ∧ s.cnt = 0#5 then s.diags else s.diags ++ [.incompleteFrame] } := by
  rcases linkReset_cases s with ⟨hb, e⟩ | ⟨hb, e⟩ <;> rw [e]
  · obtain ⟨hst, hcnt⟩ := (atBoundary_iff s).mp hb
    rw [if_pos ⟨hst, hcnt⟩, ← hst, ← hcnt]
  · have hbusy : ¬(s.st = .hdr ∧ s.cnt = 0#5) := by
      rw [← atBoundary_iff, hb]
      exact Bool.false_ne_true
    rw [if_neg hbusy]
    rfl

/-- `rst` at a clock edge wins over every other input (70_reset_and_hazards.md R243). -/
theorem clockEdge_of_rst (P : Params) {p : Pins} (h : p.rst = true) (s : State) :
    clockEdge P p s = performStep P s .reset := by
  rw [clockEdge, edgeSteps, if_pos h]
  rfl

/-- Settles O45: by cases on the frame boundary, and `rst` before everything at a clock edge. -/
theorem linkResetAbandonsTheTransaction : Obligations.LinkResetAbandonsTheTransaction :=
  fun P s => ⟨linkReset_eq s, fun _ hrst _ => clockEdge_of_rst P hrst s⟩

end Sys2Proof.Machine

namespace Sys2Proof.Machine

/-! PROOF. The READ command (43_read_command.md): its commit (R162); and the bytes after a valid header, its checksum byte (R161)
with the payload and checksum bytes of a WRITE (44_write_command.md R171, R172). -/

/-! ### The commit of a READ -/

/-- A commit waits until the guard is free (20_memory.md R52). -/
theorem commit_of_owner_ne_free (P : Params) {s : State} (ho : s.owner ≠ .free) : commit P s = s := if_neg ho

theorem commit_of_commitRd (P : Params) {s : State} (ho : s.owner = .free) (hst : s.st = .commitRd) :
    commit P s = commitRead P s := by
  rw [commit, if_pos ho, hst]

/-- A loaded buffer holds what was loaded, and behind it what it held before. -/
theorem bufWrite_zero_getElem (v : Vector Byte 16) {d : List Byte} (hd : d.length ≤ 16) {k : Nat} (hk : k < 16) :
    (bufWrite v 0 d)[k] = if h : k < d.length then d[k] else v[k] := by
  have hlist : (bufWrite v 0 d).toList = d ++ v.toList.drop d.length := by
    simpa using bufWrite_toList v 0 d (by omega)
  have hget : (bufWrite v 0 d)[k]? = (d ++ v.toList.drop d.length)[k]? := by
    rw [← hlist, Vector.getElem?_toList]
  split
  next h => simpa [List.getElem?_append_left h, hk, h] using hget
  next h =>
    have hle : d.length ≤ k := Nat.le_of_not_lt h
    simpa [List.getElem?_append_right hle, Nat.add_sub_cancel' hle, hk] using hget

/-- Settles O43: the guard decides whether the commit runs, and a valid header that its range is inside the map. -/
theorem readCommitSnapshotsTheCells : Obligations.ReadCommitSnapshotsTheCells := by
  intro P s hst hok
  refine ⟨commit_of_owner_ne_free P, fun ho => ?_⟩
  obtain ⟨_, hle, h16⟩ := hdrOk_iff.mp hok
  have hcommit := (commit_of_commitRd P ho hst).trans (commitRead_of_le hle)
  refine ⟨bufWrite s.buf 0 (Memory.readList s.map s.addr.toNat s.len.toNat), hcommit, fun k hk => ?_⟩
  rw [bufWrite_zero_getElem s.buf (by simpa using h16) hk]
  simp only [Memory.readList_length]
  split
  next h => exact Memory.readList_getElem h
  next => rfl

/-! ### The bytes after a valid header -/

theorem rxByte_of_rdCsum (P : Params) (b : Byte) {s : State} (hst : s.st = .rdCsum) :
    rxByte P b s = rxReadChecksum b s := by
  rw [rxByte, hst]

theorem rxByte_of_wrPayload (P : Params) (b : Byte) {s : State} (hst : s.st = .wrPayload) :
    rxByte P b s = rxPayload b s := by
  rw [rxByte, hst]

theorem rxByte_of_wrCsum (P : Params) (b : Byte) {s : State} (hst : s.st = .wrCsum) :
    rxByte P b s = rxWriteChecksum b s := by
  rw [rxByte, hst]

/-- Settles O40: the phase says which byte this is; a payload byte changes the one buffer cell at the count. -/
theorem payloadAndChecksumBytesAreTaken : Obligations.PayloadAndChecksumBytesAreTaken := by
  intro P b s
  refine ⟨fun hst => ?readChecksum, fun hst _ _ => ?payload, fun hst => ?writeChecksum⟩
  case readChecksum => exact rxByte_of_rdCsum P b hst
  case payload =>
    refine ⟨s.buf.setIfInBounds s.cnt.toNat b, fun k hk => ?_, rxByte_of_wrPayload P b hst⟩
    rw [Vector.getElem_setIfInBounds hk]
    exact if_congr eq_comm rfl rfl
  case writeChecksum => exact rxByte_of_wrCsum P b hst

end Sys2Proof.Machine

namespace Sys2Proof.Machine

/-! PROOF. The WRITE command (44_write_command.md): its commit stores the whole payload in one step (R173). -/

theorem commit_of_commitWr (P : Params) {s : State} (ho : s.owner = .free) (hst : s.st = .commitWr) :
    commit P s = commitWrite P s := by
  rw [commit, if_pos ho, hst]

/-- The payload is already cut to `len`, so the commit stores it as it stands. -/
theorem State.payload_take_len (s : State) : s.payload.take s.len.toNat = s.payload := by
  rw [State.payload, List.take_take, Nat.min_self]

theorem State.payload_getElem (s : State) {k : Nat} (hk : k < s.payload.length) (h16 : k < 16) :
    s.payload[k] = s.buf[k] := by
  simp [State.payload]

/-- The commit of a WRITE whose range is inside the map, with the guard free, as one equation (R173). -/
theorem commit_eq_writeList {P : Params} {s : State} (ho : s.owner = .free) (hst : s.st = .commitWr)
    (hle : s.addr.toNat + s.len.toNat ≤ P.mapSize) :
    commit P s = (s.withMap (Memory.writeList s.map s.addr.toNat s.payload)).emit .ack := by
  rw [commit_of_commitWr P ho hst, commitWrite_of_le hle, s.payload_take_len]

/-- Settles O44: the guard decides whether the commit runs; a valid header puts the range inside the map and bounds the payload
by the buffer, so the new map is `writeList`'s, cell by cell. -/
theorem writeCommitStoresTheBuffer : Obligations.WriteCommitStoresTheBuffer := by
  intro P s hst hok hwf
  refine ⟨commit_of_owner_ne_free P, fun ho => ?_⟩
  obtain ⟨_, hle, h16⟩ := hdrOk_iff.mp hok
  obtain ⟨hcanon, _⟩ := Memory.wf_iff.mp hwf
  have hlen : s.payload.length = s.len.toNat := s.payload_length.trans (Nat.min_eq_left h16)
  refine ⟨Memory.writeList s.map s.addr.toNat s.payload, commit_eq_writeList ho hst hle, fun k hk hklen => ?inRange,
    fun x hx => ?outside⟩
  case inRange =>
    have hkpay : k < s.payload.length := hlen.symm ▸ hklen
    exact (Memory.read_writeList_same hcanon (Nat.zero_le _) hkpay).trans (s.payload_getElem hkpay hk)
  case outside => exact Memory.read_writeList_other s.map s.payload (hlen.symm ▸ hx)

end Sys2Proof.Machine

namespace Sys2Proof.Machine

/-! PROOF. The consumer ports (45_consumer_port.md): the guard, taken (R184) and released (R185). -/

/-! ### Taking the guard -/

theorem consAcquire_of_owner_free {i : Nat} {s : State} (ho : s.owner = .free) (hi : i < s.ports.length) :
    consAcquire i s = { s with owner := .cons i } := if_pos ⟨ho, hi⟩

/-- No port acquires a guard that is held, and neither does its holder: the lock does not nest (R184). -/
theorem consAcquire_of_owner_ne_free (i : Nat) {s : State} (ho : s.owner ≠ .free) : consAcquire i s = s :=
  if_neg fun ⟨hfree, _⟩ => ho hfree

/-- A port that may not access the map waits, whatever it presents (20_memory.md R53). -/
theorem consAccess_of_not_mayAccess (P : Params) {i : Nat} {s : State} (hm : ¬s.mayAccess i = true) :
    consAccess P i s = s := by
  rcases consAccess_cases P i s with ⟨_, e⟩ | ⟨_, _, _, hmay, _⟩ | ⟨_, _, _, hmay, _⟩
  · exact e
  · exact absurd hmay hm
  · exact absurd hmay hm

/-- While a port holds the guard, it is the only one that may access the map. -/
theorem State.mayAccess_iff_eq_of_owner_cons {s : State} {i : Nat} (ho : s.owner = .cons i) (j : Nat) :
    s.mayAccess j = true ↔ j = i := by
  rw [s.mayAccess_iff, ho]
  simp [eq_comm]

/-- Settles O34: a held guard is not free, so it stops the commit and every acquire; and its holder alone may access. -/
theorem acquireTakesTheLockAlone : Obligations.AcquireTakesTheLockAlone := by
  intro P s i hi
  refine ⟨fun hfree => consAcquire_of_owner_free hfree hi, consAcquire_of_owner_ne_free i, fun hown => ?held⟩
  case held =>
    have hheld : s.owner ≠ .free := by simp [hown]
    have holder := State.mayAccess_iff_eq_of_owner_cons hown
    exact ⟨commit_of_owner_ne_free P hheld, (holder i).mpr rfl, fun j hj =>
      ⟨consAccess_of_not_mayAccess P (mt (holder j).mp hj), consAcquire_of_owner_ne_free j hheld⟩⟩

/-! ### Releasing the guard -/

theorem consRelease_of_owner {i : Nat} {s : State} (ho : s.owner = .cons i) :
    consRelease i s = { s with owner := .free } := if_pos ho

theorem consRelease_of_owner_ne {i : Nat} {s : State} (ho : s.owner ≠ .cons i) : consRelease i s = s := if_neg ho

/-- `LinkReset` does not touch the guard (R185). -/
theorem linkReset_owner (s : State) : (linkReset s).owner = s.owner := by rw [linkReset_eq]

/-- Settles O35: the owner decides whether the release is enabled; the two resets differ in what they do to the guard. -/
theorem releaseFreesTheLock : Obligations.ReleaseFreesTheLock :=
  fun s _ => ⟨consRelease_of_owner, consRelease_of_owner_ne, s.resetBlock_owner, linkReset_owner s⟩

end Sys2Proof.Machine

namespace Sys2Proof.Machine

/-! PROOF. Reset and hazards (70_reset_and_hazards.md): what `Reset` clears and keeps (R240, R244), and its precedence at a
clock edge (R243). -/

/-- After `Reset` every cell holds 0x00, at any address (R240). -/
theorem State.resetBlock_read (s : State) (a : Nat) : Memory.read s.resetBlock.map a = 0x00#8 := by
  rw [State.resetBlock_map, Memory.read_nil]

/-- Settles O46: `rst` wins at a clock edge; the block's cells and registers are cleared, what lies outside it is kept. -/
theorem resetClearsTheBlock : Obligations.ResetClearsTheBlock := by
  intro P s
  refine ⟨fun _ hrst => clockEdge_of_rst P hrst s, ?reset⟩
  case reset =>
    have hreset : performStep P s .reset = s.resetBlock := rfl
    rw [hreset]
    exact ⟨s.resetBlock_read, s.resetBlock_st, s.resetBlock_cnt, s.resetBlock_owner, s.resetBlock_cmd,
      s.resetBlock_addr, s.resetBlock_len, s.resetBlock_acc, s.resetBlock_buf, s.resetBlock_ridx, s.resetBlock_rkind,
      s.resetBlock_tx, s.resetBlock_diags, s.resetBlock_results, s.resetBlock_rx⟩

end Sys2Proof.Machine

namespace Sys2Proof.Machine

/-! PROOF. The invariant (10_state.md R21): it holds after `Reset`, and every operation of the engine, of a port and of the
environment keeps it, so every step does. -/

/-! ### The phase table, phase by phase -/

/-- At a command byte the table says nothing (log 15). -/
theorem State.phaseInv_of_atBoundary (P : Params) {s : State} (h : s.atBoundary = true) : s.PhaseInv P := by
  obtain ⟨hst, hcnt⟩ := (atBoundary_iff s).mp h
  simp [State.PhaseInv, hst, hcnt]

theorem State.phaseInv_hdr {P : Params} {s : State} (hst : s.st = .hdr) :
    s.PhaseInv P ↔
      s.cnt.toNat ≤ 2 ∧ (s.cnt = 1#5 → s.acc = s.cmd) ∧ (s.cnt = 2#5 → s.acc = s.cmd ^^^ s.addr) := by
  rw [State.PhaseInv, hst]

theorem State.phaseInv_rdCsum {P : Params} {s : State} (hst : s.st = .rdCsum) :
    s.PhaseInv P ↔ s.cmd = cmdRead ∧ hdrOk P s.addr s.len = true ∧ s.acc = s.cmd ^^^ s.addr ^^^ s.len := by
  rw [State.PhaseInv, hst]

theorem State.phaseInv_wrPayload {P : Params} {s : State} (hst : s.st = .wrPayload) :
    s.PhaseInv P ↔
      s.cmd = cmdWrite ∧ hdrOk P s.addr s.len = true ∧ 1 ≤ s.len.toNat ∧ s.cnt.toNat < s.len.toNat ∧
        s.acc = s.cmd ^^^ s.addr ^^^ s.len ^^^ xorFold (s.buf.toList.take s.cnt.toNat) := by
  rw [State.PhaseInv, hst]

theorem State.phaseInv_wrCsum {P : Params} {s : State} (hst : s.st = .wrCsum) :
    s.PhaseInv P ↔
      s.cmd = cmdWrite ∧ hdrOk P s.addr s.len = true ∧ s.acc = s.cmd ^^^ s.addr ^^^ s.len ^^^ xorFold s.payload := by
  rw [State.PhaseInv, hst]

theorem State.phaseInv_skip {P : Params} {s : State} (hst : s.st = .skip) :
    s.PhaseInv P ↔ 1 ≤ s.cnt.toNat ∧ s.cnt.toNat ≤ 17 := by
  rw [State.PhaseInv, hst]

theorem State.phaseInv_commitRd {P : Params} {s : State} (hst : s.st = .commitRd) :
    s.PhaseInv P ↔ s.cmd = cmdRead ∧ hdrOk P s.addr s.len = true := by
  rw [State.PhaseInv, hst]

theorem State.phaseInv_commitWr {P : Params} {s : State} (hst : s.st = .commitWr) :
    s.PhaseInv P ↔
      s.cmd = cmdWrite ∧ hdrOk P s.addr s.len = true ∧ s.acc = s.cmd ^^^ s.addr ^^^ s.len ^^^ xorFold s.payload := by
  rw [State.PhaseInv, hst]

theorem State.respFrame_length_of_data {s : State} (hk : s.rkind = .data) :
    s.respFrame.length = min s.len.toNat 16 + 3 := by
  simp [State.respFrame, hk, dataFrame, State.payload_length]

theorem State.respFrame_length_of_ne_data {s : State} (hk : s.rkind ≠ .data) : s.respFrame.length = 3 := by
  cases h : s.rkind
  · exact absurd h hk
  · simp [State.respFrame, h, ackFrame]
  · simp [State.respFrame, h, nackFrame]

/-- In `RESP` the table says whose frame is answered and that the index is inside the response. -/
theorem State.phaseInv_resp {P : Params} {s : State} (hst : s.st = .resp) :
    s.PhaseInv P ↔
      (s.rkind = .data → s.cmd = cmdRead ∧ hdrOk P s.addr s.len = true) ∧ (s.rkind ≠ .data → s.cmd = cmdWrite) ∧
        s.ridx.toNat < s.respFrame.length := by
  rw [State.PhaseInv, hst]
  cases hk : s.rkind
  case data =>
    simp only [State.respFrame_length_of_data hk, hdrOk_iff]
    constructor
    · rintro ⟨hcmd, ⟨h1, h2, h16⟩, hridx⟩
      exact ⟨fun _ => ⟨hcmd, h1, h2, h16⟩, fun hne => absurd rfl hne, by omega⟩
    · rintro ⟨hdata, _, hridx⟩
      obtain ⟨hcmd, hok⟩ := hdata trivial
      exact ⟨hcmd, hok, by omega⟩
  all_goals simp [State.respFrame_length_of_ne_data (s := s) (by simp [hk])]

/-! ### Received bytes -/

theorem takeLengthAndDecide_phaseInv (P : Params) (b : Byte) {s : State} (hacc : s.acc = s.cmd ^^^ s.addr) :
    (takeLengthAndDecide P b s).PhaseInv P := by
  rcases takeLengthAndDecide_cases P b s with ⟨hcmd, hok, e⟩ | ⟨_, _, e⟩ | ⟨hcmd, hok, e⟩ | ⟨_, _, hle, e⟩ | ⟨_, _, _, e⟩ |
    ⟨_, _, e⟩ <;> rw [e]
  case inl => exact (State.phaseInv_rdCsum rfl).mpr ⟨hcmd, hok, by simp [hacc]⟩
  case inr.inl => exact (State.phaseInv_skip rfl).mpr (by simp)
  case inr.inr.inl =>
    by_cases h0 : b = 0#8
    · rw [if_pos h0]
      exact (State.phaseInv_wrCsum rfl).mpr ⟨hcmd, hok, by simp [hacc, State.payload, h0]⟩
    · rw [if_neg h0]
      have hpos : 0 < b.toNat := by bv_omega
      exact (State.phaseInv_wrPayload rfl).mpr ⟨hcmd, hok, hpos, by simpa using hpos, by simp [hacc]⟩
  case inr.inr.inr.inl =>
    refine (State.phaseInv_skip rfl).mpr ?_
    have hle16 : b.toNat ≤ 16 := hle
    simp only [State.raise_cnt, State.skipBytes_cnt, BitVec.toNat_ofNat]
    omega
  all_goals exact State.phaseInv_of_atBoundary P rfl

theorem rxPayload_phaseInv {P : Params} (b : Byte) {s : State} (hst : s.st = .wrPayload) (h : s.PhaseInv P) :
    (rxPayload b s).PhaseInv P := by
  obtain ⟨hcmd, hok, hpos, hcnt, hacc⟩ := (State.phaseInv_wrPayload hst).mp h
  obtain ⟨_, _, h16⟩ := hdrOk_iff.mp hok
  have hfold : s.acc ^^^ b = s.cmd ^^^ s.addr ^^^ s.len ^^^
      xorFold ((s.buf.setIfInBounds s.cnt.toNat b).toList.take (s.cnt.toNat + 1)) := by
    rw [take_succ_setIfInBounds s.buf b (by omega), checksumOfAConcatenation, hacc, BitVec.xor_assoc _ _ b]
    simp [xorFold_cons]
  unfold rxPayload
  dsimp only
  split
  next hlast =>
    refine (State.phaseInv_wrCsum rfl).mpr ⟨hcmd, hok, ?_⟩
    simpa [State.payload, ← hlast] using hfold
  next hmore =>
    have hinc : (s.cnt + 1#5).toNat = s.cnt.toNat + 1 := by bv_omega
    rw [← hinc] at hfold
    exact (State.phaseInv_wrPayload (by exact hst)).mpr ⟨hcmd, hok, hpos, by dsimp only; omega, hfold⟩

theorem rxSkip_phaseInv {P : Params} {s : State} (hst : s.st = .skip) (h : s.PhaseInv P) : (rxSkip s).PhaseInv P := by
  obtain ⟨hpos, hle⟩ := (State.phaseInv_skip hst).mp h
  unfold rxSkip
  split
  next => exact State.phaseInv_of_atBoundary P rfl
  next hne =>
    refine (State.phaseInv_skip (by exact hst)).mpr ?_
    dsimp only
    bv_omega

/-- A received byte keeps the phase table. -/
theorem rxByte_phaseInv {P : Params} (b : Byte) {s : State} (h : s.PhaseInv P) : (rxByte P b s).PhaseInv P := by
  rcases rxByte_cases P b s with ⟨hst, _, e⟩ | ⟨hst, hcnt, e⟩ | ⟨hst, hcnt, e⟩ | ⟨_, _, _, _, e⟩ | ⟨hst, e⟩ | ⟨hst, e⟩ |
    ⟨hst, e⟩ | ⟨hst, e⟩ | ⟨_, e⟩ <;> rw [e]
  · exact (State.phaseInv_hdr (by exact hst)).mpr (by simp)
  · obtain ⟨_, hacc, _⟩ := (State.phaseInv_hdr hst).mp h
    exact (State.phaseInv_hdr (by exact hst)).mpr (by simp [hacc hcnt])
  · obtain ⟨_, _, hacc⟩ := (State.phaseInv_hdr hst).mp h
    exact takeLengthAndDecide_phaseInv P b (hacc hcnt)
  · exact h
  · obtain ⟨hcmd, hok, _⟩ := (State.phaseInv_rdCsum hst).mp h
    unfold rxReadChecksum
    split
    · exact (State.phaseInv_commitRd rfl).mpr ⟨hcmd, hok⟩
    · exact State.phaseInv_of_atBoundary P rfl
  · exact rxPayload_phaseInv b hst h
  · obtain ⟨hcmd, hok, hacc⟩ := (State.phaseInv_wrCsum hst).mp h
    unfold rxWriteChecksum
    split
    · exact (State.phaseInv_commitWr rfl).mpr ⟨hcmd, hok, hacc⟩
    · exact ⟨hcmd, by simp⟩
  · exact rxSkip_phaseInv hst h
  · exact h

/-! ### The engine's operations -/

theorem rxByte_inv {P : Params} (b : Byte) {s : State} (h : s.Inv P) : (rxByte P b s).Inv P := by
  obtain ⟨hmap, howner, hports, -⟩ := rxByte_frame P b s
  refine ⟨by rw [hmap]; exact h.map, rxByte_phaseInv b h.phase, ?_, by rw [hports]; exact h.ports⟩
  rw [State.OwnerInv, howner]
  exact h.owner

theorem rxStep_inv {P : Params} {s : State} (h : s.Inv P) : (rxStep P s).Inv P := by
  rcases rxStep_cases P s with ⟨_, e⟩ | ⟨b, bs, _, _, e⟩ <;> rw [e]
  · exact h
  · exact rxByte_inv b (s := { s with rx := bs }) ⟨h.map, h.phase, h.owner, h.ports⟩

theorem commitRead_phaseInv {P : Params} {s : State} (hst : s.st = .commitRd) (h : s.PhaseInv P) :
    (commitRead P s).PhaseInv P := by
  obtain ⟨hcmd, hok⟩ := (State.phaseInv_commitRd hst).mp h
  obtain ⟨_, hle, _⟩ := hdrOk_iff.mp hok
  rw [commitRead_of_le hle]
  exact ⟨hcmd, hok, by simp⟩

theorem commitWrite_phaseInv {P : Params} {s : State} (hst : s.st = .commitWr) (h : s.PhaseInv P) :
    (commitWrite P s).PhaseInv P := by
  obtain ⟨hcmd, hok, _⟩ := (State.phaseInv_commitWr hst).mp h
  obtain ⟨_, hle, _⟩ := hdrOk_iff.mp hok
  rw [commitWrite_of_le hle]
  exact ⟨hcmd, by simp⟩

/-- A commit keeps the map canonical and inside `MAP_SIZE`. -/
theorem commit_map_wf {P : Params} {s : State} (h : Memory.wf P s.map = true) : Memory.wf P (commit P s).map = true := by
  by_cases hsame : (commit P s).map = s.map
  · rw [hsame]; exact h
  · obtain ⟨_, _, _, hle, e⟩ := commit_map_ne hsame
    rw [e]
    exact Memory.writeList_wf _ h hle

theorem commit_inv {P : Params} {s : State} (h : s.Inv P) : (commit P s).Inv P := by
  obtain ⟨howner, hports, -⟩ := commit_frame P s
  refine ⟨commit_map_wf h.map, ?_, ?_, by rw [hports]; exact h.ports⟩
  · rcases commit_cases P s with ⟨_, hst, e⟩ | ⟨_, hst, e⟩ | ⟨_, e⟩ <;> rw [e]
    · exact commitRead_phaseInv hst h.phase
    · exact commitWrite_phaseInv hst h.phase
    · exact h.phase
  · rw [State.OwnerInv, howner]
    exact h.owner

theorem txByte_phaseInv {P : Params} {s : State} (h : s.PhaseInv P) : (txByte s).PhaseInv P := by
  rcases txByte_cases s with ⟨_, e⟩ | ⟨_, _, e⟩ | ⟨hst, hmore, e⟩ <;> rw [e]
  · exact h
  · exact State.phaseInv_of_atBoundary P rfl
  · obtain ⟨hdata, hother, hridx⟩ := (State.phaseInv_resp hst).mp h
    refine (State.phaseInv_resp (by exact hst)).mpr ⟨hdata, hother, ?_⟩
    have hframe : State.respFrame { s with tx := s.tx ++ s.txData.toList, ridx := s.ridx + 1#5 } = s.respFrame := rfl
    have hinc : (s.ridx + 1#5).toNat ≤ s.ridx.toNat + 1 := by bv_omega
    rw [hframe]
    dsimp only
    omega

theorem txByte_inv {P : Params} {s : State} (h : s.Inv P) : (txByte s).Inv P := by
  obtain ⟨hmap, howner, hports, -⟩ := txByte_frame s
  refine ⟨by rw [hmap]; exact h.map, txByte_phaseInv h.phase, ?_, by rw [hports]; exact h.ports⟩
  rw [State.OwnerInv, howner]
  exact h.owner

theorem txBytes_inv {P : Params} (n : Nat) {s : State} (h : s.Inv P) : (txBytes n s).Inv P := by
  induction n generalizing s with
  | zero => exact h
  | succ n ih => exact ih (txByte_inv h)

theorem settle_inv {P : Params} {s : State} (h : s.Inv P) : (settle P s).Inv P :=
  txBytes_inv _ (commit_inv h)

theorem feed_inv {P : Params} (bytes : List Byte) {s : State} (h : s.Inv P) : (feed P bytes s).Inv P := by
  induction bytes generalizing s with
  | nil => rwa [feed_nil]
  | cons b bs ih =>
    rw [feed_cons]
    exact ih (settle_inv (rxByte_inv b h))

theorem runFrame_inv {P : Params} (bytes : List Byte) {s : State} (h : s.Inv P) : (runFrame P bytes s).Inv P := by
  rcases runFrame_cases P bytes s with ⟨_, e⟩ | ⟨_, e⟩ <;> rw [e]
  · exact feed_inv bytes h
  · exact h

theorem deliver_inv {P : Params} (k : RKind) (bytes : List Byte) {s : State} (h : s.Inv P) :
    (deliver k bytes s).Inv P := by
  rcases deliver_cases k bytes s with ⟨_, e⟩ | ⟨_, e⟩ <;> rw [e]
  · exact txBytes_inv _ h
  · exact h

/-! ### The ports -/

/-- Other signals at a port say nothing about the block. -/
theorem State.Inv.setPort {P : Params} {s : State} (h : s.Inv P) (i : Nat) (p : Port) : (s.setPort i p).Inv P :=
  ⟨h.map, h.phase, h.owner, by rw [State.setPort_ports, List.length_set, h.ports]⟩

theorem State.Inv.grant {P : Params} {s : State} (h : s.Inv P) (i : Nat) (p : Port) (err : Bool)
    (rdata : Option Lanes) : (s.grant i p err rdata).Inv P :=
  ⟨h.map, h.phase, h.owner, by rw [State.grant_ports, List.length_set, h.ports]⟩

theorem State.Inv.refuseRead {P : Params} {s : State} (h : s.Inv P) (i : Nat) (p : Port) : (s.refuseRead i p).Inv P :=
  ⟨h.map, h.phase, h.owner, by rw [State.refuseRead_ports, List.length_set, h.ports]⟩

theorem State.Inv.withMap {P : Params} {s : State} (h : s.Inv P) {m : Memory} (hm : Memory.wf P m = true) :
    (s.withMap m).Inv P := ⟨hm, h.phase, h.owner, h.ports⟩

theorem consAccess_inv {P : Params} (i : Nat) {s : State} (h : s.Inv P) : (consAccess P i s).Inv P := by
  rcases consAccess_cases P i s with ⟨_, e⟩ | ⟨p, _, _, _, _, e⟩ | ⟨p, _, _, _, _, e⟩ <;> rw [e]
  · exact h
  · rcases performRead_cases P i p s with ⟨_, _, e⟩ | ⟨_, e⟩ <;> rw [e]
    · exact h.grant _ _ _ _
    · exact h.refuseRead _ _
  · rcases performWrite_cases P i p s with ⟨_, hle, e⟩ | ⟨_, e⟩ <;> rw [e]
    · exact (h.withMap (Memory.writeList_wf _ h.map (by simpa [unpackLanes] using hle))).grant _ _ _ _
    · exact h.grant _ _ _ _

/-- Only an existing port takes the lock (45_consumer_port.md R184). -/
theorem consAcquire_inv {P : Params} (i : Nat) {s : State} (h : s.Inv P) : (consAcquire i s).Inv P := by
  rcases consAcquire_cases i s with ⟨_, hi, e⟩ | ⟨_, e⟩ <;> rw [e]
  · exact ⟨h.map, h.phase, show i < P.nCons from h.ports ▸ hi, h.ports⟩
  · exact h

theorem consRelease_inv {P : Params} (i : Nat) {s : State} (h : s.Inv P) : (consRelease i s).Inv P := by
  rcases consRelease_cases i s with ⟨_, e⟩ | ⟨_, e⟩ <;> rw [e]
  · exact ⟨h.map, h.phase, trivial, h.ports⟩
  · exact h

theorem portTransaction_inv {P : Params} (i : Nat) {s : State} (h : s.Inv P) : (portTransaction P i s).Inv P := by
  rcases portTransaction_cases P i s with ⟨_, e⟩ | ⟨_, e⟩ <;> rw [e]
  · exact consAccess_inv i (consAcquire_inv i h)
  · exact consRelease_inv i (consAccess_inv i h)

theorem presentAs_inv {P : Params} (i : Nat) (f : PortReq → PortReq) {s : State} (h : s.Inv P) :
    (s.presentAs i f).Inv P := by
  unfold State.presentAs
  split
  · exact h
  · exact h.setPort _ _

theorem presentRequest_inv {P : Params} (i : Nat) (r : PortReq) {s : State} (h : s.Inv P) :
    (presentRequest i r s).Inv P := by
  unfold presentRequest
  split
  · exact h
  · split
    · exact h
    · exact h.setPort _ _

theorem driveLock_inv {P : Params} (i : Nat) (b : Bool) {s : State} (h : s.Inv P) : (driveLock i b s).Inv P := by
  unfold driveLock
  split
  · exact h
  · exact h.setPort _ _

/-! ### Resets, agents and instructions -/

theorem resetBlock_inv {P : Params} {s : State} (h : s.Inv P) : s.resetBlock.Inv P :=
  ⟨Memory.wf_nil P, State.phaseInv_of_atBoundary P rfl, trivial, h.ports⟩

theorem linkReset_inv {P : Params} {s : State} (h : s.Inv P) : (linkReset s).Inv P := by
  rcases linkReset_cases s with ⟨_, e⟩ | ⟨_, e⟩ <;> rw [e]
  · exact h
  · exact ⟨h.map, State.phaseInv_of_atBoundary P rfl, h.owner, h.ports⟩

theorem performStep_inv {P : Params} {s : State} (h : s.Inv P) (a : AgentStep) : (performStep P s a).Inv P := by
  cases a with
  | rxByte => exact rxStep_inv h
  | commit => exact commit_inv h
  | txByte => exact txByte_inv h
  | consAccess i => exact consAccess_inv i h
  | consAcquire i => exact consAcquire_inv i h
  | consRelease i => exact consRelease_inv i h
  | reset => exact resetBlock_inv h
  | linkReset => exact linkReset_inv h

theorem performSteps_inv {P : Params} (steps : List AgentStep) {s : State} (h : s.Inv P) :
    (performSteps P steps s).Inv P := by
  induction steps generalizing s with
  | nil => exact h
  | cons a steps ih => exact ih (performStep_inv h a)

theorem popEvent_inv {P : Params} {s : State} (h : s.Inv P) : s.popEvent.Inv P := by
  unfold State.popEvent
  split <;> exact ⟨h.map, h.phase, h.owner, h.ports⟩

/-- Every instruction keeps the invariant, whatever the state it is run from. -/
theorem exec_inv {i : Instr} {s t : State} (h : s.Inv Config.params) (ht : exec i s = .next t) :
    t.Inv Config.params := by
  cases i <;> cases ht
  case data | ack | nack => exact deliver_inv _ _ h
  case consRead | consWrite => exact portTransaction_inv _ (presentAs_inv _ _ h)
  all_goals exact runFrame_inv _ h

/-! ### Turns and steps -/

/-- Fetching takes bytes off the RX stream and changes nothing else. -/
theorem engineFetch_inv {P : Params} {i : Instr} {s t : State} (h : s.Inv P) (hf : engineFetch s = some (i, t)) :
    t.Inv P := by
  unfold engineFetch at hf
  repeat' split at hf
  all_goals cases hf
  · exact ⟨h.map, h.phase, h.owner, h.ports⟩
  · exact h

theorem engineAdvance_inv {P : Params} {s : State} (h : s.Inv P) : (engineAdvance P s).Inv P := by
  rw [engineAdvance]
  exact settle_inv (rxStep_inv h)

theorem engineTurn_inv {s t : State} (h : s.Inv Config.params) (ht : engineTurn s = .next t) : t.Inv Config.params := by
  unfold engineTurn at ht
  split at ht
  next hf => exact exec_inv (engineFetch_inv h hf) ht
  next =>
    exact Host.Outcome.next.inj ht ▸ engineAdvance_inv h

theorem portTurn_inv {i : Nat} {s t : State} (h : s.Inv Config.params) (ht : portTurn i s = .next t) :
    t.Inv Config.params := by
  unfold portTurn at ht
  split at ht
  next => exact exec_inv h ht
  next =>
    cases ht
    split
    · exact consAcquire_inv i h
    · exact consRelease_inv i h

theorem runEvent_inv {e : Event} {s t : State} (h : s.Inv Config.params) (ht : runEvent e s = .next t) :
    t.Inv Config.params := by
  cases e with
  | engine => exact engineTurn_inv h ht
  | port i => exact portTurn_inv h ht
  | agent a => cases ht; exact performStep_inv h a
  | edge p => cases ht; exact performSteps_inv _ h
  | present i r => cases ht; exact presentRequest_inv i r h
  | driveLock i b => cases ht; exact driveLock_inv i b h
  | hostSend bytes => cases ht; exact ⟨h.map, h.phase, h.owner, h.ports⟩

/-- Settles O9, event by event. -/
theorem everyStepKeepsTheInvariant : Obligations.EveryStepKeepsTheInvariant :=
  fun _ _ h ht => runEvent_inv (popEvent_inv h) ht

/-- Settles O10. -/
theorem resetMeetsTheInvariant : Obligations.ResetMeetsTheInvariant :=
  ⟨Memory.wf_nil _, State.phaseInv_of_atBoundary _ rfl, trivial, List.length_replicate⟩

end Sys2Proof.Machine

namespace Sys2Proof.Machine

/-! PROOF. Encoding (30_encoding.md): the rows of the unknown commands as ranges of the command byte (R80), what a request can
decode to (R71, R72, R81), and decode and encode as inverses. -/

/-- Settles O1: the decoder evaluates on each of these words. -/
theorem specWordsDecode : Obligations.SpecWordsDecode := by
  refine ⟨rfl, rfl, rfl, ?_, rfl, rfl, rfl, rfl⟩
  decide

/-! ### The rows of the unknown commands -/

theorem toNat_one {n : Nat} (hn : 0 < n) : (1#n).toNat = 1 := by simp [hn]

/-- A row's leading bit put before its low bits, as a number. -/
theorem toNat_one_append {n m : Nat} (hn : 0 < n) (low : BitVec m) : (1#n ++ low).toNat = 2 ^ m + low.toNat := by
  rw [BitVec.toNat_append, toNat_one hn, ← Nat.shiftLeft_add_eq_or_of_lt low.isLt, Nat.one_shiftLeft]

/-- The row whose leading bit is bit `m` holds the command bytes from `2 ^ m` to below `2 ^ (m + 1)`. -/
theorem extractLsb'_eq_one_iff (c : Byte) {m n : Nat} (hn : 0 < n) (hmn : n + m = 8) :
    c.extractLsb' m n = 1#n ↔ 2 ^ m ≤ c.toNat ∧ c.toNat < 2 ^ (m + 1) := by
  have hpos : 0 < 2 ^ m := by positivity
  have hdiv : c.toNat / 2 ^ m < 2 ^ n := by
    rw [Nat.div_lt_iff_lt_mul hpos, ← pow_add, hmn]
    exact c.isLt
  rw [← BitVec.toNat_inj, toNat_one hn, BitVec.extractLsb'_toNat, Nat.shiftRight_eq_div_pow, Nat.mod_eq_of_lt hdiv,
    Nat.div_eq_iff hpos, pow_succ]
  omega

/-- The row of an unknown command byte, by the range the byte lies in. -/
theorem decodeUnknown_eq (c a l : Byte) :
    decodeUnknown c a l =
      if c = 0x00#8 then .unknown00 a l
      else if c = 0x03#8 then .unknown03 a l
      else if 4 ≤ c.toNat ∧ c.toNat < 8 then .unknown04 (c.extractLsb' 0 2) a l
      else if 8 ≤ c.toNat ∧ c.toNat < 16 then .unknown08 (c.extractLsb' 0 3) a l
      else if 16 ≤ c.toNat ∧ c.toNat < 32 then .unknown10 (c.extractLsb' 0 4) a l
      else if 32 ≤ c.toNat ∧ c.toNat < 64 then .unknown20 (c.extractLsb' 0 5) a l
      else if 64 ≤ c.toNat ∧ c.toNat < 128 then .unknown40 (c.extractLsb' 0 6) a l
      else .unknown80 (c.extractLsb' 0 7) a l := by
  have row {m n : Nat} (hn : 0 < n) (hmn : n + m = 8) := extractLsb'_eq_one_iff c hn hmn
  simp only [decodeUnknown, row (m := 2) (n := 6) (by decide) rfl, row (m := 3) (n := 5) (by decide) rfl,
    row (m := 4) (n := 4) (by decide) rfl, row (m := 5) (n := 3) (by decide) rfl,
    row (m := 6) (n := 2) (by decide) rfl]
  norm_num

/-- A command byte above 3 is neither of the two known commands, and neither of the rows of a single byte. -/
theorem ne_of_four_le {c : Byte} (h : 4 ≤ c.toNat) : c ≠ 0x00#8 ∧ c ≠ cmdRead ∧ c ≠ cmdWrite ∧ c ≠ 0x03#8 := by
  refine ⟨?_, ?_, ?_, ?_⟩ <;> rintro rfl <;> exact absurd h (by decide)

theorem decodeRequest_unknown {c : Byte} (hread : c ≠ cmdRead) (hwrite : c ≠ cmdWrite) (a l : Byte)
    (rest : List Byte) : decodeRequest (c :: a :: l :: rest) = .ok (decodeUnknown c a l) rest := by
  simp [decodeRequest, hread, hwrite]

/-- A row's leading bit with low bits under it reads as that row with those low bits: each row's range is reached with the
ranges below it passed. -/
theorem decodeUnknown_row (a l : Byte) :
    (∀ low : BitVec 2, decodeUnknown (1#6 ++ low) a l = .unknown04 low a l) ∧
    (∀ low : BitVec 3, decodeUnknown (1#5 ++ low) a l = .unknown08 low a l) ∧
    (∀ low : BitVec 4, decodeUnknown (1#4 ++ low) a l = .unknown10 low a l) ∧
    (∀ low : BitVec 5, decodeUnknown (1#3 ++ low) a l = .unknown20 low a l) ∧
    (∀ low : BitVec 6, decodeUnknown (1#2 ++ low) a l = .unknown40 low a l) ∧
    (∀ low : BitVec 7, decodeUnknown (1#1 ++ low) a l = .unknown80 low a l) := by
  refine ⟨fun low => ?_, fun low => ?_, fun low => ?_, fun low => ?_, fun low => ?_, fun low => ?_⟩
  all_goals
    have hlt := low.isLt
    rw [decodeUnknown_eq, BitVec.extractLsb'_append_eq_right]
    obtain ⟨h0, -, -, h3⟩ := ne_of_four_le (c := _ ++ low) (by rw [toNat_one_append (by decide)]; omega)
    rw [if_neg h0, if_neg h3, toNat_one_append (by decide)]
    grind

/-- A command byte of a row is the row's leading bit before its low bits. -/
theorem append_extractLsb'_of_row {c : Byte} {m n : Nat} (h : c.extractLsb' m n = 1#n) :
    1#n ++ c.extractLsb' 0 m = c.extractLsb' 0 (n + m) := by
  rw [← h, BitVec.extractLsb'_append_extractLsb'_eq_extractLsb' (Nat.zero_add m).symm]

/-- The row read for an unknown command writes the same bytes again: the rows leave no command byte out (R80). -/
theorem encode_decodeUnknown {c : Byte} (hread : c ≠ cmdRead) (hwrite : c ≠ cmdWrite) (a l : Byte) :
    encode (decodeUnknown c a l) = .request [c, a, l] := by
  have request {c' : Byte} (h : c' = c.extractLsb' 0 8) : Encoded.request [c', a, l] = .request [c, a, l] := by
    rw [h, BitVec.extractLsb'_eq_self]
  unfold decodeUnknown
  split
  case isTrue h => rw [h]; rfl
  split
  case isTrue h => rw [h]; rfl
  split
  case isTrue h => exact request (append_extractLsb'_of_row h)
  split
  case isTrue h => exact request (append_extractLsb'_of_row h)
  split
  case isTrue h => exact request (append_extractLsb'_of_row h)
  split
  case isTrue h => exact request (append_extractLsb'_of_row h)
  split
  case isTrue h => exact request (append_extractLsb'_of_row h)
  case isFalse hzero hthree row2 row3 row4 row5 row6 =>
    refine request (append_extractLsb'_of_row (m := 7) (n := 1) ?_)
    rw [extractLsb'_eq_one_iff c (by decide) rfl] at row2 row3 row4 row5 row6 ⊢
    have ne0 : c.toNat ≠ 0 := fun e => hzero (BitVec.eq_of_toNat_eq e)
    have ne1 : c.toNat ≠ 1 := fun e => hread (BitVec.eq_of_toNat_eq e)
    have ne2 : c.toNat ≠ 2 := fun e => hwrite (BitVec.eq_of_toNat_eq e)
    have ne3 : c.toNat ≠ 3 := fun e => hthree (BitVec.eq_of_toNat_eq e)
    have hlt := c.isLt
    omega

/-! ### What a request can decode to -/

/-- Everything a decoded request can be, by its command byte (R71, R72, R80, R81). -/
theorem decodeRequest_cases {bs rest : List Byte} {i : Instr} (h : decodeRequest bs = .ok i rest) :
    ∃ c a l t, bs = c :: a :: l :: t ∧
      ((c = cmdRead ∧ ∃ k, t = k :: rest ∧ i = .read a l k) ∨
       (c = cmdWrite ∧ 16 < l.toNat ∧ t = rest ∧ i = .write a l .overLength) ∨
       (c = cmdWrite ∧ l.toNat ≤ 16 ∧ ∃ d k, d.length = l.toNat ∧ t = d ++ k :: rest ∧
         i = .write a l (.complete d k)) ∨
       (c ≠ cmdRead ∧ c ≠ cmdWrite ∧ t = rest ∧ i = decodeUnknown c a l)) := by
  unfold decodeRequest at h
  split at h
  case h_2 => cases h
  case h_1 c a l t =>
    refine ⟨c, a, l, t, rfl, ?_⟩
    split at h
    case isTrue hread =>
      split at h <;> cases h
      exact .inl ⟨hread, _, rfl, rfl⟩
    case isFalse hread =>
      split at h
      case isTrue hwrite =>
        split at h
        case isTrue hl =>
          cases h
          exact .inr (.inl ⟨hwrite, hl, rfl, rfl⟩)
        case isFalse hl =>
          split at h <;> cases h
          next k hdrop =>
          have hlen : l.toNat < t.length := by
            rw [← Nat.sub_pos_iff_lt, ← List.length_drop, hdrop]
            simp
          refine .inr (.inr (.inl ⟨hwrite, Nat.le_of_not_lt hl, t.take l.toNat, k, ?_, ?_, rfl⟩))
          · rw [List.length_take, Nat.min_eq_left hlen.le]
          · rw [← hdrop, List.take_append_drop]
      case isFalse hwrite =>
        cases h
        exact .inr (.inr (.inr ⟨hread, hwrite, rfl, rfl⟩))

/-- Settles O4, by what the request can be. -/
theorem requestLengthFollowsItsHeader : Obligations.RequestLengthFollowsItsHeader := by
  intro c a l t rest i h
  obtain ⟨c', a', l', t', hbs, hcases⟩ := decodeRequest_cases (bs := c :: a :: l :: t) h
  cases hbs
  have hne : cmdWrite ≠ 0x01#8 := by decide
  rcases hcases with ⟨rfl, k, rfl, _⟩ | ⟨rfl, hl, rfl, _⟩ | ⟨rfl, hl, d, k, hd, rfl, _⟩ | ⟨hread, hwrite, rfl, _⟩
  · simp
  · simp [hne, Nat.not_le.mpr hl]
  · simp [hne, hl, hd]
    omega
  · simp [hread, hwrite]

/-- Settles O3, by what the request can be. -/
theorem decodedRequestReencodesToItsBytes : Obligations.DecodedRequestReencodesToItsBytes := by
  intro bs rest i h
  obtain ⟨c, a, l, t, rfl, hcases⟩ := decodeRequest_cases h
  rcases hcases with ⟨rfl, k, rfl, rfl⟩ | ⟨rfl, hl, rfl, rfl⟩ | ⟨rfl, hl, d, k, hd, rfl, rfl⟩ | ⟨hread, hwrite, rfl, rfl⟩
  · exact ⟨rfl, _, rfl, rfl⟩
  · exact ⟨decide_eq_true hl, _, rfl, rfl⟩
  · exact ⟨by simp [Instr.wf, Instr.wfAt, WriteTail.fits, hl, hd], _, rfl, by simp [WriteTail.bytes]⟩
  · refine ⟨?_, [c, a, l], encode_decodeUnknown hread hwrite a l, rfl⟩
    unfold decodeUnknown
    split_ifs <;> rfl

/-! ### Decoding an encoded instruction -/

theorem cmdWrite_ne_cmdRead : cmdWrite ≠ cmdRead := by decide

theorem decodeRequest_read (a l k : Byte) (rest : List Byte) :
    decodeRequest (cmdRead :: a :: l :: k :: rest) = .ok (.read a l k) rest := rfl

/-- A WRITE whose tail fits its LEN byte, whatever follows it. -/
theorem decodeRequest_write (a l : Byte) {tail : WriteTail} (h : tail.fits l = true) (rest : List Byte) :
    decodeRequest (cmdWrite :: a :: l :: (tail.bytes ++ rest)) = .ok (.write a l tail) rest := by
  cases tail with
  | overLength =>
    have hl : maxPayload < l.toNat := by simpa [WriteTail.fits] using h
    simp [decodeRequest, WriteTail.bytes, cmdWrite_ne_cmdRead, hl]
  | complete d k =>
    obtain ⟨hl, hd⟩ : l.toNat ≤ maxPayload ∧ d.length = l.toNat := by simpa [WriteTail.fits] using h
    rw [← hd] at hl
    simp [decodeRequest, WriteTail.bytes, cmdWrite_ne_cmdRead, ← hd, Nat.not_lt.mpr hl]

/-- A request of an unknown row, whatever follows it. -/
theorem decodeRequest_of_four_le {c : Byte} (h : 4 ≤ c.toNat) {a l : Byte} {i : Instr}
    (hi : decodeUnknown c a l = i) (rest : List Byte) : decodeRequest (c :: a :: l :: rest) = .ok i rest := by
  obtain ⟨-, hread, hwrite, -⟩ := ne_of_four_le h
  rw [decodeRequest_unknown hread hwrite, hi]

theorem decodeResponse_data (a l k : Byte) {d : List Byte} (hl : l.toNat ≤ 16) (hd : d.length = l.toNat)
    (rest : List Byte) : decodeResponse .data (a :: l :: (d ++ k :: rest)) = .ok (.data a l d k) rest := by
  rw [← hd] at hl
  simp [decodeResponse, ← hd, hl]

/-- Settles O2, instruction by instruction. -/
theorem decodeOfEncodeIsTheInstruction : Obligations.DecodeOfEncodeIsTheInstruction := by
  intro P i hwf
  cases i with
  | read a l k => exact decodeRequest_read a l k
  | write a l tail => exact decodeRequest_write a l hwf
  | unknown00 a l => exact decodeRequest_unknown (c := 0x00#8) (by decide) (by decide) a l
  | unknown03 a l => exact decodeRequest_unknown (c := 0x03#8) (by decide) (by decide) a l
  | unknown04 low a l =>
    obtain ⟨row, -⟩ := decodeUnknown_row a l
    exact decodeRequest_of_four_le (by rw [toNat_one_append (by decide)]; omega) (row low)
  | unknown08 low a l =>
    obtain ⟨-, row, -⟩ := decodeUnknown_row a l
    exact decodeRequest_of_four_le (by rw [toNat_one_append (by decide)]; omega) (row low)
  | unknown10 low a l =>
    obtain ⟨-, -, row, -⟩ := decodeUnknown_row a l
    exact decodeRequest_of_four_le (by rw [toNat_one_append (by decide)]; omega) (row low)
  | unknown20 low a l =>
    obtain ⟨-, -, -, row, -⟩ := decodeUnknown_row a l
    exact decodeRequest_of_four_le (by rw [toNat_one_append (by decide)]; omega) (row low)
  | unknown40 low a l =>
    obtain ⟨-, -, -, -, row, -⟩ := decodeUnknown_row a l
    exact decodeRequest_of_four_le (by rw [toNat_one_append (by decide)]; omega) (row low)
  | unknown80 low a l =>
    obtain ⟨-, -, -, -, -, row⟩ := decodeUnknown_row a l
    exact decodeRequest_of_four_le (by rw [toNat_one_append (by decide)]; omega) (row low)
  | data a l d k =>
    obtain ⟨⟨hl, hd⟩, -⟩ : (l.toNat ≤ maxPayload ∧ d.length = l.toNat) ∧ _ := by simpa [Instr.wfAt] using hwf
    intro rest
    simpa [decode] using decodeResponse_data a l k hl hd rest
  | ack a k => exact fun _ => rfl
  | nack a k => exact fun _ => rfl
  | consRead p a n lock => rfl
  | consWrite p a n w lock => rfl

end Sys2Proof.Machine

namespace Sys2Proof.Machine

/-! PROOF. The step (log 1, 5, 10, 11): it runs what is fetched, it answers a next state on every event (60_exceptions.md R207),
and a placed request is what it fetches. -/

/-! ### What is fetched -/

theorem engineFetch_of_atBoundary {s : State} (hb : s.atBoundary = true) {i : Instr} {rest : List Byte}
    (hd : decode (.request s.rx) = .ok i rest) : engineFetch s = some (i, { s with rx := rest }) := by
  simp [engineFetch, hb, hd]

theorem engineFetch_of_resp {s : State} (hst : s.st = .resp) {i : Instr} {rest : List Byte}
    (hd : decode (.response s.rkind s.respFrame) = .ok i rest) : engineFetch s = some (i, s) := by
  have hb : s.atBoundary = false := by simp [State.atBoundary, hst]
  simp [engineFetch, hb, hst, hd]

theorem engineTurn_of_fetch {s t : State} {i : Instr} (h : engineFetch s = some (i, t)) : engineTurn s = exec i t := by
  simp [engineTurn, h]

theorem portTurn_of_req {s : State} {n : Nat} {p : Port} (hp : s.ports[n]? = some p) (hreq : p.req = true) :
    portTurn n s = exec (decodePort n p.sig) s := by
  simp [portTurn, portFetch, hp, hreq]

theorem State.popEvent_atBoundary (s : State) : s.popEvent.atBoundary = s.atBoundary := by
  simp [State.atBoundary]

theorem State.popEvent_respFrame (s : State) : s.popEvent.respFrame = s.respFrame := by
  simp [State.respFrame, State.payload]

/-- Settles O5, event by event: taking the event off leaves what is fetched alone. -/
theorem stepRunsTheDecodedInstruction : Obligations.StepRunsTheDecodedInstruction := by
  intro s
  refine ⟨fun i rest he hb hd => ?boundary, fun i rest he hst hd => ?resp, fun n p he hp hreq => ?port⟩
  all_goals rw [step, he, runEvent]
  case boundary =>
    exact engineTurn_of_fetch (engineFetch_of_atBoundary (s.popEvent_atBoundary.trans hb) (by rwa [s.popEvent_rx]))
  case resp =>
    exact engineTurn_of_fetch
      (engineFetch_of_resp (s.popEvent_st.trans hst) (by rwa [s.popEvent_rkind, s.popEvent_respFrame]))
  case port => exact portTurn_of_req (by rwa [s.popEvent_ports]) hreq

theorem step_of_agenda {s : State} {e : Event} {rest : List Event} (h : s.agenda = e :: rest) :
    step s = runEvent e { s with agenda := rest } := by
  simp [step, State.nextEvent, State.popEvent, h]

/-- Settles O6. -/
theorem stepPerformsTheAgentStep : Obligations.StepPerformsTheAgentStep :=
  fun _ _ => ⟨fun _ h => step_of_agenda h, fun _ h => step_of_agenda h⟩

/-! ### No step stops -/

theorem runEvent_next (e : Event) (s : State) : ∃ t, runEvent e s = .next t := by
  cases e with
  | engine =>
    obtain ⟨t, h, _⟩ := engineTurn_sameOrder s
    exact ⟨t, h⟩
  | port i =>
    obtain ⟨t, h, _⟩ := portTurn_sameOrder i s
    exact ⟨t, h⟩
  | agent | edge | present | driveLock | hostSend => exact ⟨_, rfl⟩

/-- Settles O8, by induction on the number of steps: every event answers a next state. -/
theorem noRunEverStops : Obligations.NoRunEverStops := by
  intro k
  induction k with
  | zero => exact fun s => ⟨s, rfl⟩
  | succ k ih =>
    intro s
    obtain ⟨u, hu⟩ : ∃ u, step s = .next u := runEvent_next _ _
    obtain ⟨t, ht⟩ := ih u
    exact ⟨t, by rw [stepsFrom, hu]; exact ht⟩

/-! ### A placed request -/

/-- The bytes placed for an instruction are exactly the bytes it is decoded from. -/
theorem instrBytes_of_decode {bs taken rest : List Byte} {i : Instr} (h : decode (.request bs) = .ok i rest)
    (hbs : bs = taken ++ rest) : instrBytes bs = taken := by
  subst hbs
  simp [instrBytes, h]

theorem tableEncoding_request {nbits w : Nat} (h8 : 8 ≤ nbits) (h16 : nbits ≠ 16) (h24 : nbits ≠ 24) :
    tableEncoding nbits w = .request (bytesLE maxFrame w) := by
  simp [tableEncoding, Nat.not_lt.mpr h8, h16, h24]

/-- Settles O7: what is placed is the instruction's own encoding, and it decodes to the instruction whatever waits behind it. -/
theorem placedRequestWordRunsNext : Obligations.PlacedRequestWordRunsNext := by
  intro s nbits w i h8 h16 h24 hw
  have henc := tableEncoding_request (w := w) h8 h16 h24
  obtain ⟨rest, hd⟩ : ∃ rest, decode (.request (bytesLE maxFrame w)) = .ok i rest := by
    rw [decodeTableWord, henc] at hw
    split at hw <;> cases hw
    exact ⟨_, by assumption⟩
  obtain ⟨hwf, taken, hi, hbs⟩ := decodedRequestReencodesToItsBytes _ _ _ hd
  have hplaced : decode (.request (taken ++ s.rx)) = .ok i s.rx := by
    have h := decodeOfEncodeIsTheInstruction _ i hwf
    rw [hi] at h
    exact h s.rx
  have hword : s.withFetchWord nbits w =
      { s with rx := taken ++ s.rx, st := .hdr, cnt := 0#5, agenda := .engine :: s.agenda } := by
    rw [State.withFetchWord, henc, placeEncoded, instrBytes_of_decode hd hbs]
  rw [hword, step_of_agenda rfl, runEvent, engineTurn_of_fetch (engineFetch_of_atBoundary rfl hplaced)]

end Sys2Proof.Machine

namespace Sys2Proof.Machine

/-! PROOF. A frame's bytes one after another (42_framing.md R130): while bytes are still due the engine only receives, so the
run of a whole frame is its bytes taken and then one commit and one response (log 5). -/

/-! ### Bytes taken -/

/-- Bytes received one after another, with no commit and no response between. -/
def takeBytes (P : Params) (bs : List Byte) (s : State) : State := bs.foldl (fun t b => rxByte P b t) s

@[simp] theorem takeBytes_nil (P : Params) (s : State) : takeBytes P [] s = s := rfl

@[simp] theorem takeBytes_cons (P : Params) (b : Byte) (bs : List Byte) (s : State) :
    takeBytes P (b :: bs) s = takeBytes P bs (rxByte P b s) := rfl

theorem takeBytes_append (P : Params) (xs ys : List Byte) (s : State) :
    takeBytes P (xs ++ ys) s = takeBytes P ys (takeBytes P xs s) := List.foldl_append

/-- Received bytes change neither the map nor the lock, and put nothing on TX. -/
theorem takeBytes_frame (P : Params) (bs : List Byte) (s : State) :
    (takeBytes P bs s).map = s.map ∧ (takeBytes P bs s).owner = s.owner ∧ (takeBytes P bs s).rx = s.rx ∧
    (takeBytes P bs s).tx = s.tx := by
  induction bs generalizing s with
  | nil => exact ⟨rfl, rfl, rfl, rfl⟩
  | cons b bs ih =>
    obtain ⟨hmap, howner, -, -, hrx, htx, -⟩ := rxByte_frame P b s
    rw [takeBytes_cons, ← hmap, ← howner, ← hrx, ← htx]
    exact ih _

/-- The engine is ready for each of these bytes as it comes. -/
def State.Receives (P : Params) : List Byte → State → Prop
  | [], _ => True
  | b :: bs, s => s.rxReady = true ∧ (rxByte P b s).Receives P bs

theorem State.receives_append {P : Params} {xs ys : List Byte} {s : State} :
    s.Receives P (xs ++ ys) ↔ s.Receives P xs ∧ (takeBytes P xs s).Receives P ys := by
  induction xs generalizing s with
  | nil => simp [State.Receives]
  | cons x xs ih => simp [State.Receives, ih, and_assoc]

/-- Bytes received one after another are fed with one settling at their end. -/
theorem feed_eq_settle_takeBytes {P : Params} {bs : List Byte} {s : State} (h : s.Receives P bs) (hne : bs ≠ []) :
    feed P bs s = settle P (takeBytes P bs s) := by
  induction bs generalizing s with
  | nil => exact absurd rfl hne
  | cons b bs ih =>
    obtain ⟨-, hbs⟩ := h
    rw [feed_cons, takeBytes_cons]
    cases bs with
    | nil => rw [feed_nil, takeBytes_nil, engineByte]
    | cons b' bs =>
      have hready : (rxByte P b s).rxReady = true := hbs.1
      rw [engineByte_of_receiving hready, ih hbs (by simp)]

/-- With the engine still receiving afterwards, bytes fed are bytes taken. -/
theorem feed_eq_takeBytes {P : Params} {bs : List Byte} {s : State} (h : s.Receives P bs)
    (hready : (takeBytes P bs s).rxReady = true) : feed P bs s = takeBytes P bs s := by
  cases bs with
  | nil => exact feed_nil P s
  | cons b bs => rw [feed_eq_settle_takeBytes h (by simp), settle_of_receiving hready]

/-! ### Bytes still due -/

/-- How many bytes the engine takes at least before it can stop receiving: what is missing of the header, then what the header
announced. -/
def State.bytesDue (s : State) : Nat :=
  match s.st with
  | .hdr => 3 - s.cnt.toNat
  | .rdCsum => 1
  | .wrPayload => s.len.toNat - s.cnt.toNat + 1
  | .wrCsum => 1
  | .skip => s.cnt.toNat
  | .commitRd | .commitWr | .resp => 0

theorem State.bytesDue_of_hdr {s : State} (h : s.st = .hdr) : s.bytesDue = 3 - s.cnt.toNat := by
  rw [State.bytesDue, h]

theorem State.bytesDue_of_wrPayload {s : State} (h : s.st = .wrPayload) :
    s.bytesDue = s.len.toNat - s.cnt.toNat + 1 := by
  rw [State.bytesDue, h]

theorem State.bytesDue_of_skip {s : State} (h : s.st = .skip) : s.bytesDue = s.cnt.toNat := by
  rw [State.bytesDue, h]

theorem State.bytesDue_of_atBoundary {s : State} (h : s.atBoundary = true) : s.bytesDue = 3 := by
  obtain ⟨hst, hcnt⟩ := (atBoundary_iff s).mp h
  rw [State.bytesDue_of_hdr hst, hcnt]
  rfl

theorem State.rxReady_of_bytesDue {s : State} (h : 0 < s.bytesDue) : s.rxReady = true := by
  cases hst : s.st <;> simp [State.bytesDue, hst] at h <;> simp [State.rxReady, hst]

theorem rxPayload_bytesDue (b : Byte) {s : State} (hst : s.st = .wrPayload) :
    s.bytesDue ≤ (rxPayload b s).bytesDue + 1 := by
  rw [State.bytesDue_of_wrPayload hst]
  unfold rxPayload
  dsimp only
  split
  next hlast =>
    simp only [State.bytesDue, State.goto_st]
    omega
  next =>
    have hinc : (s.cnt + 1#5).toNat ≤ s.cnt.toNat + 1 := by bv_omega
    simp only [State.bytesDue, hst]
    omega

theorem rxSkip_bytesDue {s : State} (hst : s.st = .skip) : s.bytesDue ≤ (rxSkip s).bytesDue + 1 := by
  rw [State.bytesDue_of_skip hst]
  unfold rxSkip
  split
  next h1 => simp [h1]
  next =>
    simp only [State.bytesDue, hst]
    bv_omega

/-- No byte takes away more than one of the bytes due. -/
theorem rxByte_bytesDue (P : Params) (b : Byte) (s : State) : s.bytesDue ≤ (rxByte P b s).bytesDue + 1 := by
  rcases rxByte_cases P b s with ⟨hst, hcnt, e⟩ | ⟨hst, hcnt, e⟩ | ⟨hst, hcnt, e⟩ | ⟨_, _, _, _, e⟩ | ⟨hst, e⟩ | ⟨hst, e⟩ |
    ⟨hst, e⟩ | ⟨hst, e⟩ | ⟨_, e⟩ <;> rw [e]
  · simp [State.bytesDue, hst, hcnt]
  · simp [State.bytesDue, hst, hcnt]
  · simp [State.bytesDue, hst, hcnt]
  · omega
  · simp [State.bytesDue, hst]
  · exact rxPayload_bytesDue b hst
  · simp [State.bytesDue, hst]
  · exact rxSkip_bytesDue hst
  · omega

theorem takeBytes_bytesDue (P : Params) (bs : List Byte) (s : State) :
    s.bytesDue ≤ (takeBytes P bs s).bytesDue + bs.length := by
  induction bs generalizing s with
  | nil => exact le_rfl
  | cons b bs ih =>
    have h1 := rxByte_bytesDue P b s
    have h2 := ih (rxByte P b s)
    rw [takeBytes_cons, List.length_cons]
    omega

theorem State.receives_of_bytesDue (P : Params) {bs : List Byte} {s : State} (h : bs.length ≤ s.bytesDue) :
    s.Receives P bs := by
  induction bs generalizing s with
  | nil => trivial
  | cons b bs ih =>
    have hnext := rxByte_bytesDue P b s
    rw [List.length_cons] at h
    exact ⟨State.rxReady_of_bytesDue (by omega), ih (by omega)⟩

/-- Fewer bytes than are due are only taken. -/
theorem feed_of_lt_bytesDue (P : Params) {bs : List Byte} {s : State} (h : bs.length < s.bytesDue) :
    feed P bs s = takeBytes P bs s := by
  have hdue := takeBytes_bytesDue P bs s
  exact feed_eq_takeBytes (State.receives_of_bytesDue P h.le) (State.rxReady_of_bytesDue (by omega))

/-! ### A header and what it announces -/

/-- The state after the three bytes of a header that opens phase `ph` (42_framing.md R131 to R134). -/
def State.afterHeader (s : State) (c a l : Byte) (ph : Phase) : State :=
  { s with cmd := c, addr := a, len := l, acc := c ^^^ a ^^^ l, st := ph, cnt := 0#5 }

/-- The state in which the third header byte is decided. -/
def State.beforeLength (s : State) (c a : Byte) : State := { s with cmd := c, addr := a, acc := c ^^^ a, cnt := 2#5 }

theorem takeBytes_header (P : Params) (c a l : Byte) {s : State} (h : s.atBoundary = true) :
    takeBytes P [c, a, l] s = takeLengthAndDecide P l (s.beforeLength c a) := by
  obtain ⟨hst, hcnt⟩ := (atBoundary_iff s).mp h
  simp [takeBytes, rxByte, rxHeader, takeCommand, takeAddress, State.beforeLength, hst, hcnt]

theorem decide_read_valid {P : Params} {a l : Byte} (hok : hdrOk P a l = true) (s : State) :
    takeLengthAndDecide P l (s.beforeLength cmdRead a) = s.afterHeader cmdRead a l .rdCsum := by
  simp [takeLengthAndDecide, decideRead, State.beforeLength, hok, takeLength, State.goto, State.afterHeader]

theorem decide_read_invalid {P : Params} {a l : Byte} (hok : hdrOk P a l = false) (s : State) :
    takeLengthAndDecide P l (s.beforeLength cmdRead a) =
      ((s.afterHeader cmdRead a l .hdr).skipBytes 1).raise (headerError l) := by
  simp [takeLengthAndDecide, decideRead, State.beforeLength, hok, takeLength, State.skipBytes, State.afterHeader]

theorem decide_write_valid {P : Params} {a l : Byte} (hok : hdrOk P a l = true) (s : State) :
    takeLengthAndDecide P l (s.beforeLength cmdWrite a) =
      s.afterHeader cmdWrite a l (if l = 0#8 then .wrCsum else .wrPayload) := by
  simp [takeLengthAndDecide, decideWrite, State.beforeLength, cmdWrite_ne_cmdRead, hok, takeLength, State.goto,
    State.afterHeader]

theorem decide_write_invalid {P : Params} {a l : Byte} (hok : hdrOk P a l = false) (hl : l.toNat ≤ 16) (s : State) :
    takeLengthAndDecide P l (s.beforeLength cmdWrite a) =
      ((s.afterHeader cmdWrite a l .hdr).skipBytes (l.toNat + 1)).raise .outOfRange := by
  simp [takeLengthAndDecide, decideWrite, State.beforeLength, cmdWrite_ne_cmdRead, hok, hl, takeLength, State.skipBytes,
    State.afterHeader]

theorem decide_write_overLength (P : Params) (a : Byte) {l : Byte} (hl : 16 < l.toNat) (s : State) :
    takeLengthAndDecide P l (s.beforeLength cmdWrite a) =
      (s.afterHeader cmdWrite a l .hdr).raise .lengthTooLarge := by
  simp [takeLengthAndDecide, decideWrite, State.beforeLength, cmdWrite_ne_cmdRead, hdrOk_of_lt P a hl,
    Nat.not_le.mpr hl, takeLength, State.toHeader, State.afterHeader]

/-- After a READ header one byte is due, after a WRITE header with `LEN <= 16` the payload and one byte: what R71 and R72 say
follows, whether the header is valid or not. -/
theorem bytesDue_read (P : Params) (a l : Byte) (s : State) :
    (takeLengthAndDecide P l (s.beforeLength cmdRead a)).bytesDue = 1 := by
  cases hok : hdrOk P a l
  · rw [decide_read_invalid hok]; rfl
  · rw [decide_read_valid hok]; rfl

theorem bytesDue_write (P : Params) (a : Byte) {l : Byte} (hl : l.toNat ≤ 16) (s : State) :
    (takeLengthAndDecide P l (s.beforeLength cmdWrite a)).bytesDue = l.toNat + 1 := by
  cases hok : hdrOk P a l
  · rw [decide_write_invalid hok hl, State.bytesDue_of_skip rfl]
    simp only [State.raise_cnt, State.skipBytes_cnt, BitVec.toNat_ofNat]
    omega
  · rw [decide_write_valid hok]
    by_cases h0 : l = 0#8
    · rw [if_pos h0, h0]; rfl
    · rw [if_neg h0, State.bytesDue_of_wrPayload rfl]; rfl

/-- From a frame boundary a header is received, and then as many bytes as it announces. -/
theorem State.receives_frame {P : Params} {c a l : Byte} {tail : List Byte} {s : State} (hb : s.atBoundary = true)
    (h : tail.length ≤ (takeLengthAndDecide P l (s.beforeLength c a)).bytesDue) :
    s.Receives P ([c, a, l] ++ tail) := by
  rw [State.receives_append, takeBytes_header P c a l hb]
  exact ⟨State.receives_of_bytesDue P (State.bytesDue_of_atBoundary hb).ge, State.receives_of_bytesDue P h⟩

/-! ### READ and WRITE frames with a valid header -/

/-- A READ frame with a valid header is taken up to its checksum byte (43_read_command.md R160, R161). -/
theorem takeBytes_read {P : Params} {a l : Byte} (hok : hdrOk P a l = true) (k : Byte) {s : State}
    (hb : s.atBoundary = true) :
    takeBytes P [cmdRead, a, l, k] s = rxReadChecksum k (s.afterHeader cmdRead a l .rdCsum) := by
  calc takeBytes P [cmdRead, a, l, k] s
      _ = takeBytes P [k] (takeBytes P [cmdRead, a, l] s) := takeBytes_append P [cmdRead, a, l] [k] s
      _ = rxByte P k (s.afterHeader cmdRead a l .rdCsum) := by
        rw [takeBytes_header P _ _ _ hb, decide_read_valid hok]; rfl
      _ = rxReadChecksum k (s.afterHeader cmdRead a l .rdCsum) := rxByte_of_rdCsum P k rfl

theorem takeBytes_read_right {P : Params} {a l : Byte} (hok : hdrOk P a l = true) {s : State}
    (hb : s.atBoundary = true) :
    takeBytes P [cmdRead, a, l, cmdRead ^^^ a ^^^ l] s = s.afterHeader cmdRead a l .commitRd :=
  (takeBytes_read hok _ hb).trans (if_pos rfl)

theorem State.receives_read (P : Params) (a l k : Byte) {s : State} (hb : s.atBoundary = true) :
    s.Receives P [cmdRead, a, l, k] :=
  State.receives_frame (c := cmdRead) (tail := [k]) hb (bytesDue_read P a l s).ge

/-- The state in which the checksum byte of a WRITE is due (44_write_command.md R171). -/
def State.afterPayload (s : State) (a l : Byte) (d : List Byte) : State :=
  { s with
    cmd := cmdWrite, addr := a, len := l, acc := cmdWrite ^^^ a ^^^ l ^^^ xorFold d, buf := bufWrite s.buf 0 d
    st := .wrCsum, cnt := BitVec.ofNat 5 (l.toNat - 1) }

theorem takeBytes_payload {P : Params} {a l : Byte} {d : List Byte} (hl : l.toNat ≤ 16) (hd : d.length = l.toNat)
    (s : State) :
    takeBytes P d (s.afterHeader cmdWrite a l (if l = 0#8 then .wrCsum else .wrPayload)) = s.afterPayload a l d := by
  by_cases h0 : l = 0#8
  · subst h0
    obtain rfl : d = [] := List.eq_nil_of_length_eq_zero (by simpa using hd)
    simp [State.afterHeader, State.afterPayload, bufWrite]
  · have hne : d ≠ [] := by
      rintro rfl
      exact h0 (BitVec.eq_of_toNat_eq (by simpa using hd.symm))
    rw [if_neg h0, ← feed_of_lt_bytesDue P (by rw [State.bytesDue_of_wrPayload rfl]; simp [State.afterHeader, hd]),
      feed_payload P d _ rfl hl (by simp [State.afterHeader, hd]) hne]
    rfl

/-- A WRITE frame with a valid header is taken up to its checksum byte (44_write_command.md R170, R171). -/
theorem takeBytes_write {P : Params} {a l : Byte} {d : List Byte} (hok : hdrOk P a l = true) (hd : d.length = l.toNat)
    (k : Byte) {s : State} (hb : s.atBoundary = true) :
    takeBytes P ([cmdWrite, a, l] ++ (d ++ [k])) s = rxWriteChecksum k (s.afterPayload a l d) := by
  obtain ⟨_, _, h16⟩ := hdrOk_iff.mp hok
  rw [takeBytes_append, takeBytes_header P _ _ _ hb, decide_write_valid hok, takeBytes_append,
    takeBytes_payload h16 hd, takeBytes_cons, takeBytes_nil, rxByte_of_wrCsum P k rfl]

theorem takeBytes_write_right {P : Params} {a l : Byte} {d : List Byte} (hok : hdrOk P a l = true)
    (hd : d.length = l.toNat) {s : State} (hb : s.atBoundary = true) :
    takeBytes P ([cmdWrite, a, l] ++ (d ++ [cmdWrite ^^^ a ^^^ l ^^^ xorFold d])) s =
      (s.afterPayload a l d).goto .commitWr :=
  (takeBytes_write hok hd _ hb).trans (if_pos rfl)

/-- The payload received is the payload held. -/
theorem afterPayload_payload (s : State) (a : Byte) {l : Byte} {d : List Byte} (hl : l.toNat ≤ 16)
    (hd : d.length = l.toNat) : (s.afterPayload a l d).payload = d := by
  simpa [State.payload, State.afterPayload, ← hd] using bufWrite_take s.buf d (hd.trans_le hl)

theorem State.receives_write (P : Params) (a k : Byte) {l : Byte} {d : List Byte} (hl : l.toNat ≤ 16)
    (hd : d.length = l.toNat) {s : State} (hb : s.atBoundary = true) :
    s.Receives P ([cmdWrite, a, l] ++ (d ++ [k])) :=
  State.receives_frame hb (by rw [bytesDue_write P a hl, List.length_append, hd]; rfl)

end Sys2Proof.Machine

namespace Sys2Proof.Machine

/-! PROOF. Whole READ and WRITE frames (43_read_command.md, 44_write_command.md), with every outcome of their header, checksum and
guard, and the round trip (R176). -/

/-! ### Responses taken to their end -/

theorem State.respFrame_length_le (s : State) : s.respFrame.length ≤ 19 := by
  by_cases hk : s.rkind = .data
  · rw [State.respFrame_length_of_data hk]; omega
  · rw [State.respFrame_length_of_ne_data hk]; omega

theorem State.respFrame_length_pos (s : State) : 0 < s.respFrame.length := by
  by_cases hk : s.rkind = .data
  · rw [State.respFrame_length_of_data hk]; omega
  · rw [State.respFrame_length_of_ne_data hk]; omega

/-- A response just made pending leaves whole (42_framing.md R140, R141). -/
theorem txBytes_emit (s : State) (k : RKind) :
    txBytes maxResponse (s.emit k) =
      { s with
        rkind := k, ridx := BitVec.ofNat 5 ((s.emit k).respFrame.length - 1), st := .hdr, cnt := 0#5
        tx := s.tx ++ (s.emit k).respFrame } := by
  have hpos := (s.emit k).respFrame_length_pos
  have hle := (s.emit k).respFrame_length_le
  rw [txBytes_resp maxResponse (s.emit k) rfl (by simpa using hpos) hle (by simpa [maxResponse] using hle)]
  simp [State.emit]

/-! ### Settling -/

/-- A validated READ with the guard free: the snapshot is answered (43_read_command.md R162, R163). -/
theorem settle_commitRead {P : Params} {s : State} (ho : s.owner = .free) (hst : s.st = .commitRd)
    (hok : hdrOk P s.addr s.len = true) :
    settle P s =
      { s with
        buf := bufWrite s.buf 0 (Memory.readList s.map s.addr.toNat s.len.toNat), rkind := .data
        ridx := BitVec.ofNat 5 (s.len.toNat + 2), st := .hdr, cnt := 0#5
        tx := s.tx ++ dataFrame s.addr s.len (Memory.readList s.map s.addr.toNat s.len.toNat) } := by
  obtain ⟨_, hle, _⟩ := hdrOk_iff.mp hok
  have hframe := commitRead_respFrame hok
  rw [settle, commit_of_commitRd P ho hst]
  rw [commitRead_of_le hle] at hframe ⊢
  rw [txBytes_emit, hframe]
  simp [dataFrame, State.loadBuf]

/-- A validated WRITE with the guard free: the payload is stored and acknowledged (44_write_command.md R173, R174). -/
theorem settle_commitWrite {P : Params} {s : State} (ho : s.owner = .free) (hst : s.st = .commitWr)
    (hle : s.addr.toNat + s.len.toNat ≤ P.mapSize) :
    settle P s =
      { s with
        map := Memory.writeList s.map s.addr.toNat s.payload, rkind := .ack, ridx := 2#5, st := .hdr, cnt := 0#5
        tx := s.tx ++ [s.addr, 0x00#8, s.addr] } := by
  rw [settle, commit_eq_writeList ho hst hle, txBytes_emit]
  simp [State.respFrame, State.emit, ackFrame, State.withMap]

/-- A pending refusal is answered whoever holds the lock (44_write_command.md R172). -/
theorem settle_emit_nack (P : Params) (s : State) (d : Diag) :
    settle P ((s.emit .nack).raise d) =
      { s with
        rkind := .nack, ridx := 2#5, st := .hdr, cnt := 0#5, diags := s.diags ++ [d]
        tx := s.tx ++ [s.addr, 0xFF#8, s.addr ^^^ 0xFF#8] } := by
  have hcomm : (s.emit .nack).raise d = (s.raise d).emit .nack := rfl
  rw [settle, commit_of_resp P (s := (s.emit .nack).raise d) rfl, hcomm, txBytes_emit]
  simp [State.respFrame, State.emit, nackFrame, State.raise]

/-- A validated frame waits while a port holds the lock (20_memory.md R52). -/
theorem settle_of_owner_ne_free (P : Params) {s : State} (ho : s.owner ≠ .free) (hst : s.st ≠ .resp) :
    settle P s = s := by
  rw [settle, commit_of_owner_ne_free P ho, txBytes_of_not_resp _ hst]

/-! ### READ frames -/

theorem feed_read_ok {P : Params} {a l : Byte} {s : State} (hb : s.atBoundary = true) (ho : s.owner = .free)
    (hok : hdrOk P a l = true) :
    feed P [cmdRead, a, l, cmdRead ^^^ a ^^^ l] s =
      { s with
        cmd := cmdRead, addr := a, len := l, acc := cmdRead ^^^ a ^^^ l
        buf := bufWrite s.buf 0 (Memory.readList s.map a.toNat l.toNat)
        rkind := .data, ridx := BitVec.ofNat 5 (l.toNat + 2)
        tx := s.tx ++ dataFrame a l (Memory.readList s.map a.toNat l.toNat) } := by
  obtain ⟨hst, hcnt⟩ := (atBoundary_iff s).mp hb
  rw [feed_eq_settle_takeBytes (State.receives_read P a l _ hb) (by simp), takeBytes_read_right hok hb,
    settle_commitRead (by exact ho) rfl (by exact hok)]
  simp [State.afterHeader, hst, hcnt]

theorem feed_read_held {P : Params} {a l : Byte} {s : State} (hb : s.atBoundary = true) (ho : s.owner ≠ .free)
    (hok : hdrOk P a l = true) :
    feed P [cmdRead, a, l, cmdRead ^^^ a ^^^ l] s =
      { s with cmd := cmdRead, addr := a, len := l, acc := cmdRead ^^^ a ^^^ l, st := .commitRd } := by
  obtain ⟨_, hcnt⟩ := (atBoundary_iff s).mp hb
  rw [feed_eq_settle_takeBytes (State.receives_read P a l _ hb) (by simp), takeBytes_read_right hok hb,
    settle_of_owner_ne_free P (by exact ho) (by simp [State.afterHeader])]
  simp [State.afterHeader, hcnt]

theorem feed_read_badChecksum {P : Params} {a l k : Byte} {s : State} (hb : s.atBoundary = true)
    (hok : hdrOk P a l = true) (hk : k ≠ cmdRead ^^^ a ^^^ l) :
    feed P [cmdRead, a, l, k] s =
      { s with
        cmd := cmdRead, addr := a, len := l, acc := cmdRead ^^^ a ^^^ l
        diags := s.diags ++ [.checksumMismatch] } := by
  obtain ⟨hst, hcnt⟩ := (atBoundary_iff s).mp hb
  rw [feed_eq_settle_takeBytes (State.receives_read P a l k hb) (by simp), takeBytes_read hok k hb, rxReadChecksum,
    if_neg (by exact hk), settle_of_receiving rfl]
  simp [State.afterHeader, State.toHeader, State.raise, hst, hcnt]

theorem feed_read_invalid {P : Params} {a l : Byte} {s : State} (hb : s.atBoundary = true)
    (hok : hdrOk P a l = false) (k : Byte) :
    feed P [cmdRead, a, l, k] s =
      { s with
        cmd := cmdRead, addr := a, len := l, acc := cmdRead ^^^ a ^^^ l, diags := s.diags ++ [headerError l] } := by
  obtain ⟨hst, hcnt⟩ := (atBoundary_iff s).mp hb
  calc feed P [cmdRead, a, l, k] s
      _ = feed P [k] (feed P [cmdRead, a, l] s) := feed_append P [cmdRead, a, l] [k] s
      _ = feed P [k] (((s.afterHeader cmdRead a l .hdr).skipBytes 1).raise (headerError l)) := by
        rw [feed_header P _ _ _ s hb]
        exact congrArg _ (decide_read_invalid hok s)
      _ = (((s.afterHeader cmdRead a l .hdr).skipBytes 1).raise (headerError l)).toHeader :=
        feed_skip P [k] _ rfl rfl (by simp)
      _ = _ := by simp [State.afterHeader, State.skipBytes, State.toHeader, State.raise, hst, hcnt]

/-! ### WRITE frames -/

theorem feed_write_ok {P : Params} {a l : Byte} {d : List Byte} {s : State} (hb : s.atBoundary = true)
    (ho : s.owner = .free) (hok : hdrOk P a l = true) (hd : d.length = l.toNat) :
    feed P ([cmdWrite, a, l] ++ (d ++ [cmdWrite ^^^ a ^^^ l ^^^ xorFold d])) s =
      { s with
        map := Memory.writeList s.map a.toNat d
        cmd := cmdWrite, addr := a, len := l, acc := cmdWrite ^^^ a ^^^ l ^^^ xorFold d, buf := bufWrite s.buf 0 d
        rkind := .ack, ridx := 2#5, tx := s.tx ++ [a, 0x00#8, a] } := by
  obtain ⟨hst, hcnt⟩ := (atBoundary_iff s).mp hb
  obtain ⟨_, hle, h16⟩ := hdrOk_iff.mp hok
  have hpay : ((s.afterPayload a l d).goto .commitWr).payload = d := afterPayload_payload s a h16 hd
  rw [feed_eq_settle_takeBytes (State.receives_write P a _ h16 hd hb) (by simp), takeBytes_write_right hok hd hb,
    settle_commitWrite (by exact ho) rfl (by exact hle), hpay]
  simp [State.afterPayload, State.goto, hst, hcnt]

theorem feed_write_held {P : Params} {a l : Byte} {d : List Byte} {s : State} (hb : s.atBoundary = true)
    (ho : s.owner ≠ .free) (hok : hdrOk P a l = true) (hd : d.length = l.toNat) :
    feed P ([cmdWrite, a, l] ++ (d ++ [cmdWrite ^^^ a ^^^ l ^^^ xorFold d])) s =
      { s with
        cmd := cmdWrite, addr := a, len := l, acc := cmdWrite ^^^ a ^^^ l ^^^ xorFold d, buf := bufWrite s.buf 0 d
        st := .commitWr, cnt := BitVec.ofNat 5 (l.toNat - 1) } := by
  obtain ⟨_, _, h16⟩ := hdrOk_iff.mp hok
  rw [feed_eq_settle_takeBytes (State.receives_write P a _ h16 hd hb) (by simp), takeBytes_write_right hok hd hb,
    settle_of_owner_ne_free P (by exact ho) (by simp)]
  rfl

theorem feed_write_badChecksum {P : Params} {a l k : Byte} {d : List Byte} {s : State} (hb : s.atBoundary = true)
    (hok : hdrOk P a l = true) (hd : d.length = l.toNat) (hk : k ≠ cmdWrite ^^^ a ^^^ l ^^^ xorFold d) :
    feed P ([cmdWrite, a, l] ++ (d ++ [k])) s =
      { s with
        cmd := cmdWrite, addr := a, len := l, acc := cmdWrite ^^^ a ^^^ l ^^^ xorFold d, buf := bufWrite s.buf 0 d
        rkind := .nack, ridx := 2#5, tx := s.tx ++ [a, 0xFF#8, a ^^^ 0xFF#8]
        diags := s.diags ++ [.checksumMismatch] } := by
  obtain ⟨hst, hcnt⟩ := (atBoundary_iff s).mp hb
  obtain ⟨_, _, h16⟩ := hdrOk_iff.mp hok
  rw [feed_eq_settle_takeBytes (State.receives_write P a k h16 hd hb) (by simp), takeBytes_write hok hd k hb,
    rxWriteChecksum, if_neg (by exact hk), settle_emit_nack]
  simp [State.afterPayload, hst, hcnt]

theorem feed_write_outOfRange {P : Params} {a l : Byte} {d : List Byte} {s : State} (hb : s.atBoundary = true)
    (hok : hdrOk P a l = false) (hl : l.toNat ≤ 16) (hd : d.length = l.toNat) (k : Byte) :
    feed P ([cmdWrite, a, l] ++ (d ++ [k])) s =
      { s with
        cmd := cmdWrite, addr := a, len := l, acc := cmdWrite ^^^ a ^^^ l, diags := s.diags ++ [.outOfRange] } := by
  obtain ⟨hst, hcnt⟩ := (atBoundary_iff s).mp hb
  calc feed P ([cmdWrite, a, l] ++ (d ++ [k])) s
      _ = feed P (d ++ [k]) (((s.afterHeader cmdWrite a l .hdr).skipBytes (l.toNat + 1)).raise .outOfRange) := by
        rw [feed_append, feed_header P _ _ _ s hb]
        exact congrArg _ (decide_write_invalid hok hl s)
      _ = (((s.afterHeader cmdWrite a l .hdr).skipBytes (l.toNat + 1)).raise .outOfRange).toHeader := by
        refine feed_skip P (d ++ [k]) _ rfl ?_ (by simp)
        simp only [State.raise_cnt, State.skipBytes_cnt, BitVec.toNat_ofNat, List.length_append, List.length_singleton]
        omega
      _ = _ := by simp [State.afterHeader, State.skipBytes, State.toHeader, State.raise, hst, hcnt]

theorem feed_write_overLength (P : Params) {a l : Byte} {s : State} (hb : s.atBoundary = true) (hl : 16 < l.toNat) :
    feed P [cmdWrite, a, l] s =
      { s with
        cmd := cmdWrite, addr := a, len := l, acc := cmdWrite ^^^ a ^^^ l, diags := s.diags ++ [.lengthTooLarge] } := by
  obtain ⟨hst, hcnt⟩ := (atBoundary_iff s).mp hb
  rw [feed_header P _ _ _ s hb]
  refine (decide_write_overLength P a hl s).trans ?_
  simp [State.afterHeader, State.raise, hst, hcnt]

/-! ### The instructions -/

theorem runFrame_of_atBoundary (P : Params) (bs : List Byte) {s : State} (hb : s.atBoundary = true) :
    runFrame P bs s = feed P bs s := if_pos hb

theorem exec_read (a l k : Byte) {s t : State} (hb : s.atBoundary = true)
    (h : feed Config.params [cmdRead, a, l, k] s = t) : exec (.read a l k) s = .next t := by
  rw [exec, execRead, runFrame_of_atBoundary _ _ hb, h]

theorem exec_write (a l k : Byte) (d : List Byte) {s t : State} (hb : s.atBoundary = true)
    (h : feed Config.params ([cmdWrite, a, l] ++ (d ++ [k])) s = t) :
    exec (.write a l (.complete d k)) s = .next t := by
  rw [exec, execWrite, runFrame_of_atBoundary _ _ hb, WriteTail.bytes, h]

/-- Settles O12, by the run of its frame up to the response. -/
theorem readAnswersWithTheCells : Obligations.ReadAnswersWithTheCells :=
  fun a l _ hb ho hok => exec_read a l _ hb (feed_read_ok hb ho hok)

/-- Settles O13: the validated frame waits for the guard. -/
theorem readWaitsForTheLock : Obligations.ReadWaitsForTheLock :=
  fun a l _ _ hb ho hok => exec_read a l _ hb (feed_read_held hb (by simp [ho]) hok)

/-- Settles O14: the checksum byte does not match. -/
theorem readWithBadChecksumIsSilent : Obligations.ReadWithBadChecksumIsSilent :=
  fun a l k _ hb hok hk => exec_read a l k hb (feed_read_badChecksum hb hok hk)

/-- Settles O15: one byte is skipped. -/
theorem readWithInvalidHeaderIsSkipped : Obligations.ReadWithInvalidHeaderIsSkipped :=
  fun a l k _ hb hok => exec_read a l k hb (feed_read_invalid hb hok k)

/-- Settles O16, by the run of its frame up to the response. -/
theorem writeStoresThePayloadAndAcks : Obligations.WriteStoresThePayloadAndAcks :=
  fun a l d _ hb ho hok hd => exec_write a l _ d hb (feed_write_ok hb ho hok hd)

/-- Settles O18: the validated frame waits for the guard. -/
theorem writeWaitsForTheLock : Obligations.WriteWaitsForTheLock :=
  fun a l d _ _ hb ho hok hd => exec_write a l _ d hb (feed_write_held hb (by simp [ho]) hok hd)

/-- Settles O19: the refusal does not consult the guard. -/
theorem writeWithBadChecksumIsNacked : Obligations.WriteWithBadChecksumIsNacked :=
  fun a l k d _ hb hok hd hk => exec_write a l k d hb (feed_write_badChecksum hb hok hd hk)

/-- Settles O20: `LEN` + 1 bytes are skipped. -/
theorem writeOutOfRangeIsSkipped : Obligations.WriteOutOfRangeIsSkipped :=
  fun a l k d _ hb hok hl hd => exec_write a l k d hb (feed_write_outOfRange hb hok hl hd k)

/-- Settles O21: the header alone is the frame. -/
theorem writeTooLongIsAbandoned : Obligations.WriteTooLongIsAbandoned := by
  intro a l s hb hl
  rw [exec, execWrite, runFrame_of_atBoundary _ _ hb]
  exact congrArg Host.Outcome.next (feed_write_overLength Config.params hb hl)

/-! ### What is written is what is read -/

/-- A range read back after it was written holds what was written (40_register_map_accessors.md R106). -/
theorem Memory.readList_writeList {P : Params} {m : Memory} (hm : Memory.wf P m = true) (a : Nat) (d : List Byte) :
    Memory.readList (Memory.writeList m a d) a d.length = d := by
  obtain ⟨hcanon, _⟩ := Memory.wf_iff.mp hm
  refine List.ext_getElem (Memory.readList_length _ _ _) fun k hk hk' => ?_
  rw [Memory.readList_getElem hk', Memory.read_writeList_same hcanon (Nat.zero_le a) hk']

/-- Settles O17. -/
theorem writtenMapHoldsThePayloadAndNothingElse : Obligations.WrittenMapHoldsThePayloadAndNothingElse := by
  intro m a d hm hle
  obtain ⟨hcanon, _⟩ := Memory.wf_iff.mp hm
  exact ⟨Memory.writeList_wf d hm hle, fun k hk => Memory.read_writeList_same hcanon (Nat.zero_le a) hk,
    fun x hx => Memory.read_writeList_other m d hx, Memory.readList_writeList hm a d⟩

/-- Settles O22: the WRITE leaves the engine at a frame boundary with the guard free, where the READ finds the written range. -/
theorem readAfterWriteReturnsTheWrittenBytes : Obligations.ReadAfterWriteReturnsTheWrittenBytes := by
  intro a l d s hinv hb ho hok hd
  refine ⟨_, _, writeStoresThePayloadAndAcks a l d s hb ho hok hd, readAnswersWithTheCells a l _ ?_ ?_ hok, rfl, ?_⟩
  · exact hb
  · exact ho
  · dsimp only
    rw [← hd, Memory.readList_writeList hinv.map]

end Sys2Proof.Machine

namespace Sys2Proof.Machine

/-! PROOF. Responses taken whole (42_framing.md R140, R141), and frames out of turn (log 6). -/

theorem deliver_of_pending {k : RKind} {bytes : List Byte} {s : State} (hst : s.st = .resp) (hk : s.rkind = k)
    (hf : s.respFrame = bytes) : deliver k bytes s = txBytes maxResponse s := if_pos ⟨hst, hk, hf⟩

/-- The pending response leaves on TX from wherever its emission stands (42_framing.md R141). -/
theorem deliver_pending {k : RKind} {bytes : List Byte} {s : State} (hst : s.st = .resp) (hk : s.rkind = k)
    (hf : s.respFrame = bytes) (hi : s.ridx.toNat < bytes.length) :
    deliver k bytes s =
      { s with
        st := .hdr, cnt := 0#5, ridx := BitVec.ofNat 5 (bytes.length - 1), tx := s.tx ++ bytes.drop s.ridx.toNat } := by
  have hle := s.respFrame_length_le
  have hmax : maxResponse = 19 := rfl
  rw [deliver_of_pending hst hk hf, txBytes_resp maxResponse s hst (by rwa [hf]) hle (by omega), hf]

/-- Settles O25: both responses have three bytes. -/
theorem pendingAckOrNackIsDelivered : Obligations.PendingAckOrNackIsDelivered := by
  rintro a s hst rfl hi
  refine ⟨fun hk => ?ack, fun hk => ?nack⟩
  case ack =>
    have hf : s.respFrame = [s.addr, statusOk, s.addr] := by simp [State.respFrame, hk, ackFrame]
    exact congrArg Host.Outcome.next (deliver_pending hst hk hf hi)
  case nack =>
    have hf : s.respFrame = [s.addr, statusCsumFail, s.addr ^^^ statusCsumFail] := by
      simp [State.respFrame, hk, nackFrame]
    exact congrArg Host.Outcome.next (deliver_pending hst hk hf hi)

/-- Settles O26: the response has three bytes around the payload. -/
theorem pendingDataIsDelivered : Obligations.PendingDataIsDelivered := by
  rintro _ _ _ s hst hk rfl rfl h16 rfl hi
  have hf : s.respFrame = dataFrame s.addr s.len s.payload := by simp [State.respFrame, hk]
  have hlen : (dataFrame s.addr s.len s.payload).length = s.len.toNat + 3 := by
    rw [← hf, State.respFrame_length_of_data hk, Nat.min_eq_left h16]
  have h := deliver_pending hst hk hf (by rwa [hlen])
  rw [hlen] at h
  exact congrArg Host.Outcome.next h

/-- A request frame is run as the bytes it is encoded in. -/
theorem exec_eq_runFrame {i : Instr} {bs : List Byte} (h : encode i = .request bs) (s : State) :
    exec i s = .next (runFrame Config.params bs s) := by
  cases i <;> cases h <;> rfl

/-- A response frame is delivered as the bytes it is encoded in. -/
theorem exec_eq_deliver {i : Instr} {k : RKind} {bs : List Byte} (h : encode i = .response k bs) (s : State) :
    exec i s = .next (deliver k bs s) := by
  cases i <;> cases h <;> rfl

/-- Settles O24. -/
theorem framesOutOfTurnWait : Obligations.FramesOutOfTurnWait := by
  intro i s
  refine ⟨fun bs hi hb => ?request, fun k bs hi hnot => ?response⟩
  case request =>
    rcases runFrame_cases Config.params bs s with ⟨hb', _⟩ | ⟨_, e⟩
    · exact absurd (hb.symm.trans hb') Bool.false_ne_true
    · rw [exec_eq_runFrame hi, e]
  case response => rw [exec_eq_deliver hi, deliver, if_neg hnot]

end Sys2Proof.Machine

namespace Sys2Proof.Machine

/-! PROOF. The transactions of the consumer ports (45_consumer_port.md R180 to R186; log 8). -/

/-! ### The presented request -/

theorem presentAs_of_port {s : State} {i : Nat} {p : Port} (hp : s.ports[i]? = some p) (f : PortReq → PortReq) :
    s.presentAs i f = s.setPort i ⟨true, f p.sig⟩ := by
  simp [State.presentAs, hp]

theorem State.setPort_getElem? {s : State} {i : Nat} {p : Port} (hp : s.ports[i]? = some p) (q : Port) :
    (s.setPort i q).ports[i]? = some q := by
  obtain ⟨hi, _⟩ := List.getElem?_eq_some_iff.mp hp
  rw [State.setPort_ports, List.getElem?_set_self hi]

theorem State.lockLine_of_port {s : State} {i : Nat} {p : Port} (hp : s.ports[i]? = some p) :
    s.lockLine i = p.sig.lock := by
  simp [State.lockLine, hp]

/-! ### The access and the lock -/

/-- An admitted access does not depend on who holds the lock. -/
theorem performRead_withOwner (P : Params) (i : Nat) (p : Port) (s : State) (o : Owner) :
    performRead P i p { s with owner := o } = { performRead P i p s with owner := o } := by
  unfold performRead
  dsimp only
  split
  next => rfl
  next => split <;> rfl

theorem performWrite_withOwner (P : Params) (i : Nat) (p : Port) (s : State) (o : Owner) :
    performWrite P i p { s with owner := o } = { performWrite P i p s with owner := o } := by
  unfold performWrite
  dsimp only
  split
  next => rfl
  next => split <;> rfl

/-- With its request admitted the port reads or writes, as the request says (R181, R182). -/
theorem consAccess_of_req {P : Params} {i : Nat} {s : State} {p : Port} (hp : s.ports[i]? = some p)
    (hreq : p.req = true) (hmay : s.mayAccess i = true) :
    consAccess P i s = if p.sig.op = 0#1 then performRead P i p s else performWrite P i p s := by
  simp [consAccess, hp, hreq, hmay]

theorem consAccess_withOwner {P : Params} {i : Nat} {s : State} {p : Port} (hp : s.ports[i]? = some p)
    (hreq : p.req = true) (hmay : s.mayAccess i = true) :
    consAccess P i { s with owner := .cons i } = { consAccess P i s with owner := .cons i } := by
  have hmay' : State.mayAccess { s with owner := .cons i } i = true := (State.mayAccess_iff _ i).mpr (.inr rfl)
  rw [consAccess_of_req (s := { s with owner := .cons i }) hp hreq hmay', consAccess_of_req hp hreq hmay]
  split
  next => exact performRead_withOwner P i p s _
  next => exact performWrite_withOwner P i p s _

/-- A port that may access the map holds the lock after it asked for it. -/
theorem consAcquire_of_mayAccess {i : Nat} {s : State} (hmay : s.mayAccess i = true) (hi : i < s.ports.length) :
    consAcquire i s = { s with owner := .cons i } := by
  rcases (s.mayAccess_iff i).mp hmay with ho | ho
  · exact consAcquire_of_owner_free ho hi
  · rw [consAcquire_of_owner_ne_free i (by simp [ho]), ← ho]

/-- A port that may access the map leaves the lock free after it gave it back. -/
theorem consRelease_of_mayAccess {i : Nat} {s : State} (hmay : s.mayAccess i = true) :
    consRelease i s = { s with owner := .free } := by
  rcases (s.mayAccess_iff i).mp hmay with ho | ho
  · rw [consRelease_of_owner_ne (by simp [ho]), ← ho]
  · exact consRelease_of_owner ho

theorem consAccess_mayAccess (P : Params) (i j : Nat) (s : State) : (consAccess P i s).mayAccess j = s.mayAccess j := by
  obtain ⟨-, -, -, -, -, -, -, -, -, howner, -⟩ := consAccess_frame P i s
  rw [State.mayAccess, howner, State.mayAccess]

/-- A whole transaction that is not kept out is the access, with the lock left as `c_lock` says (R186; log 8). -/
theorem portTransaction_of_mayAccess {P : Params} {i : Nat} {s : State} {p : Port} (hp : s.ports[i]? = some p)
    (hreq : p.req = true) (hmay : s.mayAccess i = true) :
    portTransaction P i s = { consAccess P i s with owner := lockAfter p.sig.lock i } := by
  obtain ⟨hi, _⟩ := List.getElem?_eq_some_iff.mp hp
  have hline := State.lockLine_of_port hp
  rcases portTransaction_cases P i s with ⟨hl, e⟩ | ⟨hl, e⟩ <;> rw [hline] at hl <;> rw [e, hl]
  · rw [consAcquire_of_mayAccess hmay hi, consAccess_withOwner hp hreq hmay]
    rfl
  · rw [consRelease_of_mayAccess ((consAccess_mayAccess P i i s).trans hmay)]
    rfl

/-- While another port holds the lock a whole transaction changes nothing (20_memory.md R53). -/
theorem portTransaction_of_held (P : Params) {i j : Nat} {s : State} (ho : s.owner = .cons j) (hne : j ≠ i) :
    portTransaction P i s = s := by
  have hout : ¬s.mayAccess i = true := fun hmay => hne ((State.mayAccess_iff_eq_of_owner_cons ho i).mp hmay).symm
  have hacc := consAccess_of_not_mayAccess P hout
  rcases portTransaction_cases P i s with ⟨_, e⟩ | ⟨_, e⟩ <;> rw [e]
  · rw [consAcquire_of_owner_ne_free i (by simp [ho]), hacc]
  · rw [hacc, consRelease_of_owner_ne (by simpa [ho] using hne)]

/-! ### What an access does -/

theorem performRead_ok {P : Params} (i : Nat) {p : Port} {s : State} (hn : p.sig.len.toNat ≤ 16)
    (hle : p.sig.addr.toNat + p.sig.len.toNat ≤ P.mapSize) :
    performRead P i p s =
      s.grant i p false (some (packLanes (Memory.readList s.map p.sig.addr.toNat p.sig.len.toNat))) := by
  rcases performRead_cases P i p s with ⟨_, _, e⟩ | ⟨hout | hout, _⟩
  · exact e
  · exact absurd hout (Nat.not_lt.mpr hn)
  · exact absurd hout (Nat.not_lt.mpr hle)

theorem performRead_refused {P : Params} (i : Nat) {p : Port} {s : State}
    (h : 16 < p.sig.len.toNat ∨ P.mapSize < p.sig.addr.toNat + p.sig.len.toNat) :
    performRead P i p s = s.refuseRead i p := by
  rcases performRead_cases P i p s with ⟨hn, hle, _⟩ | ⟨_, e⟩
  · exact absurd h (not_or.mpr ⟨Nat.not_lt.mpr hn, Nat.not_lt.mpr hle⟩)
  · exact e

theorem performWrite_ok {P : Params} (i : Nat) {p : Port} {s : State} (hn : p.sig.len.toNat ≤ 16)
    (hle : p.sig.addr.toNat + p.sig.len.toNat ≤ P.mapSize) :
    performWrite P i p s =
      (s.withMap (Memory.writeList s.map p.sig.addr.toNat (unpackLanes p.sig.wdata p.sig.len.toNat))).grant
        i p false none := by
  rcases performWrite_cases P i p s with ⟨_, _, e⟩ | ⟨hout | hout, _⟩
  · exact e
  · exact absurd hout (Nat.not_lt.mpr hn)
  · exact absurd hout (Nat.not_lt.mpr hle)

theorem performWrite_refused {P : Params} (i : Nat) {p : Port} {s : State}
    (h : 16 < p.sig.len.toNat ∨ P.mapSize < p.sig.addr.toNat + p.sig.len.toNat) :
    performWrite P i p s = s.grant i p true none := by
  rcases performWrite_cases P i p s with ⟨hn, hle, _⟩ | ⟨_, e⟩
  · exact absurd h (not_or.mpr ⟨Nat.not_lt.mpr hn, Nat.not_lt.mpr hle⟩)
  · exact e

/-! ### The instructions -/

/-- CONS_READ on a port that is not kept out presents its request, reads, and leaves the lock as `c_lock` says. -/
theorem exec_consRead {i : Nat} {a : Byte} {n : BitVec 5} {lock : Bool} {s : State} {p : Port}
    (hp : s.ports[i]? = some p) (ho : s.owner = .free ∨ s.owner = .cons i) :
    exec (.consRead i a n lock) s = .next
      { performRead Config.params i ⟨true, ⟨0#1, a, n, p.sig.wdata, lock⟩⟩
          (s.setPort i ⟨true, ⟨0#1, a, n, p.sig.wdata, lock⟩⟩) with
        owner := lockAfter lock i } := by
  have hq := State.setPort_getElem? hp ⟨true, ⟨0#1, a, n, p.sig.wdata, lock⟩⟩
  have hmay := (State.mayAccess_iff (s.setPort i ⟨true, ⟨0#1, a, n, p.sig.wdata, lock⟩⟩) i).mpr ho
  rw [exec, execConsRead, presentAs_of_port hp, portTransaction_of_mayAccess hq rfl hmay,
    consAccess_of_req hq rfl hmay, if_pos rfl]

/-- CONS_WRITE on a port that is not kept out presents its request, writes, and leaves the lock as `c_lock` says. -/
theorem exec_consWrite {i : Nat} {a : Byte} {n : BitVec 5} {w : Lanes} {lock : Bool} {s : State} {p : Port}
    (hp : s.ports[i]? = some p) (ho : s.owner = .free ∨ s.owner = .cons i) :
    exec (.consWrite i a n w lock) s = .next
      { performWrite Config.params i ⟨true, ⟨1#1, a, n, w, lock⟩⟩ (s.setPort i ⟨true, ⟨1#1, a, n, w, lock⟩⟩) with
        owner := lockAfter lock i } := by
  have hq := State.setPort_getElem? hp ⟨true, ⟨1#1, a, n, w, lock⟩⟩
  have hmay := (State.mayAccess_iff (s.setPort i ⟨true, ⟨1#1, a, n, w, lock⟩⟩) i).mpr ho
  rw [exec, execConsWrite, presentAs_of_port hp, portTransaction_of_mayAccess hq rfl hmay,
    consAccess_of_req hq rfl hmay, if_neg (by simp)]

/-- Settles O27. -/
theorem consReadReturnsTheCells : Obligations.ConsReadReturnsTheCells := by
  intro i a n lock s p hp ho hn hle
  rw [exec_consRead hp ho, performRead_ok i hn hle]
  simp [State.grant, State.setPort]

/-- Settles O28. -/
theorem consReadOutOfRangeIsRefused : Obligations.ConsReadOutOfRangeIsRefused := by
  intro i a n lock s p hp ho h
  rw [exec_consRead hp ho, performRead_refused i h]
  simp [State.refuseRead, State.grant, State.setPort]

/-- Settles O29. -/
theorem consWriteStoresTheLanes : Obligations.ConsWriteStoresTheLanes := by
  intro i a n w lock s p hp ho hn hle
  rw [exec_consWrite hp ho, performWrite_ok i hn hle]
  simp [State.grant, State.setPort, State.withMap]

/-- Settles O30. -/
theorem consWriteOutOfRangeIsRefused : Obligations.ConsWriteOutOfRangeIsRefused := by
  intro i a n w lock s p hp ho h
  rw [exec_consWrite hp ho, performWrite_refused i h]
  simp [State.grant, State.setPort]

/-- Settles O31: the request is presented, and its transaction is kept out. -/
theorem consAccessWaitsForTheLock : Obligations.ConsAccessWaitsForTheLock := by
  intro i j a n w lock s p hp ho hne
  constructor
  · rw [exec, execConsRead, presentAs_of_port hp, portTransaction_of_held _ (by exact ho) hne]
    rfl
  · rw [exec, execConsWrite, presentAs_of_port hp, portTransaction_of_held _ (by exact ho) hne]
    rfl

end Sys2Proof.Machine

namespace Sys2Proof.Machine

/-! PROOF. What the agents' steps leave alone: a presented request (45_consumer_port.md R180), and, under a held lock, the map,
the lock, the port results and the link (20_memory.md R53, 70_reset_and_hazards.md R252). -/

/-! ### Steps and the ports -/

theorem rxStep_ports (P : Params) (s : State) : (rxStep P s).ports = s.ports := by
  rcases rxStep_cases P s with ⟨_, e⟩ | ⟨b, bs, _, _, e⟩ <;> rw [e]
  obtain ⟨-, -, hports, -⟩ := rxByte_frame P b { s with rx := bs }
  exact hports

theorem consAcquire_ports (i : Nat) (s : State) : (consAcquire i s).ports = s.ports := by
  rcases consAcquire_cases i s with ⟨_, _, e⟩ | ⟨_, e⟩ <;> rw [e]

theorem consRelease_ports (i : Nat) (s : State) : (consRelease i s).ports = s.ports := by
  rcases consRelease_cases i s with ⟨_, e⟩ | ⟨_, e⟩ <;> rw [e]

theorem linkReset_ports (s : State) : (linkReset s).ports = s.ports := by rw [linkReset_eq]

/-- A port's access touches no other port's inputs. -/
theorem consAccess_ports_of_ne (P : Params) {i j : Nat} (hne : j ≠ i) (s : State) :
    (consAccess P j s).ports[i]? = s.ports[i]? := by
  rcases consAccess_cases P j s with ⟨_, e⟩ | ⟨p, _, _, _, _, e⟩ | ⟨p, _, _, _, _, e⟩ <;> rw [e]
  · rcases performRead_cases P j p s with ⟨_, _, e⟩ | ⟨_, e⟩ <;> rw [e] <;> exact List.getElem?_set_ne hne
  · rcases performWrite_cases P j p s with ⟨_, _, e⟩ | ⟨_, e⟩ <;> rw [e] <;> exact List.getElem?_set_ne hne

/-- No agent but port `i` by its access changes what port `i` presents. -/
theorem performStep_port (P : Params) (s : State) {i : Nat} {a : AgentStep} (ha : a ≠ .consAccess i) :
    (performStep P s a).ports[i]? = s.ports[i]? := by
  cases a with
  | rxByte => exact congrArg (·[i]?) (rxStep_ports P s)
  | commit =>
    obtain ⟨-, hports, -⟩ := commit_frame P s
    exact congrArg (·[i]?) hports
  | txByte =>
    obtain ⟨-, -, hports, -⟩ := txByte_frame s
    exact congrArg (·[i]?) hports
  | consAccess j => exact consAccess_ports_of_ne P (fun h => ha (congrArg _ h)) s
  | consAcquire j => exact congrArg (·[i]?) (consAcquire_ports j s)
  | consRelease j => exact congrArg (·[i]?) (consRelease_ports j s)
  | reset => rfl
  | linkReset => exact congrArg (·[i]?) (linkReset_ports s)

/-- A second request at a port does not replace the one it presents, and one at another port does not concern it. -/
theorem presentRequest_port {s : State} {i : Nat} {p : Port} (hp : s.ports[i]? = some p) (hreq : p.req = true) (j : Nat)
    (r : PortReq) : (presentRequest j r s).ports[i]? = some p := by
  unfold presentRequest
  split
  next => exact hp
  next q hq =>
    split
    next => exact hp
    next hidle =>
      have hne : j ≠ i := by
        rintro rfl
        obtain rfl : p = q := Option.some.inj (hp.symm.trans hq)
        exact hidle hreq
      exact (List.getElem?_set_ne hne).trans hp

/-- Settles O33. -/
theorem presentedRequestStaysUntilPerformed : Obligations.PresentedRequestStaysUntilPerformed :=
  fun P s i _ hp hreq =>
    ⟨fun _ ha => (performStep_port P s ha).trans hp, fun r => presentRequest_port hp hreq i r⟩

/-! ### Steps under a held lock -/

/-- Under a held lock no port but its holder accesses the map (20_memory.md R53). -/
theorem consAccess_of_held (P : Params) {s : State} {i j : Nat} (ho : s.owner = .cons i) (hne : j ≠ i) :
    consAccess P j s = s :=
  consAccess_of_not_mayAccess P (mt (State.mayAccess_iff_eq_of_owner_cons ho j).mp hne)

/-- A held lock is given back by its holder alone (45_consumer_port.md R185). -/
theorem consRelease_of_held {s : State} {i j : Nat} (ho : s.owner = .cons i) (hne : j ≠ i) : consRelease j s = s :=
  consRelease_of_owner_ne (by simpa [ho] using hne.symm)

/-- Settles O36, agent by agent: those that could touch the map are not enabled. -/
theorem heldLockKeepsOthersOffTheMap : Obligations.HeldLockKeepsOthersOffTheMap := by
  intro P s i a ho hreset hrelease haccess
  have hheld : s.owner ≠ .free := by simp [ho]
  cases a with
  | rxByte =>
    rw [performStep]
    rcases rxStep_cases P s with ⟨_, e⟩ | ⟨b, bs, _, _, e⟩ <;> rw [e]
    · exact ⟨rfl, ho, rfl⟩
    · obtain ⟨hmap, howner, -, hresults, -⟩ := rxByte_frame P b { s with rx := bs }
      exact ⟨hmap, howner.trans ho, hresults⟩
  | commit => rw [performStep, commit_of_owner_ne_free P hheld]; exact ⟨rfl, ho, rfl⟩
  | txByte =>
    obtain ⟨hmap, howner, -, hresults, -⟩ := txByte_frame s
    exact ⟨hmap, howner.trans ho, hresults⟩
  | consAccess j =>
    rw [performStep, consAccess_of_held P ho fun h => haccess (congrArg _ h)]
    exact ⟨rfl, ho, rfl⟩
  | consAcquire j => rw [performStep, consAcquire_of_owner_ne_free j hheld]; exact ⟨rfl, ho, rfl⟩
  | consRelease j =>
    rw [performStep, consRelease_of_held ho fun h => hrelease (congrArg _ h)]
    exact ⟨rfl, ho, rfl⟩
  | reset => exact absurd rfl hreset
  | linkReset => rw [performStep, linkReset_eq]; exact ⟨rfl, ho, rfl⟩

/-- Settles O37, agent by agent: in a commit phase the engine takes and sends nothing, and the lock stops its commit. -/
theorem heldLockStallsTheLink : Obligations.HeldLockStallsTheLink := by
  intro P s i a ho hst hreset hlink hrelease
  have hheld : s.owner ≠ .free := by simp [ho]
  cases a with
  | rxByte =>
    rw [performStep, rxStep_of_not_rxReady P (s.rxReady_eq_false_iff.mpr (hst.imp_right .inl))]
    exact ⟨rfl, rfl, rfl, ho⟩
  | commit => rw [performStep, commit_of_owner_ne_free P hheld]; exact ⟨rfl, rfl, rfl, ho⟩
  | txByte =>
    have hne : s.st ≠ .resp := by rintro h; simp [h] at hst
    rw [performStep, txByte, if_neg hne]
    exact ⟨rfl, rfl, rfl, ho⟩
  | consAccess j =>
    obtain ⟨hst', -, -, -, -, -, -, -, -, howner, hrx, htx, -⟩ := consAccess_frame P j s
    exact ⟨hst', hrx, htx, howner.trans ho⟩
  | consAcquire j => rw [performStep, consAcquire_of_owner_ne_free j hheld]; exact ⟨rfl, rfl, rfl, ho⟩
  | consRelease j =>
    rw [performStep, consRelease_of_held ho fun h => hrelease (congrArg _ h)]
    exact ⟨rfl, rfl, rfl, ho⟩
  | reset => exact absurd rfl hreset
  | linkReset => exact absurd rfl hlink

end Sys2Proof.Machine

namespace Sys2Proof.Machine

/-! PROOF. The two sides of the block: a received or sent byte neither reads nor writes what the guard and the ports see, and
a port's step neither reads nor writes what the engine and the link see (20_memory.md R63, 60_exceptions.md R210, R219). -/

/-- The engine and the link of `s` with the map, the guard, the ports and their results of `t`. -/
def State.withPortSide (s t : State) : State :=
  { s with map := t.map, owner := t.owner, ports := t.ports, results := t.results, freeCount := t.freeCount }

/-- The fields of the port side agree. -/
structure State.SamePortSide (s t : State) : Prop where
  map : t.map = s.map
  owner : t.owner = s.owner
  ports : t.ports = s.ports
  results : t.results = s.results
  freeCount : t.freeCount = s.freeCount

/-- A state that agrees on the port side is its own engine side with that port side. -/
theorem State.SamePortSide.eq {s t : State} (h : s.SamePortSide t) : t = t.withPortSide s := by
  rw [State.withPortSide, ← h.map, ← h.owner, ← h.ports, ← h.results, ← h.freeCount]

/-! ### Bytes received and sent -/

/-- The engine of `s` among what a received or sent byte does not see: the port side of `t` and its RX stream. -/
def State.withOutside (s t : State) : State :=
  { s with
    map := t.map, owner := t.owner, ports := t.ports, results := t.results, freeCount := t.freeCount, rx := t.rx }

theorem takeLengthAndDecide_withOutside (P : Params) (b : Byte) (s t : State) :
    takeLengthAndDecide P b (s.withOutside t) = (takeLengthAndDecide P b s).withOutside t := by
  have hcmd : (s.withOutside t).cmd = s.cmd := rfl
  have haddr : (s.withOutside t).addr = s.addr := rfl
  unfold takeLengthAndDecide decideRead decideWrite
  rw [hcmd, haddr]
  dsimp only
  repeat' split
  all_goals rfl

theorem rxHeader_withOutside (P : Params) (b : Byte) (s t : State) :
    rxHeader P b (s.withOutside t) = (rxHeader P b s).withOutside t := by
  have hcnt : (s.withOutside t).cnt = s.cnt := rfl
  unfold rxHeader
  rw [hcnt, takeLengthAndDecide_withOutside]
  repeat' split
  all_goals rfl

theorem rxReadChecksum_withOutside (b : Byte) (s t : State) :
    rxReadChecksum b (s.withOutside t) = (rxReadChecksum b s).withOutside t := by
  have hacc : (s.withOutside t).acc = s.acc := rfl
  unfold rxReadChecksum
  rw [hacc]
  split <;> rfl

theorem rxPayload_withOutside (b : Byte) (s t : State) :
    rxPayload b (s.withOutside t) = (rxPayload b s).withOutside t := by
  have hcnt : (s.withOutside t).cnt = s.cnt := rfl
  have hlen : (s.withOutside t).len = s.len := rfl
  unfold rxPayload
  rw [hcnt, hlen]
  dsimp only
  split <;> rfl

theorem rxWriteChecksum_withOutside (b : Byte) (s t : State) :
    rxWriteChecksum b (s.withOutside t) = (rxWriteChecksum b s).withOutside t := by
  have hacc : (s.withOutside t).acc = s.acc := rfl
  unfold rxWriteChecksum
  rw [hacc]
  split <;> rfl

theorem rxSkip_withOutside (s t : State) : rxSkip (s.withOutside t) = (rxSkip s).withOutside t := by
  have hcnt : (s.withOutside t).cnt = s.cnt := rfl
  unfold rxSkip
  rw [hcnt]
  split <;> rfl

/-- A received byte sees nothing of the port side (20_memory.md R63) nor of the bytes behind it. -/
theorem rxByte_withOutside (P : Params) (b : Byte) (s t : State) :
    rxByte P b (s.withOutside t) = (rxByte P b s).withOutside t := by
  have hst : (s.withOutside t).st = s.st := rfl
  unfold rxByte
  rw [hst]
  cases s.st with
  | hdr => exact rxHeader_withOutside P b s t
  | rdCsum => exact rxReadChecksum_withOutside b s t
  | wrPayload => exact rxPayload_withOutside b s t
  | wrCsum => exact rxWriteChecksum_withOutside b s t
  | skip => exact rxSkip_withOutside s t
  | commitRd | commitWr | resp => rfl

theorem rxByte_samePortSide (P : Params) (b : Byte) (s : State) : s.SamePortSide (rxByte P b s) := by
  obtain ⟨hmap, howner, hports, hresults, -, -, hfree, -⟩ := rxByte_frame P b s
  exact ⟨hmap, howner, hports, hresults, hfree⟩

/-- A byte sent sees nothing of the port side nor of the RX stream (42_framing.md R141). -/
theorem txByte_withOutside (s t : State) : txByte (s.withOutside t) = (txByte s).withOutside t := by
  have hst : (s.withOutside t).st = s.st := rfl
  have hridx : (s.withOutside t).ridx = s.ridx := rfl
  have hframe : (s.withOutside t).respFrame = s.respFrame := rfl
  have hdata : (s.withOutside t).txData = s.txData := rfl
  unfold txByte
  rw [hst, hridx, hframe, hdata]
  dsimp only
  repeat' split
  all_goals rfl

theorem txByte_samePortSide (s : State) : s.SamePortSide (txByte s) := by
  obtain ⟨hmap, howner, hports, hresults, -, -, hfree, -⟩ := txByte_frame s
  exact ⟨hmap, howner, hports, hresults, hfree⟩

/-- Settles O51. -/
theorem parsingIgnoresTheMap : Obligations.ParsingIgnoresTheMap := by
  intro P b s m
  obtain ⟨-, howner, hports, hresults, hrx, -, hfree, -⟩ := rxByte_frame P b s
  calc rxByte P b { s with map := m }
      _ = (rxByte P b s).withOutside { s with map := m } := rxByte_withOutside P b s { s with map := m }
      _ = { rxByte P b s with map := m } := by
        rw [State.withOutside, ← howner, ← hports, ← hresults, ← hfree, ← hrx]

/-! ### The ports' steps -/

theorem performRead_withPortSide (P : Params) (i : Nat) (p : Port) (s t : State) :
    performRead P i p (s.withPortSide t) = s.withPortSide (performRead P i p t) := by
  have hmap : (s.withPortSide t).map = t.map := rfl
  unfold performRead
  rw [hmap]
  split
  next => rfl
  next => split <;> rfl

theorem performWrite_withPortSide (P : Params) (i : Nat) (p : Port) (s t : State) :
    performWrite P i p (s.withPortSide t) = s.withPortSide (performWrite P i p t) := by
  have hmap : (s.withPortSide t).map = t.map := rfl
  unfold performWrite
  rw [hmap]
  split
  next => rfl
  next => split <;> rfl

theorem consAccess_withPortSide (P : Params) (i : Nat) (s t : State) :
    consAccess P i (s.withPortSide t) = s.withPortSide (consAccess P i t) := by
  have hports : (s.withPortSide t).ports = t.ports := rfl
  have hmay : (s.withPortSide t).mayAccess i = t.mayAccess i := rfl
  unfold consAccess
  rw [hports, hmay]
  split
  next => rfl
  next p _ =>
    rw [performRead_withPortSide, performWrite_withPortSide]
    repeat' split
    all_goals rfl

theorem consAcquire_withPortSide (i : Nat) (s t : State) :
    consAcquire i (s.withPortSide t) = s.withPortSide (consAcquire i t) := by
  have hcond : ((s.withPortSide t).owner = .free ∧ i < (s.withPortSide t).ports.length) =
    (t.owner = .free ∧ i < t.ports.length) := rfl
  unfold consAcquire
  simp only [hcond]
  split <;> rfl

theorem consRelease_withPortSide (i : Nat) (s t : State) :
    consRelease i (s.withPortSide t) = s.withPortSide (consRelease i t) := by
  have howner : (s.withPortSide t).owner = t.owner := rfl
  unfold consRelease
  rw [howner]
  split <;> rfl

/-- The steps of the ports. -/
def AgentStep.ofPort : AgentStep → Bool
  | .consAccess _ | .consAcquire _ | .consRelease _ => true
  | .rxByte | .commit | .txByte | .reset | .linkReset => false

theorem performStep_withPortSide (P : Params) {a : AgentStep} (ha : a.ofPort = true) (s t : State) :
    performStep P (s.withPortSide t) a = s.withPortSide (performStep P t a) := by
  cases a with
  | consAccess i => exact consAccess_withPortSide P i s t
  | consAcquire i => exact consAcquire_withPortSide i s t
  | consRelease i => exact consRelease_withPortSide i s t
  | rxByte | commit | txByte | reset | linkReset => cases ha

/-- Steps of the ports leave the engine and the link alone, and act on the port side by what they see there. -/
theorem performSteps_withPortSide (P : Params) {steps : List AgentStep} (h : ∀ a ∈ steps, a.ofPort = true)
    (s t : State) : performSteps P steps (s.withPortSide t) = s.withPortSide (performSteps P steps t) := by
  induction steps generalizing t with
  | nil => rfl
  | cons a steps ih =>
    obtain ⟨ha, hsteps⟩ := List.forall_mem_cons.mp h
    calc performSteps P (a :: steps) (s.withPortSide t)
        _ = performSteps P steps (s.withPortSide (performStep P t a)) := by
          rw [← performStep_withPortSide P ha]; rfl
        _ = s.withPortSide (performSteps P (a :: steps) t) := ih hsteps _

/-! ### The link reset at a clock edge -/

theorem performSteps_append (P : Params) (xs ys : List AgentStep) (s : State) :
    performSteps P (xs ++ ys) s = performSteps P ys (performSteps P xs s) := List.foldl_append

/-- The part of a clock edge that the guard and the lock lines decide (R186, R210). -/
def edgePortSide (p : Pins) (s : State) : List AgentStep := edgePortSteps p s ++ edgeReleaseSteps s

theorem edgePortSide_ofPort (p : Pins) (s : State) : ∀ a ∈ edgePortSide p s, a.ofPort = true := by
  intro a ha
  rcases List.mem_append.mp ha with h | h
  · unfold edgePortSteps at h
    repeat' split at h
    all_goals simp only [List.mem_cons, List.not_mem_nil, or_false] at h
    · rcases h with rfl | rfl <;> rfl
    · subst h; rfl
  · unfold edgeReleaseSteps at h
    repeat' split at h
    all_goals simp only [List.mem_cons, List.not_mem_nil, or_false] at h
    subst h; rfl

theorem clockEdge_of_not_rst (P : Params) {p : Pins} (h : p.rst = false) (s : State) :
    clockEdge P p s = performSteps P (edgePortSide p s) (performSteps P (edgeEngineSteps p s) s) := by
  rw [clockEdge, edgeSteps, h, if_neg Bool.false_ne_true, List.append_assoc, performSteps_append]
  rfl

theorem linkReset_samePortSide (s : State) : s.SamePortSide (linkReset s) := by
  rw [linkReset_eq]
  exact ⟨rfl, rfl, rfl, rfl, rfl⟩

theorem rxStep_samePortSide (P : Params) (s : State) : s.SamePortSide (rxStep P s) := by
  rcases rxStep_cases P s with ⟨_, e⟩ | ⟨b, bs, _, _, e⟩ <;> rw [e]
  · exact ⟨rfl, rfl, rfl, rfl, rfl⟩
  · obtain ⟨hmap, howner, hports, hresults, hfree⟩ := rxByte_samePortSide P b { s with rx := bs }
    exact ⟨hmap, howner, hports, hresults, hfree⟩

/-- Everything the engine's part of a clock edge can be. -/
theorem edgeEngineSteps_cases (p : Pins) (s : State) :
    (p.linkRst = true ∧ edgeEngineSteps p s = [.linkReset]) ∨
    (p.grant = some .engine ∧ edgeEngineSteps p s = [.commit]) ∨
    edgeEngineSteps p s = [.txByte] ∨ edgeEngineSteps p s = [.rxByte] ∨ edgeEngineSteps p s = [] := by
  unfold edgeEngineSteps
  split
  next hlink => exact .inl ⟨hlink, rfl⟩
  next =>
    refine .inr ?_
    cases s.st with
    | commitRd | commitWr =>
      dsimp only
      split
      next hg => exact .inl ⟨hg, rfl⟩
      next => exact .inr (.inr (.inr rfl))
    | resp =>
      dsimp only
      split
      next => exact .inr (.inl rfl)
      next => exact .inr (.inr (.inr rfl))
    | hdr | rdCsum | wrPayload | wrCsum | skip =>
      dsimp only
      split
      next => exact .inr (.inr (.inl rfl))
      next => exact .inr (.inr (.inr rfl))

/-- The engine's part of a clock edge leaves the guard, the ports and their results alone, and the map too where the guard does
not pick the engine. -/
theorem edgeEngineSteps_frame (P : Params) (p : Pins) (s : State) :
    (performSteps P (edgeEngineSteps p s) s).owner = s.owner ∧
    (performSteps P (edgeEngineSteps p s) s).ports = s.ports ∧
    (performSteps P (edgeEngineSteps p s) s).results = s.results ∧
    (p.grant ≠ some .engine → s.SamePortSide (performSteps P (edgeEngineSteps p s) s)) := by
  have keep {t : State} (h : s.SamePortSide t) :
      t.owner = s.owner ∧ t.ports = s.ports ∧ t.results = s.results ∧ (p.grant ≠ some .engine → s.SamePortSide t) :=
    ⟨h.owner, h.ports, h.results, fun _ => h⟩
  rcases edgeEngineSteps_cases p s with ⟨_, e⟩ | ⟨hg, e⟩ | e | e | e <;> rw [e]
  · exact keep (linkReset_samePortSide s)
  · obtain ⟨howner, hports, hresults, -⟩ := commit_frame P s
    exact ⟨howner, hports, hresults, fun hne => absurd hg hne⟩
  · exact keep (txByte_samePortSide s)
  · exact keep (rxStep_samePortSide P s)
  · exact keep ⟨rfl, rfl, rfl, rfl, rfl⟩

/-- Who holds the lock after the release of a clock edge (R186). -/
def State.ownerAfterEdge (s : State) : Owner :=
  match s.owner with
  | .cons i => if s.lockLine i then .cons i else .free
  | .free => .free

/-- The release of a clock edge changes the owner and nothing else. -/
theorem performSteps_edgeRelease (P : Params) {s t : State} (h : t.owner = s.owner) :
    performSteps P (edgeReleaseSteps s) t = { t with owner := s.ownerAfterEdge } := by
  cases ho : s.owner with
  | free =>
    simp only [edgeReleaseSteps, State.ownerAfterEdge, ho, performSteps, List.foldl_nil]
    rw [← ho, ← h]
  | cons i =>
    cases hl : s.lockLine i
    · simp [edgeReleaseSteps, State.ownerAfterEdge, ho, hl, performSteps, performStep, consRelease, h]
    · simp only [edgeReleaseSteps, State.ownerAfterEdge, ho, hl, performSteps, if_true, List.foldl_nil]
      rw [← ho, ← h]

theorem edgePortSide_of_grant_engine {p : Pins} (hg : p.grant = some .engine) (s : State) :
    edgePortSide p s = edgeReleaseSteps s := by
  simp [edgePortSide, edgePortSteps, hg]

/-- Settles O47: the link reset acts on the engine's side only, the ports' part of the edge on the port side only, and with the
guard granted to the engine that part is the release. -/
theorem linkResetSparesThePortsAtAClockEdge : Obligations.LinkResetSparesThePortsAtAClockEdge := by
  intro P p s hrst hlink t u
  have hlinkSteps : edgeEngineSteps p s = [.linkReset] := by simp [edgeEngineSteps, hlink]
  have ht : t = (linkReset s).withPortSide (performSteps P (edgePortSide p s) s) := by
    have hside : linkReset s = (linkReset s).withPortSide s := (linkReset_samePortSide s).eq
    calc t = performSteps P (edgePortSide p s) (performSteps P (edgeEngineSteps p s) s) :=
          clockEdge_of_not_rst P hrst s
      _ = performSteps P (edgePortSide p s) (linkReset s) := by rw [hlinkSteps]; rfl
      _ = (linkReset s).withPortSide (performSteps P (edgePortSide p s) s) := by
        rw [← performSteps_withPortSide P (edgePortSide_ofPort p s), ← hside]
  have hu : u = performSteps P (edgePortSide p s) (performSteps P (edgeEngineSteps { p with linkRst := false } s) s) :=
    clockEdge_of_not_rst P (p := { p with linkRst := false }) hrst s
  obtain ⟨howner, hports, hresults, hside⟩ := edgeEngineSteps_frame P { p with linkRst := false } s
  have hengine : t.st = .hdr ∧ t.cnt = 0#5 ∧ t.rx = s.rx ∧ t.tx = s.tx := by
    rw [ht, linkReset_eq]
    exact ⟨rfl, rfl, rfl, rfl⟩
  obtain ⟨hst, hcnt, hrx, htx⟩ := hengine
  refine ⟨hst, hcnt, hrx, htx, ?_⟩
  by_cases hg : p.grant = some .engine
  · rw [edgePortSide_of_grant_engine hg, performSteps_edgeRelease P rfl] at ht
    rw [edgePortSide_of_grant_engine hg, performSteps_edgeRelease P howner] at hu
    rw [ht, hu]
    exact ⟨rfl, hports.symm, hresults.symm, fun _ => rfl, fun hne => absurd hg hne⟩
  · rw [(hside hg).eq, performSteps_withPortSide P (edgePortSide_ofPort p s)] at hu
    rw [ht, hu]
    exact ⟨rfl, rfl, rfl, fun h => absurd h hg, fun _ => rfl⟩

end Sys2Proof.Machine

namespace Sys2Proof.Machine

/-! PROOF. The phases a step can enter (42_framing.md R142). -/

/-- A byte after which the engine no longer receives is a checksum byte: a matching one opens the commit, a mismatching one of a
WRITE the refusal. -/
theorem rxByte_of_not_rxReady {P : Params} {b : Byte} {s : State} (h : (rxByte P b s).rxReady = false) :
    rxByte P b s = s ∨
    (s.st = .rdCsum ∧ b = s.acc ∧ (rxByte P b s).st = .commitRd) ∨
    (s.st = .wrCsum ∧ b = s.acc ∧ (rxByte P b s).st = .commitWr) ∨
    (s.st = .wrCsum ∧ b ≠ s.acc ∧ (rxByte P b s).st = .resp) := by
  rcases rxByte_cases P b s with ⟨hst, _, e⟩ | ⟨hst, _, e⟩ | ⟨hst, _, e⟩ | ⟨_, _, _, _, e⟩ | ⟨hst, e⟩ | ⟨hst, e⟩ |
    ⟨hst, e⟩ | ⟨hst, e⟩ | ⟨_, e⟩ <;> rw [e] at h ⊢
  · simp [State.rxReady, hst] at h
  · simp [State.rxReady, hst] at h
  · simp [takeLengthAndDecide_rxReady] at h
  · exact .inl rfl
  · by_cases hb : b = s.acc
    · exact .inr (.inl ⟨hst, hb, by simp [rxReadChecksum, hb]⟩)
    · simp [rxReadChecksum, hb, State.rxReady] at h
  · unfold rxPayload at h
    dsimp only at h
    split at h <;> simp [State.rxReady, hst] at h
  · by_cases hb : b = s.acc
    · exact .inr (.inr (.inl ⟨hst, hb, by simp [rxWriteChecksum, hb]⟩))
    · exact .inr (.inr (.inr ⟨hst, hb, by simp [rxWriteChecksum, hb]⟩))
  · unfold rxSkip at h
    split at h <;> simp [State.rxReady, hst] at h
  · exact .inl rfl

/-- A step that enters a phase in which the engine does not receive: a commit, or the checksum byte of a complete frame. -/
inductive EntersTransaction (s : State) : AgentStep → Phase → Prop
  | commit (ho : s.owner = .free) (hst : s.st = .commitRd ∨ s.st = .commitWr) : EntersTransaction s .commit .resp
  | readChecksum (hst : s.st = .rdCsum) (bs : List Byte) (hrx : s.rx = s.acc :: bs) :
      EntersTransaction s .rxByte .commitRd
  | writeChecksum (hst : s.st = .wrCsum) (bs : List Byte) (hrx : s.rx = s.acc :: bs) :
      EntersTransaction s .rxByte .commitWr
  | badWriteChecksum (hst : s.st = .wrCsum) (b : Byte) (bs : List Byte) (hrx : s.rx = b :: bs) (hb : b ≠ s.acc) :
      EntersTransaction s .rxByte .resp

theorem rxStep_phase (P : Params) (s : State) (hready : (rxStep P s).rxReady = false) :
    (rxStep P s).st = s.st ∨ EntersTransaction s .rxByte (rxStep P s).st := by
  rcases rxStep_cases P s with ⟨_, e⟩ | ⟨b, bs, hrx, _, e⟩ <;> rw [e] at hready ⊢
  · exact .inl rfl
  · rcases rxByte_of_not_rxReady hready with e | ⟨hst, hb, e⟩ | ⟨hst, hb, e⟩ | ⟨hst, hb, e⟩ <;> rw [e]
    · exact .inl rfl
    · subst hb; exact .inr (.readChecksum hst bs hrx)
    · subst hb; exact .inr (.writeChecksum hst bs hrx)
    · exact .inr (.badWriteChecksum hst b bs hrx hb)

theorem commit_phase (P : Params) (s : State) :
    (commit P s).st = s.st ∨ EntersTransaction s .commit (commit P s).st := by
  rcases commit_cases P s with ⟨ho, hst, e⟩ | ⟨ho, hst, e⟩ | ⟨_, e⟩ <;> rw [e]
  · have hresp : (commitRead P s).st = .resp := by unfold commitRead; split <;> rfl
    rw [hresp]
    exact .inr (.commit ho (.inl hst))
  · have hresp : (commitWrite P s).st = .resp := by unfold commitWrite; split <;> rfl
    rw [hresp]
    exact .inr (.commit ho (.inr hst))
  · exact .inl rfl

/-- Every step leaves the engine receiving, or in the phase it was in, or enters a transaction. -/
theorem performStep_phase (P : Params) (s : State) (a : AgentStep) (hready : (performStep P s a).rxReady = false) :
    (performStep P s a).st = s.st ∨ EntersTransaction s a (performStep P s a).st := by
  cases a with
  | rxByte => exact rxStep_phase P s hready
  | commit => exact commit_phase P s
  | txByte =>
    rw [performStep] at hready ⊢
    rcases txByte_cases s with ⟨_, e⟩ | ⟨_, _, e⟩ | ⟨_, _, e⟩ <;> rw [e] at hready ⊢
    · exact .inl rfl
    · cases hready
    · exact .inl rfl
  | consAccess i =>
    obtain ⟨hst, -⟩ := consAccess_frame P i s
    exact .inl hst
  | consAcquire i => exact .inl (consAcquire_samePending i s).st
  | consRelease i => exact .inl (consRelease_samePending i s).st
  | reset => cases hready
  | linkReset =>
    rw [performStep, linkReset_eq] at hready
    cases hready

/-- TX carries a byte only while a response is pending. -/
theorem performStep_tx {P : Params} {s : State} {a : AgentStep} (h : (performStep P s a).tx ≠ s.tx) :
    a = .txByte ∧ s.st = .resp := by
  cases a with
  | rxByte =>
    refine absurd ?_ h
    rw [performStep]
    rcases rxStep_cases P s with ⟨_, e⟩ | ⟨b, bs, _, _, e⟩ <;> rw [e]
    obtain ⟨-, -, -, -, -, htx, -⟩ := rxByte_frame P b { s with rx := bs }
    exact htx
  | commit =>
    obtain ⟨-, -, -, -, htx, -⟩ := commit_frame P s
    exact absurd htx h
  | txByte =>
    refine ⟨rfl, ?_⟩
    by_contra hst
    exact h (congrArg State.tx (if_neg hst))
  | consAccess i =>
    obtain ⟨-, -, -, -, -, -, -, -, -, -, -, htx, -⟩ := consAccess_frame P i s
    exact absurd htx h
  | consAcquire i => rcases consAcquire_cases i s with ⟨_, _, e⟩ | ⟨_, e⟩ <;> simp [performStep, e] at h
  | consRelease i => rcases consRelease_cases i s with ⟨_, e⟩ | ⟨_, e⟩ <;> simp [performStep, e] at h
  | reset => exact absurd rfl h
  | linkReset => simp [performStep, linkReset_eq] at h

/-- Settles O49: each phase is entered as `EntersTransaction` says, and a map change is one of O48's whole writes. -/
theorem responsesFollowADecidedChecksum : Obligations.ResponsesFollowADecidedChecksum := by
  intro P s a t
  refine ⟨fun h => ?resp, fun h => ?commitRd, fun h => ?commitWr, performStep_tx, fun h => ?map⟩
  case resp =>
    rcases performStep_phase P s a ((State.rxReady_eq_false_iff _).mpr (.inr (.inr h))) with e | e
    · exact .inl (e.symm.trans h)
    · rw [show (performStep P s a).st = .resp from h] at e
      cases e with
      | commit ho hst => exact .inr (.inl ⟨rfl, ho, hst⟩)
      | badWriteChecksum hst b bs hrx hb => exact .inr (.inr ⟨rfl, hst, b, bs, hrx, hb⟩)
  case commitRd =>
    rcases performStep_phase P s a ((State.rxReady_eq_false_iff _).mpr (.inl h)) with e | e
    · exact .inl (e.symm.trans h)
    · rw [show (performStep P s a).st = .commitRd from h] at e
      cases e with
      | readChecksum hst bs hrx => exact .inr ⟨rfl, hst, bs, hrx⟩
  case commitWr =>
    rcases performStep_phase P s a ((State.rxReady_eq_false_iff _).mpr (.inr (.inl h))) with e | e
    · exact .inl (e.symm.trans h)
    · rw [show (performStep P s a).st = .commitWr from h] at e
      cases e with
      | writeChecksum hst bs hrx => exact .inr ⟨rfl, hst, bs, hrx⟩
  case map =>
    rcases cellsChangeOnlyByWholeWrites P s a h with ⟨ha, _⟩ | ⟨ha, hst, _⟩ | ⟨i, _, ha, _⟩
    · exact .inr (.inr ha)
    · exact .inl ⟨ha, hst⟩
    · exact .inr (.inl ⟨i, ha⟩)

end Sys2Proof.Machine

namespace Sys2Proof.Machine

/-! PROOF. Bytes and numbers: one changed byte in the checksum (41_checksum.md R125), the byte lanes of a port (10_state.md R30),
and the field codecs (40_register_map_accessors.md R100 to R107). -/

/-- Settles O58: the flipped bits are flipped in the checksum. -/
theorem checksumSeesOneChangedByte : Obligations.ChecksumSeesOneChangedByte := by
  intro s i x m hx hm h
  rw [xorFold_set_xor hx] at h
  have hm0 : xorFold s ^^^ (xorFold s ^^^ m) = 0#8 := by rw [h, BitVec.xor_self]
  rw [← BitVec.xor_assoc, BitVec.xor_self, BitVec.zero_xor] at hm0
  exact hm hm0

/-! ### The byte lanes -/

/-- Bit `j` of a packed word is bit `j % 8` of byte `j / 8`. -/
theorem getLsbD_packLanes (d : List Byte) {j : Nat} (hj : j < 128) :
    (packLanes d).getLsbD j = (d.getD (j / 8) 0#8).getLsbD (j % 8) := by
  induction d generalizing j with
  | nil => simp [packLanes]
  | cons b d ih =>
    rw [packLanes, BitVec.getLsbD_or, BitVec.getLsbD_setWidth, BitVec.getLsbD_shiftLeft]
    by_cases h8 : j < 8
    · simp [h8, hj, Nat.div_eq_of_lt h8, Nat.mod_eq_of_lt h8]
    · have hdiv : j / 8 = (j - 8) / 8 + 1 := by omega
      have hmod : j % 8 = (j - 8) % 8 := by omega
      have hhigh : b.getLsbD j = false := BitVec.getLsbD_of_ge b j (by omega)
      simp [h8, hj, hhigh, hdiv, hmod, ih (show j - 8 < 128 by omega)]

theorem laneByte_packLanes (d : List Byte) {k : Nat} (hk : k < 16) : laneByte (packLanes d) k = d.getD k 0#8 := by
  apply BitVec.eq_of_getLsbD_eq
  intro i hi
  have hdiv : (8 * k + i) / 8 = k := by omega
  have hmod : (8 * k + i) % 8 = i := by omega
  rw [laneByte, BitVec.getLsbD_extractLsb', getLsbD_packLanes d (by omega), hdiv, hmod]
  simp [hi]

/-- Two lane words with the same sixteen bytes are equal. -/
theorem eq_of_laneByte_eq {v w : Lanes} (h : ∀ k < 16, laneByte v k = laneByte w k) : v = w := by
  apply BitVec.eq_of_getLsbD_eq
  intro j hj
  have hbit (u : Lanes) : (laneByte u (j / 8)).getLsbD (j % 8) = u.getLsbD j := by
    have hj' : 8 * (j / 8) + j % 8 = j := by omega
    have hlt : j % 8 < 8 := by omega
    simp [laneByte, hj', hlt]
  rw [← hbit v, ← hbit w, h _ (by omega)]

@[simp] theorem unpackLanes_length (w : Lanes) (n : Nat) : (unpackLanes w n).length = n := by
  simp [unpackLanes]

theorem unpackLanes_getD (w : Lanes) {n k : Nat} (hk : k < n) : (unpackLanes w n).getD k 0x00#8 = laneByte w k := by
  simp [unpackLanes, hk]

/-- A field in the low bits of a lane word: its bytes are the low lanes. -/
theorem laneByte_setWidth {n : Nat} (hn : n ≤ 128) (v : BitVec n) (k : Nat) :
    laneByte (v.setWidth 128) k = v.extractLsb' (8 * k) 8 := by
  apply BitVec.eq_of_getLsbD_eq
  intro i hi
  rw [laneByte, BitVec.getLsbD_extractLsb', BitVec.getLsbD_extractLsb', BitVec.getLsbD_setWidth]
  by_cases h : 8 * k + i < 128
  · simp [h]
  · simp [h, BitVec.getLsbD_of_ge v (8 * k + i) (by omega)]

/-- A field packed from its own bytes. -/
theorem packLanes_unpackLanes_setWidth {n m : Nat} (hn : n ≤ 8 * m) (v : BitVec n) :
    packLanes (unpackLanes (v.setWidth 128) m) = v.setWidth 128 := by
  refine eq_of_laneByte_eq fun k hk => ?_
  rw [laneByte_packLanes _ hk]
  by_cases hkm : k < m
  · exact unpackLanes_getD _ hkm
  · have hzero : laneByte (v.setWidth 128) k = 0#8 := by
      rw [laneByte_setWidth (by omega)]
      apply BitVec.eq_of_getLsbD_eq
      intro i _
      simp [BitVec.getLsbD_of_ge v (8 * k + i) (by omega)]
    rw [hzero]
    simp [unpackLanes, hkm]

theorem unpackLanes_setWidth_two (v : BitVec 16) : unpackLanes (v.setWidth 128) 2 = bytes16 v := by
  have hlane := laneByte_setWidth (by decide) v
  simp [unpackLanes, List.range_succ, hlane, bytes16]

theorem unpackLanes_setWidth_four (v : BitVec 32) : unpackLanes (v.setWidth 128) 4 = bytes32 v := by
  have hlane := laneByte_setWidth (by decide) v
  simp [unpackLanes, List.range_succ, hlane, bytes32]

/-! ### The fields -/

theorem value16_bytes16 (v : BitVec 16) : value16 (v.extractLsb' 0 8) (v.extractLsb' 8 8) = v := by
  rw [value16, BitVec.extractLsb'_append_extractLsb'_eq_extractLsb' (by rfl : 8 = 0 + 8), BitVec.extractLsb'_eq_self]

theorem value32_bytes32 (v : BitVec 32) :
    value32 (v.extractLsb' 0 8) (v.extractLsb' 8 8) (v.extractLsb' 16 8) (v.extractLsb' 24 8) = v := by
  rw [value32, BitVec.extractLsb'_append_extractLsb'_eq_extractLsb' (by rfl : 24 = 16 + 8),
    BitVec.extractLsb'_append_extractLsb'_eq_extractLsb' (by rfl : 16 = 8 + 8),
    BitVec.extractLsb'_append_extractLsb'_eq_extractLsb' (by rfl : 8 = 0 + 8), BitVec.extractLsb'_eq_self]

/-- The bytes of a 16-bit value, from their value (20_memory.md R43). -/
theorem bytes16_value16 (b0 b1 : Byte) : bytes16 (value16 b0 b1) = [b0, b1] := by
  have h0 : (value16 b0 b1).extractLsb' 0 8 = b0 := BitVec.extractLsb'_append_eq_right
  have h1 : (value16 b0 b1).extractLsb' 8 8 = b1 := BitVec.extractLsb'_append_eq_left
  rw [bytes16, h0, h1]

/-- The bytes of a 32-bit value, from their value (20_memory.md R43). -/
theorem bytes32_value32 (b0 b1 b2 b3 : Byte) : bytes32 (value32 b0 b1 b2 b3) = [b0, b1, b2, b3] := by
  have h0 : (value32 b0 b1 b2 b3).extractLsb' 0 8 = b0 := by
    rw [value32, BitVec.extractLsb'_append_eq_right]
  have h1 : (value32 b0 b1 b2 b3).extractLsb' 8 8 = b1 := by
    rw [value32, BitVec.extractLsb'_append_eq_of_le (by decide)]
    exact BitVec.extractLsb'_append_eq_right
  have h2 : (value32 b0 b1 b2 b3).extractLsb' 16 8 = b2 := by
    rw [value32, BitVec.extractLsb'_append_eq_of_le (by decide), BitVec.extractLsb'_append_eq_of_le (by decide)]
    exact BitVec.extractLsb'_append_eq_right
  have h3 : (value32 b0 b1 b2 b3).extractLsb' 24 8 = b3 := by
    rw [value32, BitVec.extractLsb'_append_eq_of_le (by decide), BitVec.extractLsb'_append_eq_of_le (by decide)]
    exact BitVec.extractLsb'_append_eq_left
  rw [bytes32, h0, h1, h2, h3]

theorem readU16_of_readBytes {P : Params} {m : Memory} {a : Nat} {b0 b1 : Byte}
    (h : readBytes P m a 2 = .ok [b0, b1]) : readU16 P m a = .ok (value16 b0 b1) := by
  rw [readU16, h]
  rfl

theorem readU32_of_readBytes {P : Params} {m : Memory} {a : Nat} {b0 b1 b2 b3 : Byte}
    (h : readBytes P m a 4 = .ok [b0, b1, b2, b3]) : readU32 P m a = .ok (value32 b0 b1 b2 b3) := by
  rw [readU32, h]
  rfl

/-- A 2-byte read is the field of the two cells (R102). -/
theorem readU16_ok {P : Params} {m : Memory} {a : Nat} {v : BitVec 16} (h : readU16 P m a = .ok v) :
    Memory.readList m a 2 = bytes16 v := by
  rcases readBytes_cases P m a 2 with ⟨_, e⟩ | ⟨_, e⟩
  · simp [readU16, e] at h
  · rw [readU16_of_readBytes e] at h
    rw [← Access.ok.inj h, bytes16_value16]
    rfl

/-- A 4-byte read is the field of the four cells (R103). -/
theorem readU32_ok {P : Params} {m : Memory} {a : Nat} {v : BitVec 32} (h : readU32 P m a = .ok v) :
    Memory.readList m a 4 = bytes32 v := by
  rcases readBytes_cases P m a 4 with ⟨_, e⟩ | ⟨_, e⟩
  · simp [readU32, e] at h
  · rw [readU32_of_readBytes e] at h
    rw [← Access.ok.inj h, bytes32_value32]
    rfl

/-- Settles O32: a lane is a byte, and a field of two or four bytes is the low lanes it unpacks to. -/
theorem lanesCarryTheBytesInOrder : Obligations.LanesCarryTheBytesInOrder := by
  refine ⟨fun d k _ hk => laneByte_packLanes d hk, unpackLanes_length, fun w n k _ hk => unpackLanes_getD w hk,
    fun P m a v h => ?read16, fun P m a v h => ?read32, fun P m a v => ?write16, fun P m a v => ?write32⟩
  case read16 =>
    rw [readU16_ok h, ← unpackLanes_setWidth_two]
    exact packLanes_unpackLanes_setWidth (by decide) v
  case read32 =>
    rw [readU32_ok h, ← unpackLanes_setWidth_four]
    exact packLanes_unpackLanes_setWidth (by decide) v
  case write16 => exact ⟨unpackLanes_setWidth_two v, by rw [unpackLanes_setWidth_two, writeU16]⟩
  case write32 => exact ⟨unpackLanes_setWidth_four v, by rw [unpackLanes_setWidth_four, writeU32]⟩

/-! ### The accessors -/

theorem readBytes_of_le {P : Params} {m : Memory} {a n : Nat} (h : a + n ≤ P.mapSize) :
    readBytes P m a n = .ok (Memory.readList m a n) := if_neg (Nat.not_lt.mpr h)

theorem writeBytes_of_le {P : Params} {m : Memory} {a n : Nat} (d : List Byte) (h : a + n ≤ P.mapSize) :
    writeBytes P m a n d = .ok (Memory.writeList m a (d.take n)) := if_neg (Nat.not_lt.mpr h)

/-- A range read back after it was written whole, by the byte accessors (R106). -/
theorem readBytes_writeList {P : Params} {m : Memory} (hm : Memory.wf P m = true) {a : Nat} {d : List Byte}
    (h : a + d.length ≤ P.mapSize) : readBytes P (Memory.writeList m a d) a d.length = .ok d := by
  rw [readBytes_of_le h, Memory.readList_writeList hm]

/-- Settles O59: the bytes of a field are written and read back, and their value is the field. -/
theorem fieldCodecsAreInverse : Obligations.FieldCodecsAreInverse := by
  intro P m a hm
  refine ⟨fun v hle => ⟨_, writeBytes_of_le (bytes16 v) hle, ?read16⟩,
    fun v hle => ⟨_, writeBytes_of_le (bytes32 v) hle, ?read32, readBytes_writeList hm hle⟩⟩
  case read16 =>
    exact (readU16_of_readBytes (readBytes_writeList hm hle)).trans (congrArg Access.ok (value16_bytes16 v))
  case read32 =>
    exact (readU32_of_readBytes (readBytes_writeList hm hle)).trans (congrArg Access.ok (value32_bytes32 v))

theorem readBytes_eq_outOfRange_iff (P : Params) (m : Memory) (a n : Nat) :
    readBytes P m a n = .outOfRange ↔ P.mapSize < a + n := by
  rcases readBytes_cases P m a n with ⟨h, e⟩ | ⟨h, e⟩ <;> simp [e, h]

theorem writeBytes_eq_outOfRange_iff (P : Params) (m : Memory) (a n : Nat) (d : List Byte) :
    writeBytes P m a n d = .outOfRange ↔ P.mapSize < a + n := by
  rcases writeBytes_cases P m a n d with ⟨h, e⟩ | ⟨h, e⟩ <;> simp [e, h]

theorem readU16_eq_outOfRange_iff (P : Params) (m : Memory) (a : Nat) :
    readU16 P m a = .outOfRange ↔ P.mapSize < a + 2 := by
  rcases readBytes_cases P m a 2 with ⟨h, e⟩ | ⟨h, e⟩ <;> simp [readU16, e, h]

theorem readU32_eq_outOfRange_iff (P : Params) (m : Memory) (a : Nat) :
    readU32 P m a = .outOfRange ↔ P.mapSize < a + 4 := by
  rcases readBytes_cases P m a 4 with ⟨h, e⟩ | ⟨h, e⟩ <;> simp [readU32, e, h]

/-- Settles O60: the field accessors refuse when the byte accessors do. -/
theorem accessorsRefuseExactlyOutOfRange : Obligations.AccessorsRefuseExactlyOutOfRange :=
  fun P m a n d v w => ⟨readBytes_eq_outOfRange_iff P m a n, writeBytes_eq_outOfRange_iff P m a n d,
    readU16_eq_outOfRange_iff P m a, readU32_eq_outOfRange_iff P m a,
    writeBytes_eq_outOfRange_iff P m a 2 (bytes16 v), writeBytes_eq_outOfRange_iff P m a 4 (bytes32 w)⟩

end Sys2Proof.Machine

namespace Sys2Proof.Machine

/-! PROOF. A request run whole is a run of the agents' steps (00_scope.md R4; log 5). -/

theorem txBytes_eq_performSteps (P : Params) (n : Nat) (s : State) :
    txBytes n s = performSteps P (List.replicate n .txByte) s := by
  induction n generalizing s with
  | zero => rfl
  | succ n ih => exact ih (txByte s)

theorem performSteps_cons (P : Params) (a : AgentStep) (steps : List AgentStep) (s : State) :
    performSteps P (a :: steps) s = performSteps P steps (performStep P s a) := rfl

theorem settle_eq_performSteps (P : Params) (s : State) :
    settle P s = performSteps P ([.commit] ++ List.replicate 19 .txByte) s := by
  rw [settle, txBytes_eq_performSteps P, List.singleton_append, performSteps_cons, performStep, maxResponse]

/-- The state with other bytes waiting on RX. -/
def State.withRx (s : State) (r : List Byte) : State := { s with rx := r }

theorem rxStep_of_cons (P : Params) {b : Byte} {bs : List Byte} {s : State} (hrx : s.rx = b :: bs)
    (hready : s.rxReady = true) : rxStep P s = rxByte P b (s.withRx bs) := by
  simp [rxStep, hrx, hready, State.withRx]

/-- A byte received does not depend on the bytes behind it. -/
theorem rxByte_withRx (P : Params) (b : Byte) (s : State) (r : List Byte) :
    rxByte P b (s.withRx r) = (rxByte P b s).withRx r := by
  obtain ⟨hmap, howner, hports, hresults, -, -, hfree, -⟩ := rxByte_frame P b s
  calc rxByte P b (s.withRx r)
      _ = (rxByte P b s).withOutside (s.withRx r) := rxByte_withOutside P b s (s.withRx r)
      _ = (rxByte P b s).withRx r := by
        simp only [State.withOutside, State.withRx, hmap, howner, hports, hresults, hfree]

/-- Bytes waiting on RX, each taken as the engine is ready for it, are bytes received; the bytes behind them still wait. -/
theorem performSteps_rxByte (P : Params) {bs : List Byte} {s : State} (h : s.Receives P bs) (r : List Byte) :
    performSteps P (List.replicate bs.length .rxByte) (s.withRx (bs ++ r)) = (takeBytes P bs s).withRx r := by
  induction bs generalizing s with
  | nil => rfl
  | cons b bs ih =>
    obtain ⟨hready, hbs⟩ := h
    have hstep : rxStep P (s.withRx (b :: (bs ++ r))) = (rxByte P b s).withRx (bs ++ r) :=
      (rxStep_of_cons P (s := s.withRx (b :: (bs ++ r))) rfl hready).trans (rxByte_withRx P b s (bs ++ r))
    rw [List.length_cons, List.replicate_succ, performSteps_cons, performStep, List.cons_append, hstep, ih hbs,
      takeBytes_cons]

/-- From a frame boundary every byte of a well-formed request is received. -/
theorem State.receives_encode {P : Params} {i : Instr} {bs : List Byte} {s : State} (hwf : i.wf = true)
    (hi : encode i = .request bs) (hb : s.atBoundary = true) : s.Receives P bs := by
  have header (c a l : Byte) : s.Receives P [c, a, l] :=
    State.receives_of_bytesDue P (State.bytesDue_of_atBoundary hb).ge
  cases i <;> cases hi
  case read a l k => exact State.receives_read P a l k hb
  case write a l tail =>
    cases tail with
    | overLength => exact header cmdWrite a l
    | complete d k =>
      obtain ⟨hl, hd⟩ : l.toNat ≤ maxPayload ∧ d.length = l.toNat := by
        simpa [Instr.wf, Instr.wfAt, WriteTail.fits] using hwf
      exact State.receives_write P a k hl hd hb
  all_goals exact header _ _ _

theorem encode_request_ne_nil {i : Instr} {bs : List Byte} (hi : encode i = .request bs) : bs ≠ [] := by
  cases i <;> cases hi <;> simp

/-- Settles O54: the bytes of the frame are received without a commit or a response between. -/
theorem requestIsARunOfAgentSteps : Obligations.RequestIsARunOfAgentSteps := by
  intro i bs s hwf hi hb
  have hrecv := State.receives_encode (P := Config.params) hwf hi hb
  obtain ⟨-, -, hrx, -⟩ := takeBytes_frame Config.params bs s
  have hbytes : performSteps Config.params (List.replicate bs.length .rxByte) (s.withRx (bs ++ s.rx)) =
      takeBytes Config.params bs s := by
    rw [performSteps_rxByte Config.params hrecv, ← hrx]
    rfl
  have hrun : performSteps Config.params (List.replicate bs.length .rxByte ++ [.commit] ++ List.replicate 19 .txByte)
      (s.withRx (bs ++ s.rx)) = settle Config.params (takeBytes Config.params bs s) := by
    rw [List.append_assoc, performSteps_append, hbytes, ← settle_eq_performSteps]
  rw [exec_eq_runFrame hi, runFrame_of_atBoundary _ _ hb,
    feed_eq_settle_takeBytes hrecv (encode_request_ne_nil hi), ← hrun, State.withRx]

end Sys2Proof.Machine

namespace Sys2Proof.Machine

/-! PROOF. The engine as the stream function (42_framing.md R145): frame by frame the step rules and `run` do the same. -/

/-- What `run` gives for the bytes is what feeding them from `s` does, where `s` has sent what it had sent before. -/
structure FeedsAs (P : Params) (bytes : List Byte) (s : State) (r : StreamResult) : Prop where
  map : (feed P bytes s).map = r.map
  tx : (feed P bytes s).tx = s.tx ++ r.out
  tail : ∃ u : State, u.atBoundary = true ∧ u.map = r.map ∧ u.tx = s.tx ++ r.out ∧ feed P bytes s = feed P r.rest u

/-- An incomplete frame is held: no map change, no response, and `run` gives it back. -/
theorem FeedsAs.incomplete {P : Params} {bytes : List Byte} {s : State} (hb : s.atBoundary = true)
    (h : feed P bytes s = takeBytes P bytes s) : FeedsAs P bytes s ⟨s.map, [], bytes⟩ := by
  obtain ⟨hmap, -, -, htx⟩ := takeBytes_frame P bytes s
  exact ⟨by rw [h, hmap], by rw [h, htx, List.append_nil], s, hb, rfl, (List.append_nil _).symm, rfl⟩

/-- A complete frame fed in front of the rest of the stream: what it sends stands in front of what the rest sends. -/
theorem FeedsAs.frame {P : Params} {frame rest resp : List Byte} {s t : State} {r : StreamResult}
    (hframe : feed P frame s = t) (htx : t.tx = s.tx ++ resp) (h : FeedsAs P rest t r) :
    FeedsAs P (frame ++ rest) s (r.after resp) := by
  have hfeed : feed P (frame ++ rest) s = feed P rest t := by rw [feed_append, hframe]
  have hout : t.tx ++ r.out = s.tx ++ (r.after resp).out := by rw [htx, List.append_assoc]; rfl
  obtain ⟨u, hub, humap, hutx, hutail⟩ := h.tail
  exact ⟨hfeed.symm ▸ h.map, by rw [hfeed, h.tx, hout], u, hub, humap, hutx.trans hout, hfeed.trans hutail⟩

/-- A header with less behind it than it announces is an incomplete frame. -/
theorem feed_incomplete (P : Params) {c a l : Byte} {t : List Byte} {s : State} (hb : s.atBoundary = true)
    (h : t.length < (takeLengthAndDecide P l (s.beforeLength c a)).bytesDue) :
    feed P (c :: a :: l :: t) s = takeBytes P (c :: a :: l :: t) s := by
  have hdue := takeBytes_bytesDue P t (takeLengthAndDecide P l (s.beforeLength c a))
  refine feed_eq_takeBytes (State.receives_frame hb h.le) ?_
  rw [show c :: a :: l :: t = [c, a, l] ++ t from rfl, takeBytes_append, takeBytes_header P c a l hb]
  exact State.rxReady_of_bytesDue (by omega)

/-- From every frame boundary with the guard free, feeding at most so many bytes is the function `run`. -/
def FeedsAsRun (P : Params) (fuel : Nat) : Prop :=
  ∀ (bytes : List Byte) (s : State), bytes.length ≤ fuel → s.atBoundary = true → s.owner = .free →
    FeedsAs P bytes s (runStreamFuel P fuel s.map bytes)

/-! ### The function `run`, command by command -/

theorem runStreamFuel_read_incomplete (P : Params) (fuel : Nat) (m : Memory) (a l : Byte) :
    runStreamFuel P (fuel + 1) m [cmdRead, a, l] = ⟨m, [], [cmdRead, a, l]⟩ := rfl

theorem runStreamFuel_read (P : Params) (fuel : Nat) (m : Memory) (a l k : Byte) (t : List Byte) :
    runStreamFuel P (fuel + 1) m (cmdRead :: a :: l :: k :: t) =
      if !hdrOk P a l then runStreamFuel P fuel m t
      else if k ≠ cmdRead ^^^ a ^^^ l then runStreamFuel P fuel m t
      else (runStreamFuel P fuel m t).after (dataFrame a l (Memory.readList m a.toNat l.toNat)) := rfl

theorem runStreamFuel_write (P : Params) (fuel : Nat) (m : Memory) (a l : Byte) (t : List Byte) :
    runStreamFuel P (fuel + 1) m (cmdWrite :: a :: l :: t) =
      if 16 < l.toNat then runStreamFuel P fuel m t
      else if t.length < l.toNat + 1 then ⟨m, [], cmdWrite :: a :: l :: t⟩
      else if !hdrOk P a l then runStreamFuel P fuel m (t.drop (l.toNat + 1))
      else if t.getD l.toNat 0#8 ≠ cmdWrite ^^^ a ^^^ l ^^^ xorFold (t.take l.toNat) then
        (runStreamFuel P fuel m (t.drop (l.toNat + 1))).after [a, 0xFF#8, a ^^^ 0xFF#8]
      else
        (runStreamFuel P fuel (Memory.writeList m a.toNat (t.take l.toNat)) (t.drop (l.toNat + 1))).after
          [a, 0x00#8, a] := rfl

theorem runStreamFuel_unknown (P : Params) (fuel : Nat) (m : Memory) {c : Byte} (hread : c ≠ cmdRead)
    (hwrite : c ≠ cmdWrite) (a l : Byte) (t : List Byte) :
    runStreamFuel P (fuel + 1) m (c :: a :: l :: t) = runStreamFuel P fuel m t :=
  (if_neg hread).trans (if_neg hwrite)

/-! ### Frame by frame -/

/-- A stream that begins with a READ frame. -/
theorem feedsAs_read {P : Params} {fuel : Nat} (ih : FeedsAsRun P fuel) (a l : Byte) {t : List Byte} {s : State}
    (hlen : t.length ≤ fuel) (hb : s.atBoundary = true) (ho : s.owner = .free) :
    FeedsAs P (cmdRead :: a :: l :: t) s (runStreamFuel P (fuel + 1) s.map (cmdRead :: a :: l :: t)) := by
  cases t with
  | nil =>
    rw [runStreamFuel_read_incomplete]
    exact .incomplete hb (feed_incomplete P hb (by rw [bytesDue_read]; exact Nat.one_pos))
  | cons k t =>
    have hrest : t.length ≤ fuel := Nat.le_of_succ_le hlen
    have frame {u : State} {m : Memory} {resp : List Byte} (h : feed P [cmdRead, a, l, k] s = u) (hm : u.map = m)
        (htx : u.tx = s.tx ++ resp) (hub : u.atBoundary = true) (huo : u.owner = .free) :
        FeedsAs P (cmdRead :: a :: l :: k :: t) s ((runStreamFuel P fuel m t).after resp) :=
      .frame h htx (hm ▸ ih t u hrest hub huo)
    rw [runStreamFuel_read]
    cases hok : hdrOk P a l with
    | false => exact frame (feed_read_invalid hb hok k) rfl (List.append_nil _).symm hb ho
    | true =>
      rw [Bool.not_true, if_neg Bool.false_ne_true]
      by_cases hk : k = cmdRead ^^^ a ^^^ l
      · subst hk
        rw [if_neg (not_not_intro rfl)]
        exact frame (feed_read_ok hb ho hok) rfl rfl hb ho
      · rw [if_pos hk]
        exact frame (feed_read_badChecksum hb hok hk) rfl (List.append_nil _).symm hb ho

/-- A stream that begins with a WRITE frame. -/
theorem feedsAs_write {P : Params} {fuel : Nat} (ih : FeedsAsRun P fuel) (a l : Byte) {t : List Byte} {s : State}
    (hlen : t.length ≤ fuel) (hb : s.atBoundary = true) (ho : s.owner = .free) :
    FeedsAs P (cmdWrite :: a :: l :: t) s (runStreamFuel P (fuel + 1) s.map (cmdWrite :: a :: l :: t)) := by
  rw [runStreamFuel_write]
  by_cases hl : 16 < l.toNat
  · rw [if_pos hl]
    exact .frame (feed_write_overLength P hb hl) (List.append_nil _).symm (ih t _ hlen hb ho)
  · have h16 : l.toNat ≤ 16 := Nat.le_of_not_lt hl
    rw [if_neg hl]
    by_cases hshort : t.length < l.toNat + 1
    · rw [if_pos hshort]
      exact .incomplete hb (feed_incomplete P hb (by rwa [bytesDue_write P a h16]))
    · rw [if_neg hshort]
      have hd : (t.take l.toNat).length = l.toNat := by rw [List.length_take]; omega
      have hrest : (t.drop (l.toNat + 1)).length ≤ fuel := by rw [List.length_drop]; omega
      have htail : t = (t.take l.toNat ++ [t.getD l.toNat 0#8]) ++ t.drop (l.toNat + 1) := by
        rw [List.getD_eq_getElem t 0#8 (by omega), List.take_append_getElem, List.take_append_drop]
      have hsplit : cmdWrite :: a :: l :: t =
          ([cmdWrite, a, l] ++ (t.take l.toNat ++ [t.getD l.toNat 0#8])) ++ t.drop (l.toNat + 1) := by
        rw [List.append_assoc, ← htail]
        rfl
      have frame {u : State} {m : Memory} {resp : List Byte}
          (h : feed P ([cmdWrite, a, l] ++ (t.take l.toNat ++ [t.getD l.toNat 0#8])) s = u)
          (hm : u.map = m) (htx : u.tx = s.tx ++ resp) (hub : u.atBoundary = true) (huo : u.owner = .free) :
          FeedsAs P (cmdWrite :: a :: l :: t) s ((runStreamFuel P fuel m (t.drop (l.toNat + 1))).after resp) := by
        rw [hsplit]
        exact .frame h htx (hm ▸ ih _ u hrest hub huo)
      cases hok : hdrOk P a l with
      | false => exact frame (feed_write_outOfRange hb hok h16 hd _) rfl (List.append_nil _).symm hb ho
      | true =>
        rw [Bool.not_true, if_neg Bool.false_ne_true]
        by_cases hk : t.getD l.toNat 0#8 = cmdWrite ^^^ a ^^^ l ^^^ xorFold (t.take l.toNat)
        · rw [if_neg (not_not_intro hk)]
          have hframe := feed_write_ok hb ho hok hd
          rw [← hk] at hframe
          exact frame hframe rfl rfl hb ho
        · rw [if_pos hk]
          exact frame (feed_write_badChecksum hb hok hd hk) rfl rfl hb ho

/-- A stream that begins with a frame of an unknown command. -/
theorem feedsAs_unknown {P : Params} {fuel : Nat} (ih : FeedsAsRun P fuel) {c : Byte} (hread : c ≠ cmdRead)
    (hwrite : c ≠ cmdWrite) (a l : Byte) {t : List Byte} {s : State} (hlen : t.length ≤ fuel)
    (hb : s.atBoundary = true) (ho : s.owner = .free) :
    FeedsAs P (c :: a :: l :: t) s (runStreamFuel P (fuel + 1) s.map (c :: a :: l :: t)) := by
  rw [runStreamFuel_unknown P fuel s.map hread hwrite]
  have hframe := (runFrame_of_atBoundary P [c, a, l] hb).symm.trans (runFrame_unknownCommand P hread hwrite a l hb)
  exact .frame hframe (List.append_nil _).symm (ih t _ hlen hb ho)

/-- Feeding bytes is the function `run`, by induction on the bytes, frame by frame. -/
theorem feedsAsRun (P : Params) (fuel : Nat) : FeedsAsRun P fuel := by
  induction fuel with
  | zero =>
    intro bytes s hlen hb _
    obtain rfl : bytes = [] := List.eq_nil_of_length_eq_zero (Nat.le_zero.mp hlen)
    exact .incomplete hb (feed_nil P s)
  | succ fuel ih =>
    intro bytes s hlen hb ho
    match bytes with
    | [] => exact .incomplete hb (feed_nil P s)
    | [_] | [_, _] =>
      exact .incomplete hb (feed_of_lt_bytesDue P (by rw [State.bytesDue_of_atBoundary hb]; simp))
    | c :: a :: l :: t =>
      have ht : t.length ≤ fuel := by simp only [List.length_cons] at hlen; omega
      by_cases hread : c = cmdRead
      · subst hread
        exact feedsAs_read ih a l ht hb ho
      · by_cases hwrite : c = cmdWrite
        · subst hwrite
          exact feedsAs_write ih a l ht hb ho
        · exact feedsAs_unknown ih hread hwrite a l ht hb ho

/-- Settles O53. -/
theorem engineIsTheStreamFunction : Obligations.EngineIsTheStreamFunction := by
  intro P bytes s hb ho
  have h := feedsAsRun P bytes.length bytes s le_rfl hb ho
  exact ⟨h.map, h.tx, h.tail⟩

end Sys2Proof.Machine

namespace Sys2Proof.Machine

/-! PROOF. Progress (70_reset_and_hazards.md R256, 45_consumer_port.md R187; log 20). A frame goes through stages: the engine's
registers are those of its run so far, and RX begins with the bytes it still needs. Only the engine's own next step leaves a
stage, fairness takes that step, and the stages of a frame are finitely many. -/

/-! ### Fairness -/

/-- What is kept until a step is taken while it is enabled, and enables it from some move on, sees the step taken. -/
theorem eventually_taken {P : Params} {sched : Nat → Move} {s : State} {a : AgentStep}
    (hfair : WeaklyFair P sched s a) {Q : State → Prop} {n N : Nat} (hn : Q (runAt P sched s n))
    (hstay : ∀ m, n ≤ m → Q (runAt P sched s m) →
      ¬(sched m = .agent a ∧ a.enabled (runAt P sched s m) = true) → Q (runAt P sched s (m + 1)))
    (henabled : ∀ m, N ≤ m → Q (runAt P sched s m) → a.enabled (runAt P sched s m) = true) :
    ∃ m, n ≤ m ∧ Q (runAt P sched s m) ∧ sched m = .agent a ∧ a.enabled (runAt P sched s m) = true := by
  by_contra hnever
  have hkeep : ∀ m, n ≤ m → Q (runAt P sched s m) := by
    intro m hm
    induction m, hm using Nat.le_induction with
    | base => exact hn
    | succ m hm ih => exact hstay m hm ih fun htaken => hnever ⟨m, hm, ih, htaken⟩
  obtain ⟨m, hm, htaken⟩ := hfair (max n N) fun m hm =>
    henabled m (le_trans (le_max_right n N) hm) (hkeep m (le_trans (le_max_left n N) hm))
  have hnm : n ≤ m := le_trans (le_max_left n N) hm
  exact hnever ⟨m, hnm, hkeep m hnm, htaken,
    henabled m (le_trans (le_max_right n N) hm) (hkeep m hnm)⟩

/-! ### Stages of the engine -/

/-- The engine and the TX port are as in `v`, and RX holds these bytes and then what the host sent meanwhile. -/
structure AtStage (v : State) (bytes : List Byte) (s : State) : Prop where
  engine : s = v.withOutside s
  rx : ∃ sent, s.rx = bytes ++ sent

theorem AtStage.refl {bytes sent : List Byte} {s : State} (h : s.rx = bytes ++ sent) : AtStage s bytes s :=
  ⟨rfl, sent, h⟩

theorem AtStage.st {v s : State} {bytes : List Byte} (h : AtStage v bytes s) : s.st = v.st := by rw [h.engine]; rfl

theorem AtStage.rxReady {v s : State} {bytes : List Byte} (h : AtStage v bytes s) : s.rxReady = v.rxReady := by
  rw [State.rxReady, State.rxReady, h.st]

/-- The step the engine takes next, by its phase. -/
def State.engineStep (s : State) : AgentStep :=
  match s.st with
  | .commitRd | .commitWr => .commit
  | .resp => .txByte
  | .hdr | .rdCsum | .wrPayload | .wrCsum | .skip => .rxByte

theorem AtStage.engineStep {v s : State} {bytes : List Byte} (h : AtStage v bytes s) : s.engineStep = v.engineStep := by
  rw [State.engineStep, State.engineStep, h.st]

theorem State.engineStep_of_rxReady {s : State} (h : s.rxReady = true) : s.engineStep = .rxByte := by
  cases hst : s.st <;> simp [State.rxReady, hst] at h <;> simp [State.engineStep, hst]

theorem State.engineStep_of_commit {s : State} (h : s.st = .commitRd ∨ s.st = .commitWr) : s.engineStep = .commit := by
  rcases h with h | h <;> simp [State.engineStep, h]

theorem State.engineStep_of_resp {s : State} (h : s.st = .resp) : s.engineStep = .txByte := by
  simp [State.engineStep, h]

/-- What only the port side or the host does leaves the engine in its stage. -/
theorem AtStage.of_portSide {v s t : State} {bytes : List Byte} (h : AtStage v bytes s) (ht : t = s.withPortSide t) :
    AtStage v bytes t := by
  have hrx : t.rx = s.rx := by rw [ht]; rfl
  obtain ⟨sent, hsent⟩ := h.rx
  refine ⟨?_, sent, hrx.trans hsent⟩
  calc t = s.withPortSide t := ht
    _ = (v.withOutside s).withPortSide t := by rw [← h.engine]
    _ = v.withOutside t := by rw [State.withOutside, State.withOutside, State.withPortSide, ← hrx]

theorem AtStage.hostSend {v s : State} {bytes : List Byte} (h : AtStage v bytes s) (more : List Byte) :
    AtStage v bytes (hostSend more s) := by
  obtain ⟨sent, hsent⟩ := h.rx
  refine ⟨?_, sent ++ more, by rw [hostSend_rx, hsent, List.append_assoc]⟩
  conv_lhs => rw [h.engine]
  rfl

theorem presentRequest_portSide (i : Nat) (r : PortReq) (s : State) :
    presentRequest i r s = s.withPortSide (presentRequest i r s) := by
  unfold presentRequest
  split
  · rfl
  · split <;> rfl

theorem driveLock_portSide (i : Nat) (b : Bool) (s : State) : driveLock i b s = s.withPortSide (driveLock i b s) := by
  unfold driveLock
  split <;> rfl

theorem performStep_portSide (P : Params) {a : AgentStep} (ha : a.ofPort = true) (s : State) :
    performStep P s a = s.withPortSide (performStep P s a) := performStep_withPortSide P ha s s

/-- A step that is not enabled does not happen (00_scope.md R9). -/
theorem performStep_of_not_enabled (P : Params) {s : State} {a : AgentStep} (h : ¬a.enabled s = true) :
    performStep P s a = s := by
  cases a with
  | rxByte =>
    rcases rxStep_cases P s with ⟨_, e⟩ | ⟨b, bs, hrx, hready, _⟩
    · exact e
    · exact absurd (by simp [AgentStep.enabled, State.rxValid, hrx, hready]) h
  | commit =>
    rcases commit_cases P s with ⟨ho, hst, _⟩ | ⟨ho, hst, _⟩ | ⟨_, e⟩
    · exact absurd (by simp [AgentStep.enabled, ho, hst]) h
    · exact absurd (by simp [AgentStep.enabled, ho, hst]) h
    · exact e
  | txByte => exact if_neg fun hst => h (by simp [AgentStep.enabled, hst])
  | consAccess i =>
    rcases consAccess_cases P i s with ⟨_, e⟩ | ⟨p, hp, hreq, hmay, _⟩ | ⟨p, hp, hreq, hmay, _⟩
    · exact e
    · exact absurd (by simp [AgentStep.enabled, hp, hreq, hmay]) h
    · exact absurd (by simp [AgentStep.enabled, hp, hreq, hmay]) h
  | consAcquire i => exact if_neg fun ⟨ho, hi⟩ => h (by simp [AgentStep.enabled, ho, hi])
  | consRelease i => exact if_neg fun ho => h (by simp [AgentStep.enabled, ho])
  | reset | linkReset => exact absurd rfl h

/-- The engine's steps are enabled only in their phases. -/
theorem State.engineStep_of_enabled {s : State} {a : AgentStep} (hport : a.ofPort = false)
    (hreset : a ≠ .reset ∧ a ≠ .linkReset) (h : a.enabled s = true) : s.engineStep = a := by
  cases a with
  | rxByte =>
    obtain ⟨hready, _⟩ : s.rxReady = true ∧ s.rxValid = true := by simpa [AgentStep.enabled] using h
    exact State.engineStep_of_rxReady hready
  | commit =>
    obtain ⟨_, hst⟩ : s.owner = .free ∧ (s.st = .commitRd ∨ s.st = .commitWr) := by simpa [AgentStep.enabled] using h
    exact State.engineStep_of_commit hst
  | txByte => exact State.engineStep_of_resp (by simpa [AgentStep.enabled] using h)
  | consAccess | consAcquire | consRelease => cases hport
  | reset => exact absurd rfl hreset.1
  | linkReset => exact absurd rfl hreset.2

/-- Only the engine's next step, taken while it is enabled, moves the engine out of its stage. -/
theorem AtStage.perform {P : Params} {v s : State} {bytes : List Byte} {m : Move} (h : AtStage v bytes s)
    (hreset : m ≠ .agent .reset ∧ m ≠ .agent .linkReset)
    (hnot : ¬(m = .agent v.engineStep ∧ v.engineStep.enabled s = true)) : AtStage v bytes (m.perform P s) := by
  cases m with
  | present i r => exact h.of_portSide (presentRequest_portSide i r s)
  | driveLock i b => exact h.of_portSide (driveLock_portSide i b s)
  | hostSend more => exact h.hostSend more
  | agent a =>
    obtain ⟨hr, hl⟩ := hreset
    have hreset' : a ≠ .reset ∧ a ≠ .linkReset := ⟨fun e => hr (congrArg _ e), fun e => hl (congrArg _ e)⟩
    cases hport : a.ofPort
    · by_cases henabled : a.enabled s = true
      · have hstep := h.engineStep.symm.trans (State.engineStep_of_enabled hport hreset' henabled)
        exact absurd ⟨by rw [hstep], by rwa [hstep]⟩ hnot
      · rwa [Move.perform, performStep_of_not_enabled P henabled]
    · exact h.of_portSide (performStep_portSide P hport s)

/-! ### From stage to stage -/

/-- The premises of progress from move `n` on (R256; log 20). -/
structure Progress (P : Params) (sched : Nat → Move) (s : State) (n : Nat) : Prop where
  fair : FairRun P sched s
  noReset : NoResetFrom sched n
  rest : LockComesToRest P sched s

theorem Progress.later {P : Params} {sched : Nat → Move} {s : State} {n m : Nat} (h : Progress P sched s n)
    (hm : n ≤ m) : Progress P sched s m := ⟨h.fair, fun k hk => h.noReset k (hm.trans hk), h.rest⟩

section
variable {P : Params} {sched : Nat → Move} {s : State} {n : Nat}

/-- Every stage that lacks no byte to go on is left by the engine's own next step. -/
theorem Progress.leaves_stage (h : Progress P sched s n) {v : State} {bytes : List Byte}
    (hn : AtStage v bytes (runAt P sched s n)) (hbytes : v.rxReady = true → bytes ≠ []) :
    ∃ m, n ≤ m ∧ AtStage v bytes (runAt P sched s m) ∧ sched m = .agent v.engineStep ∧
      v.engineStep.enabled (runAt P sched s m) = true := by
  obtain ⟨N, hfree⟩ := h.rest
  have hfair : WeaklyFair P sched s v.engineStep := by
    unfold State.engineStep
    split
    · exact h.fair.guardCommit
    · exact h.fair.guardCommit
    · exact h.fair.receiver
    all_goals exact h.fair.transmitter
  refine eventually_taken (N := N) hfair hn (fun m hm hQ hnot => hQ.perform (h.noReset m hm) hnot) fun m hm hQ => ?_
  have hst := hQ.st
  by_cases hready : v.rxReady = true
  · obtain ⟨sent, hrx⟩ := hQ.rx
    rw [State.engineStep_of_rxReady hready]
    simp [AgentStep.enabled, hQ.rxReady, hready, State.rxValid, hrx, hbytes hready]
  · rcases v.rxReady_eq_false_iff.mp (Bool.eq_false_iff.mpr hready) with hv | hv | hv
    · rw [State.engineStep_of_commit (.inl hv)]
      simp [AgentStep.enabled, hfree m hm, hst, hv]
    · rw [State.engineStep_of_commit (.inr hv)]
      simp [AgentStep.enabled, hfree m hm, hst, hv]
    · rw [State.engineStep_of_resp hv]
      simp [AgentStep.enabled, hst, hv]

/-- A byte taken at a stage is the next byte of the stage. -/
theorem AtStage.rxStep {v t : State} {b : Byte} {bytes : List Byte} (h : AtStage v (b :: bytes) t)
    (hready : v.rxReady = true) : AtStage (rxByte P b v) bytes (rxStep P t) := by
  obtain ⟨sent, hrx⟩ := h.rx
  have hstep : Machine.rxStep P t = (rxByte P b v).withOutside (t.withRx (bytes ++ sent)) := by
    rw [rxStep_of_cons P hrx (h.rxReady.trans hready), ← rxByte_withOutside]
    conv_lhs => rw [h.engine]
    rfl
  exact ⟨by rw [hstep]; rfl, sent, by rw [hstep]; rfl⟩

/-- A byte sent at a stage is the next byte of the stage's response. -/
theorem AtStage.txByte {v t : State} {bytes : List Byte} (h : AtStage v bytes t) : AtStage (txByte v) bytes (txByte t) := by
  have hstep : Machine.txByte t = (Machine.txByte v).withOutside t := by
    rw [← txByte_withOutside, ← h.engine]
  obtain ⟨sent, hrx⟩ := h.rx
  exact ⟨by rw [hstep]; rfl, sent, by rw [hstep]; exact hrx⟩

/-- Bytes the engine is ready for are all received. -/
theorem Progress.receives (h : Progress P sched s n) {v : State} {bs bytes : List Byte} (hrecv : v.Receives P bs)
    (hn : AtStage v (bs ++ bytes) (runAt P sched s n)) :
    ∃ m, n ≤ m ∧ AtStage (takeBytes P bs v) bytes (runAt P sched s m) := by
  induction bs generalizing v n with
  | nil => exact ⟨n, le_rfl, hn⟩
  | cons b bs ih =>
    obtain ⟨hready, hbs⟩ := hrecv
    obtain ⟨k, hk, hstage, hsched, _⟩ := h.leaves_stage hn fun _ => List.cons_ne_nil _ _
    rw [State.engineStep_of_rxReady hready] at hsched
    have hnext : AtStage (rxByte P b v) (bs ++ bytes) (runAt P sched s (k + 1)) := by
      rw [runAt, hsched]
      exact hstage.rxStep hready
    obtain ⟨m, hm, hdone⟩ := ih (h.later (by omega)) hbs hnext
    exact ⟨m, by omega, hdone⟩

/-- A validated frame is committed, with the guard free at that move (20_memory.md R52). -/
theorem Progress.commits (h : Progress P sched s n) {v : State} {bytes : List Byte}
    (hv : v.st = .commitRd ∨ v.st = .commitWr) (hn : AtStage v bytes (runAt P sched s n)) :
    ∃ k, n ≤ k ∧ AtStage v bytes (runAt P sched s k) ∧ sched k = .agent .commit ∧ (runAt P sched s k).owner = .free ∧
      runAt P sched s (k + 1) = commit P (runAt P sched s k) := by
  have hready : v.rxReady = false := v.rxReady_eq_false_iff.mpr (hv.imp_right .inl)
  obtain ⟨k, hk, hstage, hsched, henabled⟩ := h.leaves_stage hn fun hr => absurd (hr.symm.trans hready) (by simp)
  rw [State.engineStep_of_commit hv] at hsched henabled
  obtain ⟨ho, _⟩ : (runAt P sched s k).owner = .free ∧ _ := by simpa [AgentStep.enabled] using henabled
  exact ⟨k, hk, hstage, hsched, ho, by rw [runAt, hsched]; rfl⟩

/-- A pending response is taken to its end. -/
theorem Progress.sends (h : Progress P sched s n) (count : Nat) {v : State} {bytes : List Byte}
    (hn : AtStage v bytes (runAt P sched s n)) :
    ∃ m, n ≤ m ∧ AtStage (txBytes count v) bytes (runAt P sched s m) := by
  induction count generalizing v n with
  | zero => exact ⟨n, le_rfl, hn⟩
  | succ count ih =>
    by_cases hresp : v.st = .resp
    · have hready : v.rxReady = false := v.rxReady_eq_false_iff.mpr (.inr (.inr hresp))
      obtain ⟨k, hk, hstage, hsched, _⟩ := h.leaves_stage hn fun hr => absurd (hr.symm.trans hready) (by simp)
      rw [State.engineStep_of_resp hresp] at hsched
      have hnext : AtStage (Machine.txByte v) bytes (runAt P sched s (k + 1)) := by
        rw [runAt, hsched]
        exact hstage.txByte
      obtain ⟨m, hm, hdone⟩ := ih (h.later (by omega)) hnext
      exact ⟨m, by omega, hdone⟩
    · rw [txBytes_of_not_resp _ hresp]
      exact ⟨n, le_rfl, hn⟩

/-- A validated frame is committed with the guard free and then settled: the response that the commit makes is sent. -/
theorem Progress.settles (h : Progress P sched s n) {v : State} {bytes : List Byte}
    (hv : v.st = .commitRd ∨ v.st = .commitWr) (hn : AtStage v bytes (runAt P sched s n)) :
    ∃ k m, n ≤ k ∧ k < m ∧ AtStage v bytes (runAt P sched s k) ∧ sched k = .agent .commit ∧
      (runAt P sched s k).owner = .free ∧ runAt P sched s (k + 1) = commit P (runAt P sched s k) ∧
      AtStage (settle P (runAt P sched s k)) bytes (runAt P sched s m) := by
  obtain ⟨k, hk, hstage, hsched, ho, hnext⟩ := h.commits hv hn
  obtain ⟨sent, hrx⟩ := hstage.rx
  obtain ⟨-, -, -, hrx', -⟩ := commit_frame P (runAt P sched s k)
  have hcommitted : AtStage (commit P (runAt P sched s k)) bytes (runAt P sched s (k + 1)) := by
    rw [hnext]
    exact .refl (hrx'.trans hrx)
  obtain ⟨m, hm, hdone⟩ := (h.later (by omega : n ≤ k + 1)).sends maxResponse hcommitted
  exact ⟨k, m, hk, hm, hstage, hsched, ho, hnext, hdone⟩

end

/-! ### The three claims -/

/-- What a stage says of the engine's side. -/
theorem AtStage.fields {v s : State} {bytes : List Byte} (h : AtStage v bytes s) :
    s.addr = v.addr ∧ s.len = v.len ∧ s.payload = v.payload ∧ s.tx = v.tx ∧ s.atBoundary = v.atBoundary := by
  rw [h.engine]
  exact ⟨rfl, rfl, rfl, rfl, rfl⟩

theorem Progress.read {P : Params} {sched : Nat → Move} {s : State} {n : Nat} (h : Progress P sched s n) {a l : Byte}
    {rest : List Byte} (hb : (runAt P sched s n).atBoundary = true) (hok : hdrOk P a l = true)
    (hrx : (runAt P sched s n).rx = [cmdRead, a, l, cmdRead ^^^ a ^^^ l] ++ rest) :
    ∃ k m, n ≤ k ∧ k < m ∧ sched k = .agent .commit ∧ (runAt P sched s k).st = .commitRd ∧
      (runAt P sched s k).owner = .free ∧ (runAt P sched s m).atBoundary = true ∧
      (∃ sent, (runAt P sched s m).rx = rest ++ sent) ∧
      (runAt P sched s m).tx =
        (runAt P sched s n).tx ++ dataFrame a l (Memory.readList (runAt P sched s k).map a.toNat l.toNat) := by
  have hstart : AtStage (runAt P sched s n) ([cmdRead, a, l, cmdRead ^^^ a ^^^ l] ++ rest) (runAt P sched s n) :=
    .refl (sent := []) (by rw [hrx, List.append_nil])
  obtain ⟨j, hj, hvalid⟩ := h.receives (State.receives_read P a l _ hb) hstart
  rw [takeBytes_read_right hok hb] at hvalid
  obtain ⟨k, m, hk, hm, hstage, hsched, ho, -, hdone⟩ := (h.later hj).settles (.inl rfl) hvalid
  obtain ⟨haddr, hlen, -, htx, -⟩ := hstage.fields
  obtain ⟨-, -, -, htx', hb'⟩ := hdone.fields
  rw [settle_commitRead ho hstage.st (by rw [haddr, hlen]; exact hok)] at htx' hb'
  refine ⟨k, m, hj.trans hk, hm, hsched, hstage.st, ho, hb', hdone.rx, ?_⟩
  rw [htx', haddr, hlen, htx]
  rfl

theorem Progress.write {P : Params} {sched : Nat → Move} {s : State} {n : Nat} (h : Progress P sched s n) {a l : Byte}
    {d rest : List Byte} (hb : (runAt P sched s n).atBoundary = true) (hok : hdrOk P a l = true)
    (hd : d.length = l.toNat)
    (hrx : (runAt P sched s n).rx = [cmdWrite, a, l] ++ (d ++ [cmdWrite ^^^ a ^^^ l ^^^ xorFold d]) ++ rest) :
    ∃ k m, n ≤ k ∧ k < m ∧ sched k = .agent .commit ∧ (runAt P sched s k).st = .commitWr ∧
      (runAt P sched s k).owner = .free ∧ (runAt P sched s m).atBoundary = true ∧
      (∃ sent, (runAt P sched s m).rx = rest ++ sent) ∧
      (runAt P sched s (k + 1)).map = Memory.writeList (runAt P sched s k).map a.toNat d ∧
      (runAt P sched s m).tx = (runAt P sched s n).tx ++ [a, 0x00#8, a] := by
  obtain ⟨_, hle, h16⟩ := hdrOk_iff.mp hok
  have hstart : AtStage (runAt P sched s n) ([cmdWrite, a, l] ++ (d ++ [cmdWrite ^^^ a ^^^ l ^^^ xorFold d]) ++ rest)
      (runAt P sched s n) := .refl (sent := []) (by rw [hrx, List.append_nil])
  obtain ⟨j, hj, hvalid⟩ := h.receives (State.receives_write P a _ h16 hd hb) hstart
  rw [takeBytes_write_right hok hd hb] at hvalid
  obtain ⟨k, m, hk, hm, hstage, hsched, ho, hnext, hdone⟩ := (h.later hj).settles (.inr rfl) hvalid
  obtain ⟨haddr, hlen, hpay, htx, -⟩ := hstage.fields
  obtain ⟨-, -, -, htx', hb'⟩ := hdone.fields
  have hheld := afterPayload_payload (runAt P sched s n) a h16 hd
  have hrange : (runAt P sched s k).addr.toNat + (runAt P sched s k).len.toNat ≤ P.mapSize := by
    rw [haddr, hlen]; exact hle
  rw [settle_commitWrite ho hstage.st hrange] at htx' hb'
  refine ⟨k, m, hj.trans hk, hm, hsched, hstage.st, ho, hb', hdone.rx, ?_, ?_⟩
  · rw [hnext, commit_eq_writeList ho hstage.st hrange, haddr, hpay.trans hheld]
    rfl
  · rw [htx', haddr, htx]
    rfl

/-- What is kept of a presented request until it is performed: everything but `c_lock`, which the port may drive (R186). -/
def State.Presents (s : State) (i : Nat) (r : PortReq) : Prop :=
  ∃ q : Port, s.ports[i]? = some q ∧ q.req = true ∧ { q.sig with lock := r.lock } = r

theorem driveLock_presents {s : State} {i : Nat} {r : PortReq} (h : s.Presents i r) (j : Nat) (b : Bool) :
    (driveLock j b s).Presents i r := by
  obtain ⟨q, hq, hreq, hsig⟩ := h
  unfold driveLock
  split
  next => exact ⟨q, hq, hreq, hsig⟩
  next p hp =>
    by_cases hji : j = i
    · subst hji
      obtain rfl : q = p := Option.some.inj (hq.symm.trans hp)
      exact ⟨_, State.setPort_getElem? hp _, hreq, hsig⟩
    · exact ⟨q, (List.getElem?_set_ne hji).trans hq, hreq, hsig⟩

theorem perform_presents {P : Params} {s : State} {i : Nat} {r : PortReq} {m : Move} (h : s.Presents i r)
    (hnot : ¬(m = .agent (.consAccess i) ∧ (AgentStep.consAccess i).enabled s = true)) :
    (m.perform P s).Presents i r := by
  obtain ⟨q, hq, hreq, hsig⟩ := h
  cases m with
  | present j r' => exact ⟨q, presentRequest_port hq hreq j r', hreq, hsig⟩
  | driveLock j b => exact driveLock_presents ⟨q, hq, hreq, hsig⟩ j b
  | hostSend more => exact ⟨q, hq, hreq, hsig⟩
  | agent a =>
    by_cases ha : a = .consAccess i
    · subst ha
      have hdisabled : ¬(AgentStep.consAccess i).enabled s = true := fun henabled => hnot ⟨rfl, henabled⟩
      rw [Move.perform, performStep_of_not_enabled P hdisabled]
      exact ⟨q, hq, hreq, hsig⟩
    · exact ⟨q, (performStep_port P s ha).trans hq, hreq, hsig⟩

/-- An enabled access performs the request: one more result, of that port and operation. -/
theorem consAccess_results {P : Params} {i : Nat} {s : State} {p : Port} (hp : s.ports[i]? = some p)
    (hreq : p.req = true) (hmay : s.mayAccess i = true) :
    ∃ r : PortResult, r.port = i ∧ r.op = p.sig.op ∧ (consAccess P i s).results = s.results ++ [r] := by
  rw [consAccess_of_req hp hreq hmay]
  split
  · rcases performRead_cases P i p s with ⟨_, _, e⟩ | ⟨_, e⟩ <;> rw [e] <;> exact ⟨_, rfl, rfl, rfl⟩
  · rcases performWrite_cases P i p s with ⟨_, _, e⟩ | ⟨_, e⟩ <;> rw [e] <;> exact ⟨_, rfl, rfl, rfl⟩

theorem Progress.access {P : Params} {sched : Nat → Move} {s : State} {n : Nat} (h : Progress P sched s n) {i : Nat}
    {req : PortReq} (hn : (runAt P sched s n).Presents i req) :
    ∃ k q r, n ≤ k ∧ sched k = .agent (.consAccess i) ∧ (runAt P sched s k).ports[i]? = some q ∧
      { q.sig with lock := req.lock } = req ∧ r.port = i ∧ r.op = req.op ∧
      (runAt P sched s (k + 1)).results = (runAt P sched s k).results ++ [r] := by
  obtain ⟨N, hfree⟩ := h.rest
  obtain ⟨k, hk, ⟨q, hq, hreq, hsig⟩, hsched, henabled⟩ :=
    eventually_taken (Q := fun t => t.Presents i req) (N := N) (h.fair.guardAccess i) hn
      (fun _ _ hQ hnot => perform_presents hQ hnot) fun m hm ⟨q, hq, hreq, _⟩ => by
        simp [AgentStep.enabled, hq, hreq, State.mayAccess, hfree m hm]
  have hmay : (runAt P sched s k).mayAccess i = true := by
    simpa [AgentStep.enabled, hq, hreq] using henabled
  obtain ⟨r, hport, hop, hresults⟩ := consAccess_results (P := P) hq hreq hmay
  refine ⟨k, q, r, hk, hsched, hq, hsig, hport, hop.trans (by rw [← hsig]), ?_⟩
  rw [runAt, hsched]
  exact hresults

/-- Settles O55: a READ, a WRITE and a port request each go through their stages. -/
theorem fairRunsServeEveryRequest : Obligations.FairRunsServeEveryRequest := by
  intro P sched s n hfair hreset hrest u
  have h : Progress P sched s n := ⟨hfair, hreset, hrest⟩
  refine ⟨fun a l rest hb hok hrx => h.read hb hok hrx, fun a l d rest hb hok hd hrx => h.write hb hok hd ?_,
    fun i p hp hreq => h.access ⟨p, hp, hreq, rfl⟩⟩
  rw [← List.append_assoc]
  exact hrx

end Sys2Proof.Machine
